-- ==== Sys2Proof/Word.lean ====
section
/-! DEFINITION. The bit-vector widths the spec uses (00_scope.md R8) and the two color records (30_encoding.md R56). -/

namespace Sys2Proof

/-- A 32-bit register of the window (10_state.md R11). -/
abbrev Word := BitVec 32

/-- A u16: a packed 565 word or an endpoint `c0`, `c1` (30_encoding.md R57). -/
abbrev Half := BitVec 16

/-- A u8: one color channel, or one byte of the wire form. -/
abbrev Byte := BitVec 8

/-- A selector: which palette entry a texel takes (30_encoding.md R58). -/
abbrev Selector := BitVec 2

/-- A color without alpha: the `.rgb` of a texel (00_scope.md R8). -/
structure Rgb where
  r : Byte
  g : Byte
  b : Byte
  deriving DecidableEq, Repr, Inhabited

/-- A texel: "an RGBA8888 color (4 independent 8-bit channels)" (30_encoding.md R56). -/
structure Texel where
  rgb : Rgb
  a : Byte
  deriving DecidableEq, Repr, Inhabited

end Sys2Proof
end

