-- ==== Sys2Proof/Config.lean ====
section
/-! DEFINITION. What is fixed for a run and left OPEN by the spec (00_scope.md R7, 10_state.md R10): the vendor rounding
functions, the encoder's policy, the draws of unspecified registers, the window's place and the number of instances.
Each is opaque: no proof can see its value, so a claim holds for every value. -/

namespace Sys2Proof

/-- The three vendor slots of the Approximation Mode, MODE = 1, 2, 3 (30_encoding.md R53). -/
inductive Vendor where
  | v1
  | v2
  | v3
  deriving DecidableEq, Repr, Inhabited

/-- The Approximation Mode: 0 = IDEAL, 1..3 = the vendor slots (30_encoding.md R53). -/
inductive Mode where
  | ideal
  | vendor (v : Vendor)
  deriving DecidableEq, Repr, Inhabited

/-- Which layer of 43_encoder.md ENCODE follows (00_scope.md R7, D27). -/
inductive EncoderPolicy where
  /-- ENCODE computes rules R120-R134. -/
  | reference
  /-- ENCODE's output is a draw from every block that satisfies rules R110-R118. -/
  | anyConforming
  deriving DecidableEq, Repr, Inhabited

/-- Everything ENCODE's output may depend on (43_encoder.md R111): `fsel` is `some` exactly when `FSEL_EN` = 1, so an
absent override cannot matter. Where `FSEL_EN` = 1, `ALLOW3` and `FORCE_BLACK` "have no effect" (R114):
`State.encodeInput` gives both as false there. -/
structure EncodeInput where
  texels : Vector Texel 16
  quality : BitVec 8
  allow3 : Bool
  forceBlack : Bool
  fsel : Option Word
  mode : Mode
  deriving DecidableEq, Repr, Inhabited

/-- `QUANT_V[m]`: "a total, deterministic function of (r, g, b) alone returning a u16" (40_quantizer.md R75). Log 6. -/
opaque Config.quantV : Vendor → Rgb → Half

/-- `INTERP4_V[m]`: entries 2 and 3 of a vendor's 4-color palette, a function of (c0, c1) alone (40_quantizer.md R79). Log 6. -/
opaque Config.interp4V : Vendor → Half → Half → Rgb × Rgb

/-- `INTERP3_V[m]`: entry 2 of a vendor's 3-color palette, a function of (c0, c1) alone (40_quantizer.md R79). Log 6. -/
opaque Config.interp3V : Vendor → Half → Half → Rgb

/-- `ENCODER_POLICY` (00_scope.md R7, 43_encoder.md R140). Log 7. -/
opaque Config.encoderPolicy : EncoderPolicy

/-- Under `ANY_CONFORMING`: the endpoint pair drawn for an input, one draw per distinct input (43_encoder.md R111).
Machine/Conforming.lean uses it only where the block it gives conforms. Log 8. -/
opaque Config.conformingPair : EncodeInput → Half × Half

/-- Draw n of unit k, a 32-bit value: what a read or use of an unspecified register of that unit gives (10_state.md R26,
60_exceptions.md R185). Arguments: the unit, the draw's number. Logs 1, 2. -/
opaque Config.draw : Nat → Nat → Word

/-- `WINDOW_BASE` of each unit's window (20_memory.md R30, 60_exceptions.md R185). Log 11. -/
opaque Config.windowBase : Nat → Nat

/-- One less than `N_UNITS`, so that `N_UNITS` is at least 1 (60_exceptions.md R185). Log 11. -/
opaque Config.furtherUnits : Nat

/-- `N_UNITS` ≥ 1 (60_exceptions.md R185). -/
def Config.nUnits : Nat := Config.furtherUnits + 1

end Sys2Proof
end

