-- ==== Sys2Proof/Syntax.lean ====
section
/-! DEFINITION. The commands: one constructor per row of opcode_table.json (30_encoding.md R51, R52, R54). -/

namespace Sys2Proof

/-- A command with the fields its row uses (30_encoding.md R54). -/
inductive Instr where
  /-- INIT: `MODE` (44_facade.md R155). -/
  | init (mode : Mode)
  /-- ENCODE: `ALLOW3`, `FORCE_BLACK`, `FSEL_EN`, `QUALITY` (43_encoder.md R140). -/
  | encode (allow3 forceBlack fselEn : Bool) (quality : BitVec 8)
  /-- DECODE: `MODE`, `SET_ALPHA` (41_decoder.md R95). -/
  | decode (mode : Mode) (setAlpha : Bool)
  /-- QUANTIZE: `MODE` (40_quantizer.md R85). -/
  | quantize (mode : Mode)
  /-- EXPAND: no field (40_quantizer.md R86). -/
  | expand
  /-- PALETTE: `MODE`, `COUNT3` (40_quantizer.md R87). -/
  | palette (mode : Mode) (count3 : Bool)
  /-- ASSIGN: `NPAL`, the palette's size less one (42_selector.md R105). -/
  | assign (npal : BitVec 2)
  deriving DecidableEq, Repr, Inhabited

end Sys2Proof
end

