-- ==== Sys2Proof/WellFormed.lean ====
section
/-! DEFINITION. Which commands have legal operands. The fields' types already hold every range of 30_encoding.md R51;
the one operand value the spec calls illegal is ASSIGN's palette of one entry (30_encoding.md R55, R61). -/

namespace Sys2Proof

/-- The command's operand fields are legal (30_encoding.md R55: "the legal sizes are 2, 3 and 4"). -/
def WellFormed : Instr → Bool
  | .init _ => true
  | .encode _ _ _ _ => true
  | .decode _ _ => true
  | .quantize _ => true
  | .expand => true
  | .palette _ _ => true
  | .assign npal => npal != 0

end Sys2Proof
end

