-- ==== Sys2Proof/Decode.lean ====
section
/-! DEFINITION. The command word: decoder and encoder, both written from the field table of 30_encoding.md R51 and the
masks of R54. Decoding is total on 32-bit words and rejects by name (60_exceptions.md R171). -/

namespace Sys2Proof

/-- The operation a word's `OP` field names (30_encoding.md R52). -/
inductive Op where
  | init
  | encode
  | decode
  | quantize
  | expand
  | palette
  | assign
  deriving DecidableEq, Repr

/-- Why a word is no command (60_exceptions.md R171). -/
inductive Reject where
  /-- `OP` is 0 or 8..15. -/
  | illegalOp
  /-- A bit outside the operation's legal mask is 1. -/
  | reservedField
  deriving DecidableEq, Repr

/-- What the decoder answers. -/
inductive Decoded where
  | accept (i : Instr)
  | reject (r : Reject)
  deriving DecidableEq, Repr

/-- The value of `OP` (30_encoding.md R52). -/
def Op.code : Op → BitVec 4
  | .init => 0x1
  | .encode => 0x2
  | .decode => 0x3
  | .quantize => 0x4
  | .expand => 0x5
  | .palette => 0x6
  | .assign => 0x7

/-- The operation of an `OP` value; 0 and 8..15 name none (30_encoding.md R52). -/
def opOfCode (c : BitVec 4) : Option Op :=
  if c = 0x1 then some .init
  else if c = 0x2 then some .encode
  else if c = 0x3 then some .decode
  else if c = 0x4 then some .quantize
  else if c = 0x5 then some .expand
  else if c = 0x6 then some .palette
  else if c = 0x7 then some .assign
  else none

/-- The mask of all legal bits of an operation (30_encoding.md R54). -/
def Op.legal : Op → Word
  | .init => 0x0000003F
  | .encode => 0x00FF038F
  | .decode => 0x0000007F
  | .quantize => 0x0000003F
  | .expand => 0x0000000F
  | .palette => 0x0000043F
  | .assign => 0x0000180F

/-- The `MODE` value of an Approximation Mode (30_encoding.md R53). -/
def Mode.code : Mode → BitVec 2
  | .ideal => 0
  | .vendor .v1 => 1
  | .vendor .v2 => 2
  | .vendor .v3 => 3

/-- The Approximation Mode of a `MODE` value: "Every value is legal" (30_encoding.md R53). -/
def modeOfCode (c : BitVec 2) : Mode :=
  if c = 0 then .ideal
  else if c = 1 then .vendor .v1
  else if c = 2 then .vendor .v2
  else .vendor .v3

/-- `OP` = w[3:0] (30_encoding.md R51). -/
def fieldOp (w : Word) : BitVec 4 := w.extractLsb' 0 4

/-- `MODE` = w[5:4] (30_encoding.md R51). -/
def fieldMode (w : Word) : Mode := modeOfCode (w.extractLsb' 4 2)

/-- `SET_ALPHA` = w[6]: a flag "is true iff its bit is 1" (30_encoding.md R55). -/
def fieldSetAlpha (w : Word) : Bool := w.getLsbD 6

/-- `ALLOW3` = w[7]. -/
def fieldAllow3 (w : Word) : Bool := w.getLsbD 7

/-- `FORCE_BLACK` = w[8]. -/
def fieldForceBlack (w : Word) : Bool := w.getLsbD 8

/-- `FSEL_EN` = w[9]. -/
def fieldFselEn (w : Word) : Bool := w.getLsbD 9

/-- `COUNT3` = w[10]. -/
def fieldCount3 (w : Word) : Bool := w.getLsbD 10

/-- `NPAL` = w[12:11]. -/
def fieldNpal (w : Word) : BitVec 2 := w.extractLsb' 11 2

/-- `QUALITY` = w[23:16]. -/
def fieldQuality (w : Word) : BitVec 8 := w.extractLsb' 16 8

/-- The command of an operation with the fields of a word (30_encoding.md R54, R55). -/
def assemble (op : Op) (w : Word) : Instr :=
  match op with
  | .init => .init (fieldMode w)
  | .encode => .encode (fieldAllow3 w) (fieldForceBlack w) (fieldFselEn w) (fieldQuality w)
  | .decode => .decode (fieldMode w) (fieldSetAlpha w)
  | .quantize => .quantize (fieldMode w)
  | .expand => .expand
  | .palette => .palette (fieldMode w) (fieldCount3 w)
  | .assign => .assign (fieldNpal w)

/-- Decode a command word. `ILLEGAL_OP` is reported before `RESERVED_FIELD` (60_exceptions.md R171, R174). -/
def decodeCommand (w : Word) : Decoded :=
  match opOfCode (fieldOp w) with
  | none => .reject .illegalOp
  | some op => if w &&& ~~~op.legal = 0 then .accept (assemble op w) else .reject .reservedField

/-- A value placed with its bit 0 at bit `lo` of a word. -/
def place {n : Nat} (v : BitVec n) (lo : Nat) : Word := v.zeroExtend 32 <<< lo

/-- A flag placed at bit `lo`. -/
def placeFlag (b : Bool) (lo : Nat) : Word := place (BitVec.ofBool b) lo

/-- The operation of a command. -/
def Instr.op : Instr → Op
  | .init _ => .init
  | .encode _ _ _ _ => .encode
  | .decode _ _ => .decode
  | .quantize _ => .quantize
  | .expand => .expand
  | .palette _ _ => .palette
  | .assign _ => .assign

/-- The used fields of a command at their bits, `OP` left out (30_encoding.md R51). -/
def Instr.fields : Instr → Word
  | .init m => place m.code 4
  | .encode a f s q => placeFlag a 7 ||| placeFlag f 8 ||| placeFlag s 9 ||| place q 16
  | .decode m sa => place m.code 4 ||| placeFlag sa 6
  | .quantize m => place m.code 4
  | .expand => 0
  | .palette m c3 => place m.code 4 ||| placeFlag c3 10
  | .assign n => place n 11

/-- The command word of a command; every bit outside `OP` and its used fields is 0 (30_encoding.md R54). -/
def encode (i : Instr) : Word := place i.op.code 0 ||| i.fields

/-- The instruction the decoder reads from an opcode-table row's bits: a command is one 32-bit word whose bit 0 is the
table's bit 0, with no other length (30_encoding.md R50, R62); bits from `nbits` on are 0. -/
def decodeTableWord (nbits w : Nat) : Option Instr :=
  match decodeCommand (BitVec.ofNat 32 (w % 2 ^ nbits)) with
  | .accept i => some i
  | .reject _ => none

end Sys2Proof
end

