-- ==== Sys2Proof/Machine/State.lean ====
section
/-! DEFINITION. The state of one instance of the block (10_state.md R10), the host accesses still to come, and the state
after reset (10_state.md R25). -/

namespace Sys2Proof.Machine

/-- What a register of the window holds. `unspecified` is the spec's own reset state: the register "holds no value until
written", and each read or use of it is an independent draw (10_state.md R26; log 1). -/
inductive Reg where
  | unspecified
  | value (w : Word)
  deriving DecidableEq, Repr, Inhabited

/-- `STATUS.CODE`; the codes 6..15 are never written (10_state.md R14, 60_exceptions.md R170). -/
inductive Status where
  | ok
  | illegalOp
  | reservedField
  | badOperand
  | notInitialized
  | modeLocked
  deriving DecidableEq, Repr, Inhabited

/-- One input of the block: a host access of any form (20_memory.md R31, R32, R34) or the platform's reset
(70_reset_and_hazards.md R190). -/
inductive HostEvent where
  /-- `MemRead(off, size)`. -/
  | read (off size : Nat)
  /-- `MemWrite(off, size, v)`. -/
  | write (off size : Nat) (v : Word)
  /-- The platform asserts reset. -/
  | reset
  deriving DecidableEq, Repr

/-- The state the spec gives one instance: configuration, status, operand and result registers (10_state.md R10, R11). -/
structure Block where
  /-- `CONFIG.INIT_DONE` (R15). -/
  initDone : Bool
  /-- `CONFIG.ENC_MODE` (R15). -/
  encMode : Mode
  /-- `STATUS.CODE` (R14). -/
  status : Status
  /-- `SRC0..SRC15`, the source texels (R18, R23). -/
  src : Vector Reg 16
  /-- `FSEL`, the forced selector word (R18). -/
  fsel : Reg
  /-- `BLKI0`, wire bytes 0..3 of an input block (R18). -/
  blki0 : Reg
  /-- `BLKI1`, wire bytes 4..7 of an input block (R18). -/
  blki1 : Reg
  /-- `PALI0..PALI3`, the palette for ASSIGN (R18, R23). -/
  pali : Vector Reg 4
  /-- `DST0..DST15`, the decoded texels (R19, R23). -/
  dst : Vector Reg 16
  /-- `BLKO0`, wire bytes 0..3 of the encoded block (R19). -/
  blko0 : Reg
  /-- `BLKO1`, wire bytes 4..7 of the encoded block (R19). -/
  blko1 : Reg
  /-- `SELO`, the selector word (R19). -/
  selo : Reg
  /-- `ERRO`, the total error (R21). -/
  erro : Reg
  /-- `INFO`, bit 0 = `USES3` (R20). -/
  info : Reg
  /-- `Q565O`, the packed 565 result (R19). -/
  q565o : Reg
  /-- `PALO0..PALO3`, the palette result (R19, R23). -/
  palo : Vector Reg 4
  deriving DecidableEq, Repr

/-- The machine: the block, and the model's own record of its surroundings (logs 2, 3, 4). -/
structure State where
  /-- The spec's state of the instance. -/
  block : Block
  /-- Which unit of the platform this is (60_exceptions.md R185). No register shows it; it keeps the draws of one unit
  apart from those of another (log 2). -/
  unit : Nat
  /-- How many draws have been used: the free-value counter of 10_state.md R26 (log 2). -/
  draws : Nat
  /-- The accesses still to be made, oldest first: "Its program is the sequence of register accesses the host makes"
  (10_state.md R12; log 3). -/
  pending : List HostEvent
  /-- The words reads have returned to the host, newest first (log 4). -/
  replies : List Word
  deriving DecidableEq, Repr

/-- The block never stops with a fault: "There are no traps" (60_exceptions.md R176); a failed check is a status code. -/
inductive Fault where
  deriving DecidableEq, Repr

/-- Why the model takes no step. -/
inductive Refusal where
  /-- Raised by an arm of `exec` that has no meaning yet; safe: the machine stops. No arm raises it. -/
  | notModelled (mnemonic : String)
  /-- Raised by a host access that is not an aligned 32-bit access inside the window: "outside this spec; a model refuses
  it (no step)" (20_memory.md R34); safe. -/
  | undefinedAccess (off size : Nat)
  deriving DecidableEq, Repr

/-- The block after reset (10_state.md R25): not initialized, `STATUS` = `OK`, every operand and result register
unspecified (R26). `encMode` has "no meaning until INIT" and reads 0 (log 10). -/
def Block.reset : Block where
  initDone := false
  encMode := .ideal
  status := .ok
  src := Vector.replicate 16 .unspecified
  fsel := .unspecified
  blki0 := .unspecified
  blki1 := .unspecified
  pali := Vector.replicate 4 .unspecified
  dst := Vector.replicate 16 .unspecified
  blko0 := .unspecified
  blko1 := .unspecified
  selo := .unspecified
  erro := .unspecified
  info := .unspecified
  q565o := .unspecified
  palo := Vector.replicate 4 .unspecified

/-- The machine after reset: it "waits for host accesses" (70_reset_and_hazards.md R190). It is unit 0; `Platform.reset`
gives every further unit its own number (log 2). -/
def State.reset : State where
  block := Block.reset
  unit := 0
  draws := 0
  pending := []
  replies := []

end Sys2Proof.Machine
end

