-- ==== Sys2Proof/Machine/Flags.lean ====
section
/-! DEFINITION. The block's only flags, `STATUS.CODE`, `INFO.USES3` and `CONFIG.INIT_DONE` (10_state.md R22), as the
words a host reads. -/

namespace Sys2Proof.Machine

/-- The number of a status code (10_state.md R14, 60_exceptions.md R170). -/
def Status.code : Status → BitVec 4
  | .ok => 0
  | .illegalOp => 1
  | .reservedField => 2
  | .badOperand => 3
  | .notInitialized => 4
  | .modeLocked => 5

/-- `STATUS`: `CODE` in [3:0], the rest 0 (10_state.md R14). -/
def statusWord (c : Status) : Word := c.code.zeroExtend 32

/-- `CONFIG`: `INIT_DONE` in [0], `ENC_MODE` in [2:1], which reads 0 while `INIT_DONE` = 0 (10_state.md R15). -/
def configWord (b : Block) : Word :=
  if b.initDone then (b.encMode.code ++ (1 : BitVec 1)).zeroExtend 32 else 0

/-- `INFO`: `USES3` in [0], the rest 0 (10_state.md R20). -/
def infoWord (uses3 : Bool) : Word := (BitVec.ofBool uses3).zeroExtend 32

/-- The status a rejected command word ends with (60_exceptions.md R171). -/
def statusOfReject : Reject → Status
  | .illegalOp => .illegalOp
  | .reservedField => .reservedField

/-- The tables: absent before INIT, then the functions of 10_state.md R17 for the mode answered here. -/
def Block.tables (b : Block) : Option Mode := if b.initDone then some b.encMode else none

end Sys2Proof.Machine
end

