-- ==== Sys2Proof/Machine/Operands.lean ====
section
/-! DEFINITION. The data formats of 30_encoding.md section 2 and of the wire form, and what a command uses of an operand
register (10_state.md R18, R26). -/

namespace Sys2Proof.Machine

/-- `texel(w)`: r = w[7:0], g = w[15:8], b = w[23:16], a = w[31:24] (30_encoding.md R56). -/
def texelOfWord (w : Word) : Texel where
  rgb := { r := w.extractLsb' 0 8, g := w.extractLsb' 8 8, b := w.extractLsb' 16 8 }
  a := w.extractLsb' 24 8

/-- `word((r, g, b), a)` = a ++ b ++ g ++ r (40_quantizer.md R86). -/
def wordOfTexel (t : Texel) : Word := t.a ++ t.rgb.b ++ t.rgb.g ++ t.rgb.r

/-- The word of a color with alpha 255. -/
def opaqueWord (c : Rgb) : Word := wordOfTexel { rgb := c, a := 255 }

/-- Red of a packed 565 word, bits [15:11] (30_encoding.md R57). -/
def red5 (w : Half) : BitVec 5 := w.extractLsb' 11 5

/-- Green of a packed 565 word, bits [10:5] (30_encoding.md R57). -/
def green6 (w : Half) : BitVec 6 := w.extractLsb' 5 6

/-- Blue of a packed 565 word, bits [4:0] (30_encoding.md R57). -/
def blue5 (w : Half) : BitVec 5 := w.extractLsb' 0 5

/-- `pack565(r5, g6, b5)` = r5 ++ g6 ++ b5 (30_encoding.md R57). -/
def pack565 (r5 : BitVec 5) (g6 : BitVec 6) (b5 : BitVec 5) : Half := r5 ++ g6 ++ b5

/-- `sel(w, i)` = w[2i+1:2i] (30_encoding.md R58). -/
def sel (w : Word) (i : Fin 16) : Selector := w.extractLsb' (2 * i.val) 2

/-- `sum_i s_i << 2i` over the first `n` texels (30_encoding.md R58, 43_encoder.md R134). -/
def selectorSum (s : Nat → Nat) : Nat → Nat
  | 0 => 0
  | n + 1 => selectorSum s n + s n * 4 ^ n

/-- The selector word of 16 selectors (30_encoding.md R58). -/
def packSelectors (s : Fin 16 → Selector) : Word :=
  BitVec.ofNat 32 (selectorSum (fun i => (s (Fin.ofNat 16 i)).toNat) 16)

/-- `c0` = BLK0[15:0] (20_memory.md R37). -/
def c0Of (blk0 : Word) : Half := blk0.extractLsb' 0 16

/-- `c1` = BLK0[31:16] (20_memory.md R37). -/
def c1Of (blk0 : Word) : Half := blk0.extractLsb' 16 16

/-- The first wire word of a block: `zext(c1) << 16 | zext(c0)` (43_encoder.md R134). -/
def endpointWord (c0 c1 : Half) : Word := c1.zeroExtend 32 <<< 16 ||| c0.zeroExtend 32

/-- Byte k of a register, bits [8k+7:8k] (20_memory.md R37). -/
def byteOf (w : Word) (k : Nat) : Byte := w.extractLsb' (8 * k) 8

/-- The 8 wire bytes of a block held in two registers (20_memory.md R37, 30_encoding.md R59). -/
def wireBytes (blk0 blk1 : Word) : Vector Byte 8 :=
  Vector.ofFn fun k => if k.val < 4 then byteOf blk0 k.val else byteOf blk1 (k.val - 4)

/-- The block of 8 wire bytes as two registers: the inverse of `wireBytes`, with `c0` = B[1] ++ B[0] and
`c1` = B[3] ++ B[2] (20_memory.md R36, R37). -/
def registersOfWire (bytes : Vector Byte 8) : Word × Word :=
  (bytes[3] ++ bytes[2] ++ bytes[1] ++ bytes[0], bytes[7] ++ bytes[6] ++ bytes[5] ++ bytes[4])

/-- A register's value when it is used: what was written, or the given draw (10_state.md R26). -/
def Reg.use (r : Reg) (draw : Word) : Word :=
  match r with
  | .unspecified => draw
  | .value w => w

/-- The unit's k-th draw from here on: "an independent draw" for each k and for each unit (10_state.md R26, 60_exceptions.md
R185; log 2). -/
def State.draw (s : State) (k : Nat) : Word := Config.draw s.unit (s.draws + k)

/-- How many draws a command may take: one for each operand register, so that no two uses share one (10_state.md R26). -/
def operandCount : Nat := 23

/-- `SRC`i as a command uses it: draw number 0..15 of the command if it is unspecified. -/
def State.srcWord (s : State) (i : Fin 16) : Word := s.block.src[i].use (s.draw i.val)

/-- `FSEL` as a command uses it. -/
def State.fselWord (s : State) : Word := s.block.fsel.use (s.draw 16)

/-- `BLKI0` as a command uses it. -/
def State.blki0Word (s : State) : Word := s.block.blki0.use (s.draw 17)

/-- `BLKI1` as a command uses it. -/
def State.blki1Word (s : State) : Word := s.block.blki1.use (s.draw 18)

/-- `PALI`j as a command uses it. -/
def State.paliWord (s : State) (j : Fin 4) : Word := s.block.pali[j].use (s.draw (19 + j.val))

/-- The 16 source texels `X[i]` = texel(reg[SRCi]) (42_selector.md R105, 43_encoder.md R120). -/
def State.sourceTexels (s : State) : Vector Texel 16 := Vector.ofFn fun i => texelOfWord (s.srcWord i)

end Sys2Proof.Machine
end

