-- ==== Sys2Proof/Machine/Ops.lean ====
section
/-! DEFINITION. The named operations: how a command ends (with OK or with an error status), the writes of result registers,
and the host's accesses of the register window (20_memory.md). -/

namespace Sys2Proof.Machine

/-- `raise <Status>`, and the end of INIT: "ends a command with the status code ... and no other state change" (00_scope.md R8,
60_exceptions.md R175). This is all of the block's exception entry: no control transfer, no saved state (R176). -/
def State.endWith (s : State) (c : Status) : State :=
  { s with block := { s.block with status := c } }

/-- A command ends with OK: the block has the command's results, `STATUS` is `OK`, and the draws its operands may have
taken are used up (44_facade.md R150, 10_state.md R19). -/
def State.complete (s : State) (b : Block) : State :=
  { s with block := { b with status := .ok }, draws := s.draws + operandCount }

/-- INIT fixes the mode and the tables (44_facade.md R155). -/
def Block.putConfig (b : Block) (m : Mode) : Block := { b with initDone := true, encMode := m }

/-- DECODE's results: `DST0..DST15` and `INFO` (41_decoder.md R95). -/
def Block.putDecoded (b : Block) (texel : Fin 16 → Word) (uses3 : Bool) : Block :=
  { b with dst := Vector.ofFn fun i => .value (texel i), info := .value (infoWord uses3) }

/-- QUANTIZE's result: `Q565O`, zero-extended (40_quantizer.md R85). -/
def Block.putQ565 (b : Block) (w : Half) : Block := { b with q565o := .value (w.zeroExtend 32) }

/-- `PALO`j. -/
def Block.putPalo (b : Block) (j : Fin 4) (w : Word) : Block := { b with palo := b.palo.set j (.value w) }

/-- ASSIGN's results: `SELO` and `ERRO` (42_selector.md R105). -/
def Block.putSelection (b : Block) (selectors : Word) (err : Nat) : Block :=
  { b with selo := .value selectors, erro := .value (BitVec.ofNat 32 err) }

/-- ENCODE's endpoint, selector and mode results; `SELO` and `ERRO` are `putSelection`'s (43_encoder.md R134). -/
def Block.putBlock (b : Block) (c0 c1 : Half) (selectors : Word) (uses3 : Bool) : Block :=
  { b with
    blko0 := .value (endpointWord c0 c1)
    blko1 := .value selectors
    info := .value (infoWord uses3) }

/-- A slot of the register window (10_state.md R11, 20_memory.md R30). -/
inductive Slot where
  | cmd
  | status
  | config
  | src (i : Fin 16)
  | fsel
  | blki0
  | blki1
  | pali (j : Fin 4)
  | dst (i : Fin 16)
  | blko0
  | blko1
  | selo
  | erro
  | info
  | q565o
  | palo (j : Fin 4)
  | reserved
  deriving DecidableEq, Repr

/-- The slot of a byte offset (10_state.md R11, 20_memory.md R30). -/
def slotOf (off : Nat) : Slot :=
  if off = 0x000 then .cmd
  else if off = 0x004 then .status
  else if off = 0x008 then .config
  else if 0x010 ≤ off ∧ off < 0x050 then .src (Fin.ofNat 16 ((off - 0x010) / 4))
  else if off = 0x050 then .fsel
  else if off = 0x054 then .blki0
  else if off = 0x058 then .blki1
  else if 0x060 ≤ off ∧ off < 0x070 then .pali (Fin.ofNat 4 ((off - 0x060) / 4))
  else if 0x080 ≤ off ∧ off < 0x0C0 then .dst (Fin.ofNat 16 ((off - 0x080) / 4))
  else if off = 0x0C0 then .blko0
  else if off = 0x0C4 then .blko1
  else if off = 0x0C8 then .selo
  else if off = 0x0CC then .erro
  else if off = 0x0D0 then .info
  else if off = 0x0D4 then .q565o
  else if 0x0E0 ≤ off ∧ off < 0x0F0 then .palo (Fin.ofNat 4 ((off - 0x0E0) / 4))
  else .reserved

/-- An access the spec defines: 4 bytes, aligned, inside the window (20_memory.md R34). -/
def definedAccess (off size : Nat) : Bool := size == 4 && off % 4 == 0 && off < 0x100

/-- `MemRead` of a slot: 0 for `CMD` and reserved slots, otherwise the register's value, or the given draw if it is
unspecified (20_memory.md R31, R33). A register that nothing has written reads as the draw in all 32 bits, `INFO`, `ERRO` and
`Q565O` too: R26 and 93_implementation_defined.md I7 say so, where I16 gives their unused high bits as stuck at 0 (DESIGN
CHOICE, log 20). Once written those bits are 0. -/
def Block.readSlot (b : Block) (draw : Word) : Slot → Word
  | .cmd => 0
  | .status => statusWord b.status
  | .config => configWord b
  | .src i => b.src[i].use draw
  | .fsel => b.fsel.use draw
  | .blki0 => b.blki0.use draw
  | .blki1 => b.blki1.use draw
  | .pali j => b.pali[j].use draw
  | .dst i => b.dst[i].use draw
  | .blko0 => b.blko0.use draw
  | .blko1 => b.blko1.use draw
  | .selo => b.selo.use draw
  | .erro => b.erro.use draw
  | .info => b.info.use draw
  | .q565o => b.q565o.use draw
  | .palo j => b.palo[j].use draw
  | .reserved => 0

/-- `MemWrite` of a slot other than `CMD`: an `RW` register is set; an `R` register and a reserved slot change nothing
(20_memory.md R32, R33). -/
def Block.writeSlot (b : Block) (v : Word) : Slot → Block
  | .src i => { b with src := b.src.set i (.value v) }
  | .fsel => { b with fsel := .value v }
  | .blki0 => { b with blki0 := .value v }
  | .blki1 => { b with blki1 := .value v }
  | .pali j => { b with pali := b.pali.set j (.value v) }
  | .cmd => b
  | .status => b
  | .config => b
  | .dst _ => b
  | .blko0 => b
  | .blko1 => b
  | .selo => b
  | .erro => b
  | .info => b
  | .q565o => b
  | .palo _ => b
  | .reserved => b

/-- `MemRead(off, 4)`: the value goes to the host and the block does not change (20_memory.md R31, R35). -/
def State.memRead (s : State) (off : Nat) : State :=
  { s with replies := s.block.readSlot (s.draw 0) (slotOf off) :: s.replies, draws := s.draws + 1 }

/-- `MemWrite(off, 4, v)` at an offset other than `CMD`'s (20_memory.md R32). -/
def State.memWrite (s : State) (off : Nat) (v : Word) : State :=
  { s with block := s.block.writeSlot v (slotOf off) }

/-- Reset puts the block in the state of 10_state.md R25 (70_reset_and_hazards.md R190). The host's later accesses and the
draw counter go on and the unit is the same one, so that draws stay independent of those before the reset (log 5). -/
def State.platformReset (s : State) : State := { s with block := Block.reset }

/-- What an access asks of the step. -/
inductive Request where
  /-- A write of `CMD`: run the command in the word (44_facade.md R150). -/
  | command (w : Word) (s : State)
  /-- The access is done and this is the state after it. -/
  | done (s : State)
  /-- The access is outside the spec (20_memory.md R34). -/
  | refuse (r : Refusal)

/-- The effect of one host access or of reset (20_memory.md R31, R32, R34; 70_reset_and_hazards.md R190). -/
def State.request (s : State) : HostEvent → Request
  | .read off size =>
    if definedAccess off size then .done (s.memRead off) else .refuse (.undefinedAccess off size)
  | .write off size v =>
    if definedAccess off size then
      if off = 0x000 then .command v s else .done (s.memWrite off v)
    else .refuse (.undefinedAccess off size)
  | .reset => .done s.platformReset

end Sys2Proof.Machine
end

