-- ==== Sys2Proof/Machine/Quantizer.lean ====
section
/-! DEFINITION. The color quantizer, expander and interpolator (40_quantizer.md) and the commands QUANTIZE, EXPAND and
PALETTE. -/

namespace Sys2Proof.Machine

/-- `argmin_{j in 0..n} f(j)`: the least j attaining the minimum (00_scope.md R8). -/
def leastArgmin (f : Nat → Nat) : Nat → Nat
  | 0 => 0
  | n + 1 =>
    let best := leastArgmin f n
    if f (n + 1) < f best then n + 1 else best

/-- `|a - b|` of two channel values. -/
def absDiff (a b : Byte) : Nat := (a.toNat - b.toNat) + (b.toNat - a.toNat)

/-- `E5(v) = (v << 3) | (v >> 2)` (40_quantizer.md R70). -/
def expand5 (v : BitVec 5) : Byte := v.zeroExtend 8 <<< 3 ||| v.zeroExtend 8 >>> 2

/-- `E6(v) = (v << 2) | (v >> 4)` (40_quantizer.md R71). -/
def expand6 (v : BitVec 6) : Byte := v.zeroExtend 8 <<< 2 ||| v.zeroExtend 8 >>> 4

/-- `Expand(w)` (40_quantizer.md R72). -/
def expand565 (w : Half) : Rgb := { r := expand5 (red5 w), g := expand6 (green6 w), b := expand5 (blue5 w) }

/-- `Q5(x)`: the code whose expansion is nearest, the least on a tie (40_quantizer.md R74). -/
def quant5 (x : Byte) : BitVec 5 :=
  BitVec.ofNat 5 (leastArgmin (fun q => absDiff (expand5 (BitVec.ofNat 5 q)) x) 31)

/-- `Q6(x)`: the code whose expansion is nearest, the least on a tie (40_quantizer.md R74). -/
def quant6 (x : Byte) : BitVec 6 :=
  BitVec.ofNat 6 (leastArgmin (fun q => absDiff (expand6 (BitVec.ofNat 6 q)) x) 63)

/-- `Quant(m, (r, g, b))`: nearest per channel for IDEAL, the open `QUANT_V[m]` for a vendor (40_quantizer.md R75). -/
def quantize (m : Mode) (c : Rgb) : Half :=
  match m with
  | .ideal => pack565 (quant5 c.r) (quant6 c.g) (quant5 c.b)
  | .vendor v => Config.quantV v c

/-- `(2*a + b) // 3` on one channel (40_quantizer.md R77). -/
def twoThirds (a b : Byte) : Byte := BitVec.ofNat 8 ((2 * a.toNat + b.toNat) / 3)

/-- `(a + b) // 2` on one channel (40_quantizer.md R78). -/
def midpoint (a b : Byte) : Byte := BitVec.ofNat 8 ((a.toNat + b.toNat) / 2)

/-- A channel function applied to each channel of two colors. -/
def rgbZip (f : Byte → Byte → Byte) (a b : Rgb) : Rgb := { r := f a.r b.r, g := f a.g b.g, b := f a.b b.b }

/-- Entries 2 and 3 of the 4-color palette (40_quantizer.md R77, R79). -/
def interp4 (m : Mode) (c0 c1 : Half) : Rgb × Rgb :=
  match m with
  | .ideal => (rgbZip twoThirds (expand565 c0) (expand565 c1), rgbZip twoThirds (expand565 c1) (expand565 c0))
  | .vendor v => Config.interp4V v c0 c1

/-- Entry 2 of the 3-color palette (40_quantizer.md R78, R79). -/
def interp3 (m : Mode) (c0 c1 : Half) : Rgb :=
  match m with
  | .ideal => rgbZip midpoint (expand565 c0) (expand565 c1)
  | .vendor v => Config.interp3V v c0 c1

/-- `Pal4(m, c0, c1)`, defined for every pair (40_quantizer.md R77). -/
def pal4 (m : Mode) (c0 c1 : Half) : List Rgb :=
  [expand565 c0, expand565 c1, (interp4 m c0 c1).1, (interp4 m c0 c1).2]

/-- `Pal3(m, c0, c1)` (40_quantizer.md R78). -/
def pal3 (m : Mode) (c0 c1 : Half) : List Rgb := [expand565 c0, expand565 c1, interp3 m c0 c1]

/-- `P[j]`; every rule indexes a palette inside its length. -/
def entry (p : List Rgb) (j : Nat) : Rgb := p.getD j default

/-- QUANTIZE (40_quantizer.md R85). -/
def execQuantize (m : Mode) (s : State) : Host.Outcome State Fault Refusal :=
  .next (s.complete (s.block.putQ565 (quantize m (texelOfWord (s.srcWord 0)).rgb)))

/-- EXPAND (40_quantizer.md R86): `PALO0`, `PALO1`; `PALO2` and `PALO3` keep their values. -/
def execExpand (s : State) : Host.Outcome State Fault Refusal :=
  .next (s.complete
    ((s.block.putPalo 0 (opaqueWord (expand565 (c0Of s.blki0Word)))).putPalo 1
      (opaqueWord (expand565 (c1Of s.blki0Word)))))

/-- The four words PALETTE writes: with `COUNT3`, entry 3 is transparent black (40_quantizer.md R87). -/
def paletteWords (m : Mode) (count3 : Bool) (c0 c1 : Half) (j : Fin 4) : Word :=
  if count3 then
    if j.val < 3 then opaqueWord (entry (pal3 m c0 c1) j.val) else 0
  else opaqueWord (entry (pal4 m c0 c1) j.val)

/-- PALETTE (40_quantizer.md R87): `COUNT3` is taken as given, whatever the order of c0 and c1. -/
def execPalette (m : Mode) (count3 : Bool) (s : State) : Host.Outcome State Fault Refusal :=
  let w := paletteWords m count3 (c0Of s.blki0Word) (c1Of s.blki0Word)
  .next (s.complete
    ((((s.block.putPalo 0 (w 0)).putPalo 1 (w 1)).putPalo 2 (w 2)).putPalo 3 (w 3)))

end Sys2Proof.Machine
end

