-- ==== Sys2Proof/Machine/Decoder.lean ====
section
/-! DEFINITION. The block decoder (41_decoder.md) and the command DECODE. -/

namespace Sys2Proof.Machine

/-- A block is in 3-color mode iff `c0 <= c1` as unsigned 16-bit integers (41_decoder.md R90, 30_encoding.md R60). -/
def isThreeColor (c0 c1 : Half) : Bool := decide (c0 ≤ c1)

/-- Texel reconstruction in 4-color mode: alpha 255 always (41_decoder.md R92). -/
def texel4 (p : List Rgb) (s : Selector) : Texel := { rgb := entry p s.toNat, a := 255 }

/-- Texel reconstruction in 3-color mode; selector 3 is transparent black with `set_alpha` and the midpoint, entry 2,
without it (41_decoder.md R93). -/
def texel3 (p : List Rgb) (setAlpha : Bool) (s : Selector) : Texel :=
  if s.toNat < 3 then { rgb := entry p s.toNat, a := 255 }
  else if setAlpha then { rgb := { r := 0, g := 0, b := 0 }, a := 0 }
  else { rgb := entry p 2, a := 255 }

/-- Texel i of `Decode(m, B0, B1, set_alpha)` for a block with words c0, c1 and selector word `sels` (41_decoder.md R94). -/
def decodeTexel (m : Mode) (c0 c1 : Half) (sels : Word) (setAlpha : Bool) (i : Fin 16) : Texel :=
  if isThreeColor c0 c1 then texel3 (pal3 m c0 c1) setAlpha (sel sels i)
  else texel4 (pal4 m c0 c1) (sel sels i)

/-- DECODE (41_decoder.md R95): reads no table and ignores `CONFIG`. -/
def execDecode (m : Mode) (setAlpha : Bool) (s : State) : Host.Outcome State Fault Refusal :=
  let c0 := c0Of s.blki0Word
  let c1 := c1Of s.blki0Word
  .next (s.complete
    (s.block.putDecoded (fun i => wordOfTexel (decodeTexel m c0 c1 s.blki1Word setAlpha i)) (isThreeColor c0 c1)))

end Sys2Proof.Machine
end

