-- ==== Sys2Proof/Machine/Selector.lean ====
section
/-! DEFINITION. The selector optimizer (42_selector.md) and the command ASSIGN. -/

namespace Sys2Proof.Machine

/-- The texel indices 0..15 in ascending order. -/
def texelIndices : List (Fin 16) := [0, 1, 2, 3, 4, 5, 6, 7, 8, 9, 10, 11, 12, 13, 14, 15]

/-- `err(x, p)`: squared RGB distance; alpha takes no part (42_selector.md R100). -/
def colorErr (x p : Rgb) : Nat := absDiff x.r p.r ^ 2 + absDiff x.g p.g ^ 2 + absDiff x.b p.b ^ 2

/-- `argmin_{j in J} err(x, P[j])` for J all of P's indices, the least on an exact tie (42_selector.md R101). -/
def nearest (p : List Rgb) (x : Rgb) : Selector :=
  BitVec.ofNat 2 (leastArgmin (fun j => colorErr x (entry p j)) (p.length - 1))

/-- The total error of the selectors `s` over the texels of I (42_selector.md R102). -/
def totalErr (x : Vector Texel 16) (p : List Rgb) (s : Fin 16 → Selector) (considered : List (Fin 16)) : Nat :=
  (considered.map fun i => colorErr x[i].rgb (entry p (s i).toNat)).sum

/-- ASSIGN's palette: `PALI0..PALI(N-1)` with N = `NPAL` + 1; no further register is read (42_selector.md R105). -/
def State.paletteOperand (s : State) (npal : BitVec 2) : List Rgb :=
  ([0, 1, 2, 3].take (npal.toNat + 1)).map fun j => (texelOfWord (s.paliWord j)).rgb

/-- ASSIGN (42_selector.md R105); `BAD_OPERAND` if `NPAL` = 0 (60_exceptions.md R171). -/
def execAssign (npal : BitVec 2) (s : State) : Host.Outcome State Fault Refusal :=
  if npal = 0 then .next (s.endWith .badOperand)
  else
    let x := s.sourceTexels
    let p := s.paletteOperand npal
    let sels := fun i : Fin 16 => nearest p x[i].rgb
    .next (s.complete (s.block.putSelection (packSelectors sels) (totalErr x p sels texelIndices)))

end Sys2Proof.Machine
end

