-- ==== Sys2Proof/Machine/Search.lean ====
section
/-! DEFINITION. The reference search, `ENCODER_POLICY` = `REFERENCE` (43_encoder.md R120-R134), in exact integers. -/

namespace Sys2Proof.Machine

/-- Three integers, one for each of the channels r, g, b. -/
structure Vec3 where
  x : Int
  y : Int
  z : Int
  deriving DecidableEq, Repr

/-- The covariance matrix of rule R123, by columns; it is symmetric. -/
structure Mat3 where
  col0 : Vec3
  col1 : Vec3
  col2 : Vec3
  deriving DecidableEq, Repr

/-- What the encoder emits: the pair in wire order, the selector word, the total error and the block's mode. -/
structure Encoded where
  c0 : Half
  c1 : Half
  sels : Word
  err : Nat
  three : Bool
  deriving DecidableEq, Repr

/-- One evaluated candidate: (E, kind, k, c0, c1, s), kind 0 for 4-color and 1 for 3-color (43_encoder.md R131, R132). -/
structure Record where
  err : Nat
  kind : Nat
  index : Nat
  c0 : Half
  c1 : Half
  sels : Word
  deriving DecidableEq, Repr

/-- `ALPHA_T`: a texel is transparent iff its alpha is below this (00_scope.md R7). -/
def alphaT : Byte := 128

/-- `RMAX`, the cap of the perturbation radius (00_scope.md R7). -/
def rMax : Nat := 8

/-- `STEP` (00_scope.md R7). -/
def perturbStep : Int := 8

/-- `ITER` (00_scope.md R7). -/
def powerIterations : Nat := 4

/-- Whether texel i is in the transparent set T (43_encoder.md R120). -/
def isTransparent (inp : EncodeInput) (i : Fin 16) : Bool :=
  inp.fsel.isNone && inp.forceBlack && inp.texels[i].a < alphaT

/-- The transparent set `T`, ascending (43_encoder.md R120). -/
def transparentSet (inp : EncodeInput) : List (Fin 16) := texelIndices.filter fun i => isTransparent inp i

/-- The fit set `O`, ascending (43_encoder.md R120). -/
def fitSet (inp : EncodeInput) : List (Fin 16) := texelIndices.filter fun i => !isTransparent inp i

/-- `K4`: 4-color evaluations are made (43_encoder.md R122). -/
def tries4 (inp : EncodeInput) : Bool := (transparentSet inp).isEmpty

/-- `K3`: 3-color evaluations are made; also the permission of rule R112 (43_encoder.md R112, R122). -/
def tries3 (inp : EncodeInput) : Bool := inp.fsel.isNone && (inp.allow3 || !(transparentSet inp).isEmpty)

/-- A color as integers. -/
def rgbVec (c : Rgb) : Vec3 := { x := c.r.toNat, y := c.g.toNat, z := c.b.toNat }

/-- The zero vector. -/
def Vec3.zero : Vec3 := { x := 0, y := 0, z := 0 }

/-- The inner product. -/
def Vec3.dot (a b : Vec3) : Int := a.x * b.x + a.y * b.y + a.z * b.z

/-- The vector times an integer. -/
def Vec3.scale (k : Int) (a : Vec3) : Vec3 := { x := k * a.x, y := k * a.y, z := k * a.z }

/-- The difference of two vectors. -/
def Vec3.minus (a b : Vec3) : Vec3 := { x := a.x - b.x, y := a.y - b.y, z := a.z - b.z }

/-- The sum of two vectors. -/
def Vec3.plus (a b : Vec3) : Vec3 := { x := a.x + b.x, y := a.y + b.y, z := a.z + b.z }

/-- `max_c |v_c|`. -/
def Vec3.maxAbs (a : Vec3) : Nat := max (max a.x.natAbs a.y.natAbs) a.z.natAbs

/-- `S_c`, the channel sums over O (43_encoder.md R123). -/
def channelSums (x : Vector Texel 16) : List (Fin 16) → Vec3
  | [] => Vec3.zero
  | i :: is => (rgbVec x[i].rgb).plus (channelSums x is)

/-- `d_i = n * X[i] - S` (43_encoder.md R123). -/
def deviation (x : Vector Texel 16) (o : List (Fin 16)) (i : Fin 16) : Vec3 :=
  ((rgbVec x[i].rgb).scale o.length).minus (channelSums x o)

/-- The columns of `C` summed over some deviations: `C_c,k = sum_i d_i,c * d_i,k` (43_encoder.md R123). -/
def covarianceOf : List Vec3 → Mat3
  | [] => { col0 := Vec3.zero, col1 := Vec3.zero, col2 := Vec3.zero }
  | d :: ds =>
    let c := covarianceOf ds
    { col0 := (d.scale d.x).plus c.col0, col1 := (d.scale d.y).plus c.col1, col2 := (d.scale d.z).plus c.col2 }

/-- `C` over the fit set (43_encoder.md R123). -/
def covariance (x : Vector Texel 16) (o : List (Fin 16)) : Mat3 := covarianceOf (o.map (deviation x o))

/-- The least k with `(M >> k) < 1024` (43_encoder.md R124, `VLIM` = 1024 = 2^10), from the position of M's top bit. -/
def normShift (m : Nat) : Nat := Nat.log2 m - 9

/-- `sgn(a) * (|a| >> k)` (43_encoder.md R124). -/
def shiftToward0 (k : Nat) (a : Int) : Int := a.sign * ((a.natAbs >>> k : Nat) : Int)

/-- `norm(w)` (43_encoder.md R124). -/
def Vec3.norm (w : Vec3) : Vec3 :=
  let k := normShift w.maxAbs
  { x := shiftToward0 k w.x, y := shiftToward0 k w.y, z := shiftToward0 k w.z }

/-- `C v`; C is symmetric, so its columns are its rows (43_encoder.md R125). -/
def Mat3.apply (c : Mat3) (v : Vec3) : Vec3 := { x := c.col0.dot v, y := c.col1.dot v, z := c.col2.dot v }

/-- `n` rounds of power iteration (43_encoder.md R125). -/
def powerIterate (c : Mat3) : Nat → Vec3 → Vec3
  | 0, v => v
  | n + 1, v =>
    let w := c.apply v
    powerIterate c n (if w = Vec3.zero then v else w.norm)

/-- Column j of C for the least j with the largest diagonal entry (43_encoder.md R125). -/
def Mat3.dominantColumn (c : Mat3) : Vec3 :=
  if c.col1.y ≤ c.col0.x ∧ c.col2.z ≤ c.col0.x then c.col0
  else if c.col2.z ≤ c.col1.y then c.col1
  else c.col2

/-- The dominant axis `v` (43_encoder.md R125). -/
def Mat3.axis (c : Mat3) : Vec3 :=
  if max (max c.col0.x c.col1.y) c.col2.z = 0 then Vec3.zero
  else powerIterate c powerIterations c.dominantColumn.norm

/-- The first index of a list after `best`, or `best`, at which f is least. -/
def firstMin (f : Fin 16 → Int) (best : Fin 16) : List (Fin 16) → Fin 16
  | [] => best
  | i :: is => firstMin f (if f i < f best then i else best) is

/-- The extreme texels `(lo, hi)` along the axis, each the least index (43_encoder.md R126). -/
def extremes (x : Vector Texel 16) (o : List (Fin 16)) (v : Vec3) : Fin 16 × Fin 16 :=
  let first := o.headD 0
  if v = Vec3.zero then (first, first)
  else
    let p := fun i => (deviation x o i).dot v
    (firstMin p first o, firstMin (fun i => -p i) first o)

/-- The perturbation step `u` along the axis (43_encoder.md R127). -/
def perturbation (v : Vec3) : Vec3 :=
  if v = Vec3.zero then Vec3.zero
  else
    { x := (perturbStep * v.x).tdiv v.maxAbs
      y := (perturbStep * v.y).tdiv v.maxAbs
      z := (perturbStep * v.z).tdiv v.maxAbs }

/-- The integers -r..r, ascending. -/
def symmetricRange (r : Nat) : List Int := (List.range (2 * r + 1)).map fun n => (n : Int) - r

/-- The pairs (a, b) with max(|a|, |b|) = r, in the search order (43_encoder.md R129). -/
def ring (r : Nat) : List (Int × Int) :=
  (symmetricRange r).flatMap fun a =>
    ((symmetricRange r).filter fun b => max a.natAbs b.natAbs == r).map fun b => (a, b)

/-- The pairs visited for breadth R, in the search order (43_encoder.md R129). -/
def visits (breadth : Nat) : List (Int × Int) := (List.range (breadth + 1)).flatMap ring

/-- `R <- min(QUALITY, 8)` (43_encoder.md R128). -/
def breadth (quality : BitVec 8) : Nat := min quality.toNat rMax

/-- `clamp(x, 0, 255)` as a channel (00_scope.md R8). -/
def clampByte (x : Int) : Byte := BitVec.ofNat 8 (min (max x 0) 255).toNat

/-- An endpoint color nudged by k steps along the axis (43_encoder.md R129). -/
def nudge (c : Rgb) (k : Int) (u : Vec3) : Rgb :=
  { r := clampByte (c.r.toNat + k * u.x)
    g := clampByte (c.g.toNat + k * u.y)
    b := clampByte (c.b.toNat + k * u.z) }

/-- `order4(wa, wb)` (43_encoder.md R130). -/
def order4 (wa wb : Half) : Half × Half :=
  if wb < wa then (wa, wb)
  else if wa < wb then (wb, wa)
  else if wa = 0 then (1, 0)
  else (wa, wa - 1)

/-- A pair with c0 ≤ c1 (43_encoder.md R132). -/
def order3 (wa wb : Half) : Half × Half := if wa ≤ wb then (wa, wb) else (wb, wa)

/-- The selector of texel i for a palette: `FSEL`'s if forced, 3 for a transparent texel, otherwise the nearest entry
(43_encoder.md R113, R114, R115, R131, R132). -/
def chosenSelector (inp : EncodeInput) (p : List Rgb) (i : Fin 16) : Selector :=
  match inp.fsel with
  | some w => sel w i
  | none => if isTransparent inp i then 3 else nearest p inp.texels[i].rgb

/-- `E`: the total error of the chosen selectors over the fit set (43_encoder.md R117, R131, R132). -/
def chosenErr (inp : EncodeInput) (p : List Rgb) : Nat := totalErr inp.texels p (chosenSelector inp p) (fitSet inp)

/-- The record of an evaluation of one ordered pair against its palette. -/
def evaluate (inp : EncodeInput) (kind index : Nat) (pair : Half × Half) (p : List Rgb) : Record where
  err := chosenErr inp p
  kind := kind
  index := index
  c0 := pair.1
  c1 := pair.2
  sels := packSelectors (chosenSelector inp p)

/-- The 4-color evaluation of candidate k (43_encoder.md R131). -/
def evaluate4 (inp : EncodeInput) (index : Nat) (wa wb : Half) : Record :=
  evaluate inp 0 index (order4 wa wb) (pal4 inp.mode (order4 wa wb).1 (order4 wa wb).2)

/-- The 3-color evaluation of candidate k (43_encoder.md R132). -/
def evaluate3 (inp : EncodeInput) (index : Nat) (wa wb : Half) : Record :=
  evaluate inp 1 index (order3 wa wb) (pal3 inp.mode (order3 wa wb).1 (order3 wa wb).2)

/-- The records of candidate k: 4-color iff K4, then 3-color iff K3 (43_encoder.md R122, R131, R132). -/
def recordsOf (inp : EncodeInput) (index : Nat) (wa wb : Half) : List Record :=
  (if tries4 inp then [evaluate4 inp index wa wb] else []) ++ (if tries3 inp then [evaluate3 inp index wa wb] else [])

/-- The quantized endpoints of the candidates, in the search order (43_encoder.md R126-R129). -/
def candidateWords (inp : EncodeInput) : List (Half × Half) :=
  let v := (covariance inp.texels (fitSet inp)).axis
  let u := perturbation v
  let ends := extremes inp.texels (fitSet inp) v
  (visits (breadth inp.quality)).map fun ab =>
    (quantize inp.mode (nudge inp.texels[ends.1].rgb ab.1 u), quantize inp.mode (nudge inp.texels[ends.2].rgb ab.2 u))

/-- Every record of the search (43_encoder.md R131, R132). -/
def records (inp : EncodeInput) : List Record :=
  (candidateWords inp).zipIdx.flatMap fun c => recordsOf inp c.2 c.1.1 c.1.2

/-- The key (E, kind, k) of a is lexicographically below that of b (43_encoder.md R133). -/
def Record.before (a b : Record) : Bool :=
  a.err < b.err || (a.err == b.err && (a.kind < b.kind || (a.kind == b.kind && a.index < b.index)))

/-- The record with the least key among `best` and the list (43_encoder.md R133). -/
def leastRecord (best : Record) : List Record → Record
  | [] => best
  | r :: rs => leastRecord (if r.before best then r else best) rs

/-- The emitted block of a record (43_encoder.md R134). -/
def Record.emitted (r : Record) : Encoded where
  c0 := r.c0
  c1 := r.c1
  sels := r.sels
  err := r.err
  three := r.kind == 1

/-- The block for an empty fit set (43_encoder.md R121). -/
def allTransparentBlock : Encoded where
  c0 := 0
  c1 := 0
  sels := 0xFFFFFFFF
  err := 0
  three := true

/-- The reference search (43_encoder.md R120-R134). The list of records is never empty for a non-empty fit set (R122), so
the last case is not reached. -/
def referenceEncode (inp : EncodeInput) : Encoded :=
  if (fitSet inp).isEmpty then allTransparentBlock
  else
    match records inp with
    | r :: rs => (leastRecord r rs).emitted
    | [] => allTransparentBlock

end Sys2Proof.Machine
end

