-- ==== Sys2Proof/Machine/Conforming.lean ====
section
/-! DEFINITION. What every encoder output satisfies (43_encoder.md R110-R118), and the encoder of
`ENCODER_POLICY` = `ANY_CONFORMING`: a draw from every block that satisfies it (R140; log 8). -/

namespace Sys2Proof.Machine

/-- The palette of an emitted block: `Pal4` if c0 > c1, `Pal3` otherwise (43_encoder.md section 1). -/
def emittedPalette (m : Mode) (c0 c1 : Half) : List Rgb := if isThreeColor c0 c1 then pal3 m c0 c1 else pal4 m c0 c1

/-- Mode: a 3-color block only where 3-color is permitted (43_encoder.md R112). -/
def modePermitted (inp : EncodeInput) (o : Encoded) : Bool := !isThreeColor o.c0 o.c1 || tries3 inp

/-- Selectors when not forced: each texel of O takes the selector optimizer's choice (43_encoder.md R113). -/
def selectorsNearest (inp : EncodeInput) (o : Encoded) : Bool :=
  inp.fsel.isSome ||
    (fitSet inp).all fun i => sel o.sels i == nearest (emittedPalette inp.mode o.c0 o.c1) inp.texels[i].rgb

/-- Forced selectors: exactly `FSEL`, in a 4-color block (43_encoder.md R114). -/
def selectorsForced (inp : EncodeInput) (o : Encoded) : Bool :=
  match inp.fsel with
  | some w => o.sels == w && !isThreeColor o.c0 o.c1
  | none => true

/-- Transparency forcing: selector 3 in a 3-color block (43_encoder.md R115). -/
def transparencyForced (inp : EncodeInput) (o : Encoded) : Bool :=
  (transparentSet inp).all fun i => sel o.sels i == 3 && isThreeColor o.c0 o.c1

/-- Ordering on the wire: the reported mode is the one the decoder derives (43_encoder.md R116, R134). -/
def orderKept (o : Encoded) : Bool := o.three == isThreeColor o.c0 o.c1

/-- The reported error is that of the fit set against the emitted palette (43_encoder.md R117, first sentence). -/
def errorReported (inp : EncodeInput) (o : Encoded) : Bool :=
  o.err == totalErr inp.texels (emittedPalette inp.mode o.c0 o.c1) (sel o.sels) (fitSet inp)

/-- The input is a solid block in the sense of rule R118: 16 times one texel, not forced, not transparent. -/
def isSolid (inp : EncodeInput) : Bool :=
  (texelIndices.all fun i => inp.texels[i] == inp.texels[0]) && inp.fsel.isNone &&
    (!inp.forceBlack || !(inp.texels[0].a < alphaT))

/-- A decoded texel has alpha 255 and each channel within the IDEAL quantization distance: 4, 2, 4 (43_encoder.md R118). -/
def withinQuantization (x : Rgb) (t : Texel) : Bool :=
  t.a == 255 && absDiff x.r t.rgb.r ≤ 4 && absDiff x.g t.rgb.g ≤ 2 && absDiff x.b t.rgb.b ≤ 4

/-- The input with another quality. -/
def atQuality (inp : EncodeInput) (q : Nat) : EncodeInput := { inp with quality := BitVec.ofNat 8 q }

/-- Every texel of the decoded block, with either `SET_ALPHA`, is within 5:6:5 rounding of texel 0 (43_encoder.md R118). -/
def solidBound (inp : EncodeInput) (o : Encoded) : Bool :=
  texelIndices.all fun i =>
    withinQuantization inp.texels[0].rgb (decodeTexel inp.mode o.c0 o.c1 o.sels true i) &&
      withinQuantization inp.texels[0].rgb (decodeTexel inp.mode o.c0 o.c1 o.sels false i)

/-- The mode's parameters allow the bound of R118 for a solid input. IDEAL mode does. A vendor mode does iff the block that
the reference search builds from `Quant(m, x)` alone, at quality 0, keeps it: the model's reading of "only if the vendor
parameters allow it (a premise on `QUANT_V`)" (43_encoder.md R118; DESIGN CHOICE, log 8). -/
def boundAllowed (inp : EncodeInput) : Bool :=
  inp.mode == .ideal || solidBound inp (referenceEncode (atQuality inp 0))

/-- A solid block keeps the bound wherever the mode's parameters allow it (43_encoder.md R118). -/
def solidKept (inp : EncodeInput) (o : Encoded) : Bool := !isSolid inp || solidBound inp o || !boundAllowed inp

/-- An output satisfies rules R112-R118 for its input; the quality rule R117 relates two inputs and is kept by
`conformingEncode` below. -/
def conforms (inp : EncodeInput) (o : Encoded) : Bool :=
  modePermitted inp o && selectorsNearest inp o && selectorsForced inp o && transparencyForced inp o && orderKept o &&
    errorReported inp o && solidKept inp o

/-- The output with a given pair: rules R113-R117 fix everything but the pair. -/
def emitPair (inp : EncodeInput) (c0 c1 : Half) : Encoded where
  c0 := c0
  c1 := c1
  sels := packSelectors (chosenSelector inp (emittedPalette inp.mode c0 c1))
  err := chosenErr inp (emittedPalette inp.mode c0 c1)
  three := isThreeColor c0 c1

/-- The output with the pair that `draw` gives for an input. -/
def drawnOutput (draw : EncodeInput → Half × Half) (inp : EncodeInput) : Encoded :=
  emitPair inp (draw inp).1 (draw inp).2

/-- The conforming encoder of a family of draws, quality by quality. A drawn output is taken wherever it conforms and does
not raise `ERRO` above that of the quality below (R117); elsewhere the output of the quality below is kept, and at quality 0
that of the reference search, which conforms (R135). Every conforming encoder is given by some draws (log 8). -/
def conformingEncode (draw : EncodeInput → Half × Half) (inp : EncodeInput) : Nat → Encoded
  | 0 =>
    let o := drawnOutput draw (atQuality inp 0)
    if conforms (atQuality inp 0) o then o else referenceEncode (atQuality inp 0)
  | q + 1 =>
    let below := conformingEncode draw inp q
    let o := drawnOutput draw (atQuality inp (q + 1))
    if conforms (atQuality inp (q + 1)) o && o.err ≤ below.err then o else below

end Sys2Proof.Machine
end

