-- ==== Sys2Proof/Machine/Encoder.lean ====
section
/-! DEFINITION. The command ENCODE (43_encoder.md R140). -/

namespace Sys2Proof.Machine

/-- The encoder's output under a policy and a family of draws (43_encoder.md R140, D27). -/
def encodeUnder (policy : EncoderPolicy) (draw : EncodeInput → Half × Half) (inp : EncodeInput) : Encoded :=
  match policy with
  | .reference => referenceEncode inp
  | .anyConforming => conformingEncode draw inp inp.quality.toNat

/-- The encoder's output under the machine's policy and draws (logs 7, 8). -/
def encodeBlock (inp : EncodeInput) : Encoded := encodeUnder Config.encoderPolicy Config.conformingPair inp

/-- What ENCODE reads: `SRC0..SRC15`, its fields, `FSEL` only if `FSEL_EN` = 1, and `CONFIG.ENC_MODE` (43_encoder.md R140).
With `FSEL_EN` = 1, "`FORCE_BLACK` and `ALLOW3` have no effect" (R114): they are no part of the input then (R111). -/
def State.encodeInput (s : State) (allow3 forceBlack fselEn : Bool) (quality : BitVec 8) : EncodeInput where
  texels := s.sourceTexels
  quality := quality
  allow3 := allow3 && !fselEn
  forceBlack := forceBlack && !fselEn
  fsel := if fselEn then some s.fselWord else none
  mode := s.block.encMode

/-- ENCODE's results in the block (43_encoder.md R134). -/
def Block.putEncoded (b : Block) (o : Encoded) : Block := (b.putBlock o.c0 o.c1 o.sels o.three).putSelection o.sels o.err

/-- ENCODE (43_encoder.md R140); `NOT_INITIALIZED` before INIT (60_exceptions.md R172). -/
def execEncode (allow3 forceBlack fselEn : Bool) (quality : BitVec 8) (s : State) : Host.Outcome State Fault Refusal :=
  match s.block.tables with
  | none => .next (s.endWith .notInitialized)
  | some _ =>
    .next (s.complete (s.block.putEncoded (encodeBlock (s.encodeInput allow3 forceBlack fselEn quality))))

end Sys2Proof.Machine
end

