-- ==== Sys2Proof/Machine/Facade.lean ====
section
/-! DEFINITION. The command INIT (44_facade.md R155). -/

namespace Sys2Proof.Machine

/-- INIT (44_facade.md R155): the first INIT fixes the mode; the same mode again changes nothing but `STATUS`; another mode
ends with `MODE_LOCKED`. INIT reads no operand register, so it takes no draw. -/
def execInit (m : Mode) (s : State) : Host.Outcome State Fault Refusal :=
  if s.block.initDone then
    if m = s.block.encMode then .next (s.endWith .ok) else .next (s.endWith .modeLocked)
  else .next ({ s with block := s.block.putConfig m }.endWith .ok)

end Sys2Proof.Machine
end

