-- ==== Sys2Proof/Machine/Dispatch.lean ====
section
/-! DEFINITION. The dispatch of a legal command (44_facade.md R151). -/

namespace Sys2Proof.Machine

def exec (i : Instr) (s : State) : Host.Outcome State Fault Refusal :=
  match i with
  | .init mode => Sys2Proof.Machine.execInit mode s
  | .encode allow3 forceBlack fselEn quality => Sys2Proof.Machine.execEncode allow3 forceBlack fselEn quality s
  | .decode mode setAlpha => Sys2Proof.Machine.execDecode mode setAlpha s
  | .quantize mode => Sys2Proof.Machine.execQuantize mode s
  | .expand => Sys2Proof.Machine.execExpand s
  | .palette mode count3 => Sys2Proof.Machine.execPalette mode count3 s
  | .assign npal => Sys2Proof.Machine.execAssign npal s

end Sys2Proof.Machine
end

