-- ==== Sys2Proof/Machine/Step.lean ====
section
/-! DEFINITION. One step: the host's next access, or a reset, takes effect (10_state.md R12, 44_facade.md R150). -/

namespace Sys2Proof.Machine

/-- A write of `CMD` with word w: the word's own checks, then the command (44_facade.md R150, 60_exceptions.md R174). -/
def runCommand (w : Word) (s : State) : Host.Outcome State Fault Refusal :=
  match decodeCommand w with
  | .accept i => exec i s
  | .reject r => .next (s.endWith (statusOfReject r))

/-- One step. With no access pending the block waits and nothing changes (70_reset_and_hazards.md R190; log 3). -/
def step (s : State) : Host.Outcome State Fault Refusal :=
  match s.pending with
  | [] => .next s
  | e :: rest =>
    match { s with pending := rest }.request e with
    | .command w t => runCommand w t
    | .done t => .next t
    | .refuse r => .refused r

/-- The state in which the host's next access writes the command word to `CMD` (44_facade.md R150; log 3). -/
def State.withFetchWord (s : State) (nbits w : Nat) : State :=
  { s with pending := .write 0x000 4 (BitVec.ofNat 32 (w % 2 ^ nbits)) :: s.pending }

end Sys2Proof.Machine
end

