-- ==== Sys2Proof/Machine/Assembly.lean ====
section
/-! DEFINITION. The host assembly: statements, the host accesses they assemble to, and their spelling (30_encoding.md R63,
R64; log 17). -/

namespace Sys2Proof.Machine

/-- A statement of the host assembly. -/
inductive Asm where
  /-- `wr OFF, VAL`. -/
  | wr (off : Nat) (v : Word)
  /-- `rd OFF`. -/
  | rd (off : Nat)
  /-- A mnemonic with field assignments. -/
  | command (i : Instr)
  /-- `ldsrc i, T`. -/
  | ldsrc (i : Fin 16) (t : Word)
  /-- `ldsrc16 T`. -/
  | ldsrc16 (t : Word)
  /-- `ldblk LO, HI`. -/
  | ldblk (lo hi : Word)
  /-- `ldpal j, T`. -/
  | ldpal (j : Fin 4) (t : Word)
  /-- `chk`. -/
  | chk
  deriving DecidableEq, Repr

/-- `ldsrc i, T` is `wr 0x010+4i, T` (30_encoding.md R64). -/
def loadSource (t : Word) (i : Fin 16) : HostEvent := .write (0x010 + 4 * i.val) 4 t

/-- The host accesses of a statement (30_encoding.md R63, R64). -/
def asmEvents : Asm → List HostEvent
  | .wr off v => [.write off 4 v]
  | .rd off => [.read off 4]
  | .command i => [.write 0x000 4 (encode i)]
  | .ldsrc i t => [loadSource t i]
  | .ldsrc16 t => texelIndices.map (loadSource t)
  | .ldblk lo hi => [.write 0x054 4 lo, .write 0x058 4 hi]
  | .ldpal j t => [.write (0x060 + 4 * j.val) 4 t]
  | .chk => [.read 0x004 4]

/-- `INIT mode=M`; a missing field is 0 (30_encoding.md R63). -/
def asmInit (mode : Mode := .ideal) : Asm := .command (.init mode)

/-- `ENCODE q=Q [a3] [fb] [fsel]`. -/
def asmEncode (q : BitVec 8 := 0) (a3 fb fsel : Bool := false) : Asm := .command (.encode a3 fb fsel q)

/-- `DECODE mode=M [sa]`. -/
def asmDecode (mode : Mode := .ideal) (sa : Bool := false) : Asm := .command (.decode mode sa)

/-- `QUANTIZE mode=M`. -/
def asmQuantize (mode : Mode := .ideal) : Asm := .command (.quantize mode)

/-- `EXPAND`. -/
def asmExpand : Asm := .command .expand

/-- `PALETTE mode=M [c3]`. -/
def asmPalette (mode : Mode := .ideal) (c3 : Bool := false) : Asm := .command (.palette mode c3)

/-- `ASSIGN n=N` with N = 2..4 sets `NPAL` = N - 1; a missing field is 0. -/
def asmAssign (n : Nat := 1) : Asm := .command (.assign (BitVec.ofNat 2 (n - 1)))

/-! The spelling of a statement: one line of characters, read into tokens and then into a statement. -/

/-- A token: a run of characters, or a comma or an equals sign by itself. -/
abbrev Token := List Char

/-- The token being read, if there is one; it is kept in reverse. -/
def endToken (current : List Char) : List Token := if current.isEmpty then [] else [current.reverse]

/-- The tokens of a line. -/
def tokens : List Char → List Char → List Token
  | [], current => endToken current
  | c :: cs, current =>
    if c = ' ' then endToken current ++ tokens cs []
    else if c = ',' ∨ c = '=' then endToken current ++ [c] :: tokens cs []
    else tokens cs (c :: current)

/-- The value of a digit below the base. -/
def digitValue (base : Nat) (c : Char) : Option Nat :=
  let n := c.toNat
  let v := if 48 ≤ n ∧ n < 58 then n - 48 else if 97 ≤ n ∧ n < 103 then n - 87 else if 65 ≤ n ∧ n < 71 then n - 55 else base
  if v < base then some v else none

/-- The number of some digits that follow a number. -/
def digits (base acc : Nat) : List Char → Option Nat
  | [] => some acc
  | c :: cs =>
    match digitValue base c with
    | some d => digits base (acc * base + d) cs
    | none => none

/-- A number "in C hexadecimal or decimal" (30_encoding.md R63). -/
def number : Token → Option Nat
  | [] => none
  | c :: cs =>
    match cs with
    | x :: d :: ds => if c = '0' ∧ (x = 'x' ∨ x = 'X') then digits 16 0 (d :: ds) else digits 10 0 (c :: cs)
    | _ => digits 10 0 (c :: cs)

/-- A number below a bound. -/
def numberBelow (bound : Nat) (t : Token) : Option Nat := (number t).filter fun n => n < bound

/-- A word's value. -/
def wordValue (t : Token) : Option Word := (numberBelow (2 ^ 32) t).map (BitVec.ofNat 32)

/-- An optional field `name=N` with N in range, and the tokens after it; "A missing field is 0" (30_encoding.md R63). -/
def fieldValue (name : Token) (legal : Nat → Bool) : List Token → Option (Nat × List Token)
  | t :: ['='] :: n :: rest =>
    if t = name then ((number n).filter legal).map fun v => (v, rest) else some (0, t :: ['='] :: n :: rest)
  | ts => some (0, ts)

/-- An optional flag, and the tokens after it. -/
def flagValue (name : Token) : List Token → Bool × List Token
  | t :: rest => if t = name then (true, rest) else (false, t :: rest)
  | [] => (false, [])

/-- Nothing may follow a statement. -/
def complete (i : Instr) (rest : List Token) : Option Asm := if rest.isEmpty then some (.command i) else none

/-- The fields of a mnemonic, in the order of 30_encoding.md R63. -/
def readMnemonic (name : Token) (args : List Token) : Option Asm :=
  let mode := fieldValue ['m', 'o', 'd', 'e'] (fun n => n < 4) args
  if name = ['I', 'N', 'I', 'T'] then
    mode.bind fun m => complete (.init (modeOfCode (BitVec.ofNat 2 m.1))) m.2
  else if name = ['E', 'N', 'C', 'O', 'D', 'E'] then
    (fieldValue ['q'] (fun n => n < 256) args).bind fun q =>
      let a3 := flagValue ['a', '3'] q.2
      let fb := flagValue ['f', 'b'] a3.2
      let fs := flagValue ['f', 's', 'e', 'l'] fb.2
      complete (.encode a3.1 fb.1 fs.1 (BitVec.ofNat 8 q.1)) fs.2
  else if name = ['D', 'E', 'C', 'O', 'D', 'E'] then
    mode.bind fun m =>
      let sa := flagValue ['s', 'a'] m.2
      complete (.decode (modeOfCode (BitVec.ofNat 2 m.1)) sa.1) sa.2
  else if name = ['Q', 'U', 'A', 'N', 'T', 'I', 'Z', 'E'] then
    mode.bind fun m => complete (.quantize (modeOfCode (BitVec.ofNat 2 m.1))) m.2
  else if name = ['E', 'X', 'P', 'A', 'N', 'D'] then complete .expand args
  else if name = ['P', 'A', 'L', 'E', 'T', 'T', 'E'] then
    mode.bind fun m =>
      let c3 := flagValue ['c', '3'] m.2
      complete (.palette (modeOfCode (BitVec.ofNat 2 m.1)) c3.1) c3.2
  else if name = ['A', 'S', 'S', 'I', 'G', 'N'] then
    (fieldValue ['n'] (fun n => 2 ≤ n && n ≤ 4) args).bind fun n => complete (.assign (BitVec.ofNat 2 (n.1 - 1))) n.2
  else none

/-- A statement of one token after its name. -/
def readOne (name a : Token) : Option Asm :=
  if name = ['r', 'd'] then (number a).map .rd
  else if name = ['l', 'd', 's', 'r', 'c', '1', '6'] then (wordValue a).map .ldsrc16
  else none

/-- A statement of two tokens, with a comma between them, after its name. -/
def readTwo (name a b : Token) : Option Asm :=
  if name = ['w', 'r'] then (number a).bind fun off => (wordValue b).map fun v => .wr off v
  else if name = ['l', 'd', 's', 'r', 'c'] then
    (numberBelow 16 a).bind fun i => (wordValue b).map fun v => .ldsrc (Fin.ofNat 16 i) v
  else if name = ['l', 'd', 'b', 'l', 'k'] then (wordValue a).bind fun lo => (wordValue b).map fun hi => .ldblk lo hi
  else if name = ['l', 'd', 'p', 'a', 'l'] then
    (numberBelow 4 a).bind fun j => (wordValue b).map fun v => .ldpal (Fin.ofNat 4 j) v
  else none

/-- The statement a line spells, or none. -/
def readStatement (line : List Char) : Option Asm :=
  match tokens line [] with
  | [] => none
  | name :: args =>
    match readMnemonic name args with
    | some s => some s
    | none =>
      match args with
      | [] => if name = ['c', 'h', 'k'] then some .chk else none
      | [a] => readOne name a
      | [a, [','], b] => readTwo name a b
      | _ => none

/-- The machine with a program's accesses still to be made. -/
def State.withProgram (s : State) (program : List Asm) : State := { s with pending := program.flatMap asmEvents }

end Sys2Proof.Machine
end

