-- ==== Sys2Proof/Machine/Platform.lean ====
section
/-! DEFINITION. A platform of `N_UNITS` instances, "each with its own state ..., its own window and its own INIT" that
"share no state and do not communicate" (60_exceptions.md R185; log 11). -/

namespace Sys2Proof.Machine

/-- The instances of a platform. -/
structure Platform where
  units : List State
  deriving DecidableEq, Repr

/-- Every instance after reset, each under its own number, so that no two draw the same values (60_exceptions.md R185,
10_state.md R25, R26; log 2). -/
def Platform.reset : Platform where
  units := (List.range Config.nUnits).map fun k => { State.reset with unit := k }

/-- The window offset of a platform address in unit k's window: the inverse of `WINDOW_BASE + off` (20_memory.md R30,
44_facade.md R154). -/
def windowOffset (k addr : Nat) : Option Nat :=
  if Config.windowBase k ≤ addr ∧ addr < Config.windowBase k + 0x100 then some (addr - Config.windowBase k) else none

/-- Unit k takes one step; the others do not move. There is no step if the platform has no unit k. -/
def Platform.stepUnit (p : Platform) (k : Nat) : Option (Host.Outcome Platform Fault Refusal) :=
  match p.units[k]? with
  | none => none
  | some s =>
    match step s with
    | .next t => some (.next { p with units := p.units.set k t })
    | .fault f => some (.fault f)
    | .refused r => some (.refused r)

end Sys2Proof.Machine
end

