-- ==== Sys2Proof/Safety.lean ====
section
/-! DEFINITION. What counts as a safe state and a safe host, in the terms claims use. -/

namespace Sys2Proof.Machine

/-- What is written in a register satisfies p; a register that holds no value satisfies everything. -/
def Reg.Holds (r : Reg) (p : Word → Prop) : Prop :=
  match r with
  | .unspecified => True
  | .value w => p w

/-- An opaque texel word or the transparent black word: "every decoded alpha is 0 or 255" (41_decoder.md R96), and the
palette words of 40_quantizer.md R86, R87. -/
def PunchThrough (w : Word) : Prop := w.extractLsb' 24 8 = 255 ∨ w = 0

/-- The block's invariant: `ENC_MODE` is 0 while `INIT_DONE` = 0 (10_state.md R15), the unused high bits of result
registers are 0 (R19-R21), `ERRO` is at most 16 * 3 * 255^2 (R21), and texel results are punch-through words. -/
structure Block.Inv (b : Block) : Prop where
  uninitialized_mode : b.initDone = false → b.encMode = .ideal
  erro_bound : b.erro.Holds fun w => w.toNat ≤ 3121200
  info_bit : b.info.Holds fun w => w.toNat ≤ 1
  q565_half : b.q565o.Holds fun w => w.toNat < 65536
  dst_texels : ∀ i : Fin 16, b.dst[i].Holds PunchThrough
  palo_texels : ∀ j : Fin 4, b.palo[j].Holds PunchThrough

/-- Every access the host still makes is one the spec defines (20_memory.md R34). -/
def HostDefined (s : State) : Prop :=
  ∀ e ∈ s.pending,
    match e with
    | .read off size => definedAccess off size = true
    | .write off size _ => definedAccess off size = true
    | .reset => True

/-- Every operand register has been written since reset (70_reset_and_hazards.md R192). -/
def OperandsWritten (b : Block) : Prop :=
  (∀ i : Fin 16, b.src[i] ≠ .unspecified) ∧ b.fsel ≠ .unspecified ∧ b.blki0 ≠ .unspecified ∧
    b.blki1 ≠ .unspecified ∧ ∀ j : Fin 4, b.pali[j] ≠ .unspecified

end Sys2Proof.Machine
end

