-- ==== Sys2Proof/Certificates/Slice0/Obligations.lean ====
section
/-! DEFINITION. The statements for the provers. The first part writes the spec's formulas out again, in plain numbers and
from the rules' own text, so that a statement compares the machine with the spec and not with itself. -/

namespace Sys2Proof.Claims

open Sys2Proof.Machine

/-- The machine answers a next state whose block is `b` and which keeps the host side; only the model's own draw counter
(log 2) may have moved. -/
def Answers (o : Host.Outcome State Fault Refusal) (s : State) (b : Block) : Prop :=
  ∃ n, o = .next { s with block := b, draws := n }

/-- The state with another status and nothing else changed. -/
def withStatus (s : State) (c : Status) : State := { s with block := { s.block with status := c } }

/-- The masks of all legal bits by `OP`, copied from the table of 30_encoding.md R54. -/
def legalMask : Nat → Word
  | 1 => 0x0000003F
  | 2 => 0x00FF038F
  | 3 => 0x0000007F
  | 4 => 0x0000003F
  | 5 => 0x0000000F
  | 6 => 0x0000043F
  | 7 => 0x0000180F
  | _ => 0

/-- `MODE` as a number is this mode (30_encoding.md R53). -/
def modeOf : Nat → Mode
  | 0 => .ideal
  | 1 => .vendor .v1
  | 2 => .vendor .v2
  | _ => .vendor .v3

/-- The number of a mode (30_encoding.md R53). -/
def modeNumber : Mode → Nat
  | .ideal => 0
  | .vendor .v1 => 1
  | .vendor .v2 => 2
  | .vendor .v3 => 3

/-- The number of a status code (60_exceptions.md R170). -/
def statusNumber : Status → Nat
  | .ok => 0
  | .illegalOp => 1
  | .reservedField => 2
  | .badOperand => 3
  | .notInitialized => 4
  | .modeLocked => 5

/-- Bits [hi:lo] of a word, the field `lo` up to `lo + len - 1`. -/
def bits (w : Word) (lo len : Nat) : Nat := w.toNat / 2 ^ lo % 2 ^ len

/-- A command of `OP` = op with a legal mask: a word with a bit outside the mask changes the status alone, every other word
of that `OP` runs the command its fields give (30_encoding.md R54, 60_exceptions.md R171). -/
def CommandWords (op : Nat) (mask : Word) (command : Word → Instr) : Prop :=
  ∀ (w : Word) (s : State), bits w 0 4 = op →
    (w &&& ~~~mask ≠ 0 → runCommand w s = .next (withStatus s .reservedField)) ∧
    (w &&& ~~~mask = 0 → runCommand w s = exec (command w) s)

/-- Three channel values. -/
abbrev Channels := Nat × Nat × Nat

/-- `E5(v) = (v << 3) | (v >> 2)` (40_quantizer.md R70). -/
def e5 (v : Nat) : Nat := v <<< 3 ||| v >>> 2

/-- `E6(v) = (v << 2) | (v >> 4)` (40_quantizer.md R71). -/
def e6 (v : Nat) : Nat := v <<< 2 ||| v >>> 4

/-- `Expand(w)` with r5 = w[15:11], g6 = w[10:5], b5 = w[4:0] (40_quantizer.md R72, 30_encoding.md R57). -/
def expandOf (w : Half) : Channels :=
  (e5 (w.toNat / 2 ^ 11), e6 (w.toNat / 2 ^ 5 % 2 ^ 6), e5 (w.toNat % 2 ^ 5))

/-- The channels of a color record. -/
def channelsOf (c : Rgb) : Channels := (c.r.toNat, c.g.toNat, c.b.toNat)

/-- The r, g, b of a texel word (30_encoding.md R56). -/
def rgbOfWord (w : Word) : Channels := (bits w 0 8, bits w 8 8, bits w 16 8)

/-- The texel word of channels and an alpha, as a number (30_encoding.md R56). -/
def texelNumber (c : Channels) (a : Nat) : Nat := c.1 + 2 ^ 8 * c.2.1 + 2 ^ 16 * c.2.2 + 2 ^ 24 * a

/-- A function of two channel values on each channel. -/
def mix (f : Nat → Nat → Nat) (a b : Channels) : Channels := (f a.1 b.1, f a.2.1 b.2.1, f a.2.2 b.2.2)

/-- Entry j of `Pal4(m, c0, c1)` (40_quantizer.md R77; R79 for a vendor). -/
def pal4Entry (m : Mode) (c0 c1 : Half) (j : Nat) : Channels :=
  match j, m with
  | 0, _ => expandOf c0
  | 1, _ => expandOf c1
  | 2, .ideal => mix (fun a b => (2 * a + b) / 3) (expandOf c0) (expandOf c1)
  | 2, .vendor v => channelsOf (Config.interp4V v c0 c1).1
  | _, .ideal => mix (fun a b => (a + 2 * b) / 3) (expandOf c0) (expandOf c1)
  | _, .vendor v => channelsOf (Config.interp4V v c0 c1).2

/-- Entry j of `Pal3(m, c0, c1)` (40_quantizer.md R78; R79 for a vendor). -/
def pal3Entry (m : Mode) (c0 c1 : Half) (j : Nat) : Channels :=
  match j, m with
  | 0, _ => expandOf c0
  | 1, _ => expandOf c1
  | _, .ideal => mix (fun a b => (a + b) / 2) (expandOf c0) (expandOf c1)
  | _, .vendor v => channelsOf (Config.interp3V v c0 c1)

/-- Entry j of the palette a block with words c0, c1 uses: `Pal4` iff c0 > c1 (41_decoder.md R90). -/
def blockEntry (m : Mode) (c0 c1 : Half) (j : Nat) : Channels :=
  if c1.toNat < c0.toNat then pal4Entry m c0 c1 j else pal3Entry m c0 c1 j

/-- The distance of two numbers. -/
def gap (a b : Nat) : Nat := ((a : Int) - (b : Int)).natAbs

/-- `err(x, p)` (42_selector.md R100). -/
def errOf (x p : Channels) : Nat := gap x.1 p.1 ^ 2 + gap x.2.1 p.2.1 ^ 2 + gap x.2.2 p.2.2 ^ 2

/-- q is the least of 0..last at which f is least (00_scope.md R8, `argmin`). -/
def LeastAt (f : Nat → Nat) (last q : Nat) : Prop :=
  q ≤ last ∧ (∀ j ≤ last, f q ≤ f j) ∧ ∀ j < q, f q < f j

/-- The selector of texel i in a selector word (30_encoding.md R58). -/
def selectorOf (w : Word) (i : Fin 16) : Nat := bits w (2 * i.val) 2

/-- The word c0 of a first wire word (20_memory.md R37). -/
def lowHalf (w : Word) : Half := BitVec.ofNat 16 (bits w 0 16)

/-- The word c1 of a first wire word (20_memory.md R37). -/
def highHalf (w : Word) : Half := BitVec.ofNat 16 (bits w 16 16)

/-- The value of one texel of a decoded block (41_decoder.md R92, R93). -/
def decodedNumber (m : Mode) (c0 c1 : Half) (setAlpha : Bool) (k : Nat) : Nat :=
  if c1.toNat < c0.toNat then texelNumber (pal4Entry m c0 c1 k) 255
  else if k < 3 then texelNumber (pal3Entry m c0 c1 k) 255
  else if setAlpha then 0
  else texelNumber (pal3Entry m c0 c1 2) 255

/-- Texel i is in T (43_encoder.md R120). -/
def inT (inp : EncodeInput) (i : Fin 16) : Bool :=
  inp.fsel == none && inp.forceBlack && decide (inp.texels[i].a.toNat < 128)

/-- The input ENCODE reads in a state (43_encoder.md R140): the source words, the fields, `FSEL` if `FSEL_EN`, `ENC_MODE`. -/
def inputOf (s : State) (a3 fb fe : Bool) (q : BitVec 8) : EncodeInput where
  texels := Vector.ofFn fun i => texelOfWord (s.srcWord i)
  quality := q
  allow3 := a3
  forceBlack := fb
  fsel := if fe then some s.fselWord else none
  mode := s.block.encMode

/-- An output (c0, c1, s, E, USES3) satisfies 43_encoder.md R112-R116 and the first sentence of R117 for its input. -/
structure Conforming (inp : EncodeInput) (c0 c1 : Half) (sels : Word) (err : Nat) (uses3 : Bool) : Prop where
  /-- R112. -/
  mode_permitted : c0.toNat ≤ c1.toNat → inp.fsel = none ∧ (inp.allow3 = true ∨ ∃ i, inT inp i = true)
  /-- R113. -/
  nearest : inp.fsel = none → ∀ i, inT inp i = false →
    LeastAt (fun j => errOf (channelsOf inp.texels[i].rgb) (blockEntry inp.mode c0 c1 j))
      (if c1.toNat < c0.toNat then 3 else 2) (selectorOf sels i)
  /-- R114. -/
  forced : ∀ w, inp.fsel = some w → sels = w ∧ c1.toNat < c0.toNat
  /-- R115. -/
  transparent : ∀ i, inT inp i = true → selectorOf sels i = 3 ∧ c0.toNat ≤ c1.toNat
  /-- R116. -/
  order : uses3 = true ↔ c0.toNat ≤ c1.toNat
  /-- R117, first sentence. -/
  error : err = ∑ i : Fin 16,
    if inT inp i then 0
    else errOf (channelsOf inp.texels[i].rgb) (blockEntry inp.mode c0 c1 (selectorOf sels i))

/-- The five results of ENCODE in a block (43_encoder.md R134). -/
def encodedBlock (b : Block) (c0 c1 : Half) (sels : Word) (err : Nat) (uses3 : Bool) : Block :=
  { b with
    status := .ok
    blko0 := .value (BitVec.ofNat 32 (c0.toNat + 2 ^ 16 * c1.toNat))
    blko1 := .value sels
    selo := .value sels
    erro := .value (BitVec.ofNat 32 err)
    info := .value (if uses3 then 1 else 0) }

/-- The registers of the window with their offsets, but for CMD, STATUS and CONFIG (10_state.md R11). -/
def windowTable (b : Block) : List (Nat × Reg) :=
  (texelIndices.map fun i => (0x010 + 4 * i.val, b.src[i])) ++
    [(0x050, b.fsel), (0x054, b.blki0), (0x058, b.blki1),
      (0x060, b.pali[0]), (0x064, b.pali[1]), (0x068, b.pali[2]), (0x06C, b.pali[3])] ++
    (texelIndices.map fun i => (0x080 + 4 * i.val, b.dst[i])) ++
    [(0x0C0, b.blko0), (0x0C4, b.blko1), (0x0C8, b.selo), (0x0CC, b.erro), (0x0D0, b.info), (0x0D4, b.q565o),
      (0x0E0, b.palo[0]), (0x0E4, b.palo[1]), (0x0E8, b.palo[2]), (0x0EC, b.palo[3])]

/-- The reserved offsets (20_memory.md R30). -/
def reservedOffsets : List Nat :=
  [0x00C, 0x05C, 0x070, 0x074, 0x078, 0x07C, 0x0D8, 0x0DC, 0x0F0, 0x0F4, 0x0F8, 0x0FC]

/-- The offsets of the `R` registers (10_state.md R11). -/
def readOnlyOffsets : List Nat :=
  [0x004, 0x008] ++ (texelIndices.map fun i => 0x080 + 4 * i.val) ++
    [0x0C0, 0x0C4, 0x0C8, 0x0CC, 0x0D0, 0x0D4, 0x0E0, 0x0E4, 0x0E8, 0x0EC]

/-- The step is a read that returns v: the value goes to the host, the draw counter may move, nothing else changes. -/
def StepReplies (s : State) (rest : List HostEvent) (v : Word) : Prop :=
  ∃ n, step s = .next { s with pending := rest, replies := v :: s.replies, draws := n }

/-- The step leaves the block `b` and takes the access off, and changes nothing else. -/
def StepLeaves (s : State) (rest : List HostEvent) (b : Block) : Prop :=
  step s = .next { s with pending := rest, block := b }

/-- Every unit of a platform stands under its own number (the model's numbering, log 2). -/
def UnitsNumbered (p : Platform) : Prop := ∀ (j : Nat) (s : State), p.units[j]? = some s → s.unit = j

/-- The state with other values in the flags a command must not read (10_state.md R22). -/
def withFlags (s : State) (st : Status) (info : Reg) : State :=
  { s with block := { s.block with status := st, info := info } }

/-- The state with another configuration. -/
def withConfig (s : State) (d : Bool) (m : Mode) : State :=
  { s with block := { s.block with initDone := d, encMode := m } }

/-- A texel word with alpha 255 and each channel at most 4, 2, 4 from the color x (43_encoder.md R118). -/
def WithinRounding (x : Rgb) (w : Word) : Prop :=
  bits w 24 8 = 255 ∧ gap x.r.toNat (bits w 0 8) ≤ 4 ∧ gap x.g.toNat (bits w 8 8) ≤ 2 ∧
    gap x.b.toNat (bits w 16 8) ≤ 4

/-- Channel c of a color: 0 is r, 1 is g, 2 is b (43_encoder.md R123). -/
def channel (x : Rgb) : Fin 3 → Nat
  | 0 => x.r.toNat
  | 1 => x.g.toNat
  | 2 => x.b.toNat

/-- Component c of a vector. -/
def component (v : Vec3) : Fin 3 → Int
  | 0 => v.x
  | 1 => v.y
  | 2 => v.z

/-- The vector of three components. -/
def vec (f : Fin 3 → Int) : Vec3 := { x := f 0, y := f 1, z := f 2 }

/-- Column k of a matrix. -/
def column (m : Mat3) : Fin 3 → Vec3
  | 0 => m.col0
  | 1 => m.col1
  | 2 => m.col2

/-- n = |O| (43_encoder.md R123). -/
def fitCount (inp : EncodeInput) : Int := ∑ i : Fin 16, if inT inp i then 0 else 1

/-- `X[i]_c` (43_encoder.md R123). -/
def sourceChannel (inp : EncodeInput) (i : Fin 16) (c : Fin 3) : Int := channel inp.texels[i].rgb c

/-- `S_c` (43_encoder.md R123). -/
def sumOf (inp : EncodeInput) (c : Fin 3) : Int := ∑ i : Fin 16, if inT inp i then 0 else sourceChannel inp i c

/-- `d_i,c` (43_encoder.md R123). -/
def devOf (inp : EncodeInput) (i : Fin 16) (c : Fin 3) : Int := fitCount inp * sourceChannel inp i c - sumOf inp c

/-- `C_c,k` (43_encoder.md R123). -/
def covOf (inp : EncodeInput) (c k : Fin 3) : Int :=
  ∑ i : Fin 16, if inT inp i then 0 else devOf inp i c * devOf inp i k

/-- `p_i` for an axis v (43_encoder.md R126). -/
def projectionOf (inp : EncodeInput) (v : Vec3) (i : Fin 16) : Int := ∑ c : Fin 3, devOf inp i c * component v c

/-- `C` of R123, as the search computes it. -/
def searchCovariance (inp : EncodeInput) : Mat3 := covariance inp.texels (fitSet inp)

/-- `v` of R125, as the search computes it. -/
def searchAxis (inp : EncodeInput) : Vec3 := (searchCovariance inp).axis

/-- `(lo, hi)` of R126, as the search computes them. -/
def searchEnds (inp : EncodeInput) : Fin 16 × Fin 16 := extremes inp.texels (fitSet inp) (searchAxis inp)

/-- w is `Quant(m, x)` (40_quantizer.md R74, R75). -/
def QuantOf (m : Mode) (x : Rgb) (w : Half) : Prop :=
  (m = .ideal →
    LeastAt (fun v => gap (e5 v) x.r.toNat) 31 (w.toNat / 2 ^ 11) ∧
    LeastAt (fun v => gap (e6 v) x.g.toNat) 63 (w.toNat / 2 ^ 5 % 2 ^ 6) ∧
    LeastAt (fun v => gap (e5 v) x.b.toNat) 31 (w.toNat % 2 ^ 5)) ∧
  ∀ v, m = .vendor v → w = Config.quantV v x

/-- `x + k * u_c` clamped to 0..255 (43_encoder.md R129). -/
def nudged (inp : EncodeInput) (i : Fin 16) (k : Int) (u : Vec3) (c : Fin 3) : Int :=
  min (max (sourceChannel inp i c + k * component u c) 0) 255

/-- A record's error is that of its selectors over O against the palette entries `p` (43_encoder.md R131, R132). -/
def ScoredBy (inp : EncodeInput) (r : Record) (p : Nat → Channels) : Prop :=
  r.err = ∑ i : Fin 16,
    if inT inp i then 0 else errOf (channelsOf inp.texels[i].rgb) (p (selectorOf r.sels i))

/-- The texels of O have the least nearest of the entries 0..last of `p` as their selectors (42_selector.md R101). -/
def AssignedBy (inp : EncodeInput) (r : Record) (p : Nat → Channels) (last : Nat) : Prop :=
  ∀ i, inT inp i = false → LeastAt (fun j => errOf (channelsOf inp.texels[i].rgb) (p j)) last (selectorOf r.sels i)

/-- r is the 4-color record of candidate k with words wa, wb (43_encoder.md R122, R131). -/
def FourColorRecord (inp : EncodeInput) (k : Nat) (wa wb : Half) (r : Record) : Prop :=
  (∀ i, inT inp i = false) ∧ r.kind = 0 ∧ r.index = k ∧ (r.c0, r.c1) = order4 wa wb ∧
    (∀ w, inp.fsel = some w → r.sels = w) ∧
    (inp.fsel = none → AssignedBy inp r (pal4Entry inp.mode r.c0 r.c1) 3) ∧
    ScoredBy inp r (pal4Entry inp.mode r.c0 r.c1)

/-- r is the 3-color record of candidate k with words wa, wb (43_encoder.md R122, R132). -/
def ThreeColorRecord (inp : EncodeInput) (k : Nat) (wa wb : Half) (r : Record) : Prop :=
  (inp.fsel = none ∧ (inp.allow3 = true ∨ ∃ i, inT inp i = true)) ∧ r.kind = 1 ∧ r.index = k ∧
    r.c0.toNat = min wa.toNat wb.toNat ∧ r.c1.toNat = max wa.toNat wb.toNat ∧
    (∀ i, inT inp i = true → selectorOf r.sels i = 3) ∧
    AssignedBy inp r (pal3Entry inp.mode r.c0 r.c1) 2 ∧ ScoredBy inp r (pal3Entry inp.mode r.c0 r.c1)

end Sys2Proof.Claims

section
open Sys2Proof Sys2Proof.Machine Sys2Proof.Claims

/-- Words written out from the field table of 30_encoding.md R51 and R54 decode to the command they stand for, one for each
operation, and one word for each way to be rejected. A sanity statement. -/
def Obligations.TableWordsDecode : Prop :=
  decodeCommand 0x00000021 = .accept (.init (.vendor .v2)) ∧
  decodeCommand 0x000A0082 = .accept (.encode true false false 10) ∧
  decodeCommand 0x00FF0302 = .accept (.encode false true true 255) ∧
  decodeCommand 0x00000043 = .accept (.decode .ideal true) ∧
  decodeCommand 0x00000034 = .accept (.quantize (.vendor .v3)) ∧
  decodeCommand 0x00000005 = .accept .expand ∧
  decodeCommand 0x00000416 = .accept (.palette (.vendor .v1) true) ∧
  decodeCommand 0x00001807 = .accept (.assign 3) ∧
  decodeCommand 0x00000040 = .reject .illegalOp ∧
  decodeCommand 0x00002007 = .reject .reservedField

/-- Every command's word decodes to that command, at every value of every field (30_encoding.md R51, R54). -/
def Obligations.EncodeThenDecode : Prop := ∀ i : Instr, decodeCommand (encode i) = .accept i

/-- A word has at most one meaning: a word that decodes to a command is that command's word (30_encoding.md R54). -/
def Obligations.DecodeThenEncode : Prop := ∀ (w : Word) (i : Instr), decodeCommand w = .accept i → encode i = w

/-- 60_exceptions.md R171, R174, R175 and 44_facade.md R150: the checks of a command word, in their order, each changing the
status alone; a word that passes them all ends with OK. -/
def Obligations.CommandWordChecks : Prop :=
  ∀ (s : State) (w : Word) (rest : List HostEvent), s.pending = .write 0 4 w :: rest →
    let s0 := { s with pending := rest }
    let op := bits w 0 4
    if op = 0 ∨ 8 ≤ op then step s = .next (withStatus s0 .illegalOp)
    else if w &&& ~~~legalMask op ≠ 0 then step s = .next (withStatus s0 .reservedField)
    else if op = 7 ∧ bits w 11 2 = 0 then step s = .next (withStatus s0 .badOperand)
    else if op = 2 ∧ s.block.initDone = false then step s = .next (withStatus s0 .notInitialized)
    else if op = 1 ∧ s.block.initDone = true ∧ modeOf (bits w 4 2) ≠ s.block.encMode then
      step s = .next (withStatus s0 .modeLocked)
    else ∃ t, step s = .next t ∧ t.block.status = .ok

/-- 44_facade.md R150, R151: a write of `CMD` whose word decodes to a command runs that command, as one step, on the state
with the access taken off the host's list (log 3). -/
def Obligations.StepRunsDecodedCommand : Prop :=
  ∀ (s : State) (w : Word) (i : Instr) (rest : List HostEvent),
    s.pending = .write 0 4 w :: rest → decodeCommand w = .accept i → step s = exec i { s with pending := rest }

/-- 70_reset_and_hazards.md R190: with no access to make, the block waits; that a waiting step changes nothing is the
model's choice (log 3). -/
def Obligations.IdleBlockWaits : Prop := ∀ s : State, s.pending = [] → step s = .next s

/-- 20_memory.md R31: what a read returns at every defined offset, and that it changes no state of the block: only the host's
side moves, its list of accesses and its record of replies (logs 3, 4). Which draw an unspecified register gives is said in
`DrawsAreFresh`. -/
def Obligations.HostReadRule : Prop :=
  ∀ (s : State) (off : Nat) (rest : List HostEvent), s.pending = .read off 4 :: rest →
    (off = 0x000 → StepReplies s rest 0) ∧
    (off = 0x004 → StepReplies s rest (BitVec.ofNat 32 (statusNumber s.block.status))) ∧
    (off = 0x008 → StepReplies s rest
      (if s.block.initDone then BitVec.ofNat 32 (1 + 2 * modeNumber s.block.encMode) else 0)) ∧
    (∀ w, (off, Reg.value w) ∈ windowTable s.block → StepReplies s rest w) ∧
    ((off, Reg.unspecified) ∈ windowTable s.block → ∃ k, StepReplies s rest (Config.draw s.unit k)) ∧
    (off ∈ reservedOffsets → StepReplies s rest 0)

/-- 20_memory.md R32, R33: what a write does at every defined offset. -/
def Obligations.HostWriteRule : Prop :=
  ∀ (s : State) (off : Nat) (v : Word) (rest : List HostEvent), s.pending = .write off 4 v :: rest →
    (off = 0x000 → step s = runCommand v { s with pending := rest }) ∧
    (∀ i : Fin 16, off = 0x010 + 4 * i.val →
      StepLeaves s rest { s.block with src := s.block.src.set i (.value v) }) ∧
    (off = 0x050 → StepLeaves s rest { s.block with fsel := .value v }) ∧
    (off = 0x054 → StepLeaves s rest { s.block with blki0 := .value v }) ∧
    (off = 0x058 → StepLeaves s rest { s.block with blki1 := .value v }) ∧
    (∀ j : Fin 4, off = 0x060 + 4 * j.val →
      StepLeaves s rest { s.block with pali := s.block.pali.set j (.value v) }) ∧
    (off ∈ readOnlyOffsets ∨ off ∈ reservedOffsets → StepLeaves s rest s.block)

/-- 20_memory.md R34: an access that is not an aligned 32-bit access inside the window takes no step. -/
def Obligations.UndefinedAccessRefused : Prop :=
  ∀ (s : State) (off size : Nat) (v : Word) (rest : List HostEvent),
    size ≠ 4 ∨ off % 4 ≠ 0 ∨ 0x100 ≤ off →
    (s.pending = .read off size :: rest → step s = .refused (.undefinedAccess off size)) ∧
    (s.pending = .write off size v :: rest → step s = .refused (.undefinedAccess off size))

/-- The block never stops by itself: while the host makes only accesses the spec defines, every step answers a next state
from which the same holds (20_memory.md R34, 60_exceptions.md R176, R187). -/
def Obligations.DefinedAccessesNeverStop : Prop :=
  ∀ s : State, HostDefined s → ∃ t, step s = .next t ∧ HostDefined t

/-- 10_state.md R25: the state after reset. "unspecified" is R26's state; `ENC_MODE` is said through the word CONFIG reads. -/
def Obligations.ResetBlock : Prop :=
  State.reset.block.initDone = false ∧ configWord State.reset.block = 0 ∧ State.reset.block.tables = none ∧
    State.reset.block.status = .ok ∧ (∀ p ∈ windowTable State.reset.block, p.2 = .unspecified) ∧
    ∀ off ∈ reservedOffsets, ∀ draw : Word, State.reset.block.readSlot draw (slotOf off) = 0

/-- 70_reset_and_hazards.md R190, as the model takes it (log 5): whatever the state, a reset leaves the block as after
power-up and the host's remaining accesses to be made. -/
def Obligations.ResetEvent : Prop :=
  ∀ (s : State) (rest : List HostEvent), s.pending = .reset :: rest → StepLeaves s rest State.reset.block

/-- Every step keeps the block's invariant: `ENC_MODE` is IDEAL before INIT (the model's choice, log 10), `ERRO` at most
3121200, the unused high bits of `INFO` and `Q565O` 0, and every decoded texel and palette word opaque or transparent
black (10_state.md R15, R19-R21; 41_decoder.md R96). -/
def Obligations.InvariantKept : Prop :=
  ∀ s t : State, s.block.Inv → step s = .next t → t.block.Inv

/-- The invariant holds after reset. -/
def Obligations.InvariantAtReset : Prop := State.reset.block.Inv

/-- 10_state.md R16 and 70_reset_and_hazards.md R191: once `INIT_DONE` is 1, no step but a reset clears it or changes
`ENC_MODE`; a reset clears it. -/
def Obligations.ConfigLockedUntilReset : Prop :=
  ∀ s t : State, s.block.initDone = true → step s = .next t →
    if s.pending.head? = some .reset then t.block.initDone = false
    else t.block.initDone = true ∧ t.block.encMode = s.block.encMode

/-- 10_state.md R18, 44_facade.md R152: no command writes an operand register; nor does it touch the host side. -/
def Obligations.CommandsKeepOperands : Prop :=
  ∀ (i : Instr) (s : State), ∃ t, exec i s = .next t ∧ t.pending = s.pending ∧ t.replies = s.replies ∧
    t.block.src = s.block.src ∧ t.block.fsel = s.block.fsel ∧ t.block.blki0 = s.block.blki0 ∧
    t.block.blki1 = s.block.blki1 ∧ t.block.pali = s.block.pali

/-- 60_exceptions.md R175: a command that ends with a status other than OK changes no state other than `STATUS`. -/
def Obligations.FailedCommandChangesStatusOnly : Prop :=
  ∀ (w : Word) (s t : State), runCommand w s = .next t → t.block.status ≠ .ok →
    t = withStatus s t.block.status

/-- 44_facade.md R155: INIT. -/
def Obligations.InitRule : Prop :=
  CommandWords 1 0x0000003F (fun w => .init (modeOf (bits w 4 2))) ∧
  ∀ (m : Mode) (s : State),
    if s.block.initDone = true ∧ m ≠ s.block.encMode then exec (.init m) s = .next (withStatus s .modeLocked)
    else if s.block.initDone = true then exec (.init m) s = .next (withStatus s .ok)
    else exec (.init m) s =
      .next { s with block := { s.block with initDone := true, encMode := m, status := .ok } }

/-- 40_quantizer.md R85, with R74 and R75 written out: each IDEAL channel code is the least nearest one; a vendor's result
is the open parameter's. -/
def Obligations.QuantizeRule : Prop :=
  CommandWords 4 0x0000003F (fun w => .quantize (modeOf (bits w 4 2))) ∧
  ∀ (m : Mode) (s : State), ∃ q : Half,
    Answers (exec (.quantize m) s) s { s.block with status := .ok, q565o := .value (BitVec.ofNat 32 q.toNat) } ∧
    (m = .ideal →
      LeastAt (fun v => gap (e5 v) (bits (s.srcWord 0) 0 8)) 31 (q.toNat / 2 ^ 11) ∧
      LeastAt (fun v => gap (e6 v) (bits (s.srcWord 0) 8 8)) 63 (q.toNat / 2 ^ 5 % 2 ^ 6) ∧
      LeastAt (fun v => gap (e5 v) (bits (s.srcWord 0) 16 8)) 31 (q.toNat % 2 ^ 5)) ∧
    ∀ v, m = .vendor v → q = Config.quantV v (texelOfWord (s.srcWord 0)).rgb

/-- 40_quantizer.md R86, with R70-R72 written out; `PALO2` and `PALO3` keep their values. -/
def Obligations.ExpandRule : Prop :=
  CommandWords 5 0x0000000F (fun _ => .expand) ∧
  ∀ s : State,
    Answers (exec .expand s) s
      { s.block with
        status := .ok
        palo := (s.block.palo.set 0 (.value (BitVec.ofNat 32 (texelNumber (expandOf (lowHalf s.blki0Word)) 255)))).set 1
          (.value (BitVec.ofNat 32 (texelNumber (expandOf (highHalf s.blki0Word)) 255))) }

/-- 40_quantizer.md R87, with R77 and R78 written out: four entries, or three and transparent black. -/
def Obligations.PaletteRule : Prop :=
  CommandWords 6 0x0000043F (fun w => .palette (modeOf (bits w 4 2)) (bits w 10 1 == 1)) ∧
  ∀ (m : Mode) (count3 : Bool) (s : State), ∃ p : Vector Reg 4,
    Answers (exec (.palette m count3) s) s { s.block with status := .ok, palo := p } ∧
    ∀ j : Fin 4, p[j] = .value (BitVec.ofNat 32
      (if count3 then
        if j.val < 3 then texelNumber (pal3Entry m (lowHalf s.blki0Word) (highHalf s.blki0Word) j.val) 255 else 0
      else texelNumber (pal4Entry m (lowHalf s.blki0Word) (highHalf s.blki0Word) j.val) 255))

/-- 41_decoder.md R95, with R90-R93 and the palettes written out. -/
def Obligations.DecodeRule : Prop :=
  CommandWords 3 0x0000007F (fun w => .decode (modeOf (bits w 4 2)) (bits w 6 1 == 1)) ∧
  ∀ (m : Mode) (setAlpha : Bool) (s : State), ∃ d : Vector Reg 16,
    Answers (exec (.decode m setAlpha) s) s
      { s.block with
        status := .ok
        dst := d
        info := .value (if (lowHalf s.blki0Word).toNat ≤ (highHalf s.blki0Word).toNat then 1 else 0) } ∧
    ∀ i : Fin 16, d[i] = .value (BitVec.ofNat 32
      (decodedNumber m (lowHalf s.blki0Word) (highHalf s.blki0Word) setAlpha (selectorOf s.blki1Word i)))

/-- 42_selector.md R105, with R100-R102 written out: with N = `NPAL` + 1 of 2, 3 or 4 entries each selector is the least
nearest entry, and `ERRO` is the sum of the errors; with `NPAL` = 0 the command ends with BAD_OPERAND. -/
def Obligations.AssignRule : Prop :=
  CommandWords 7 0x0000180F (fun w => .assign (BitVec.ofNat 2 (bits w 11 2))) ∧
  (∀ s : State, exec (.assign 0) s = .next (withStatus s .badOperand)) ∧
  ∀ (npal : BitVec 2) (s : State), npal ≠ 0 → ∃ (sels : Word) (err : Nat),
    Answers (exec (.assign npal) s) s
      { s.block with status := .ok, selo := .value sels, erro := .value (BitVec.ofNat 32 err) } ∧
    (∀ i : Fin 16,
      LeastAt (fun j => errOf (rgbOfWord (s.srcWord i)) (rgbOfWord (s.paliWord (Fin.ofNat 4 j)))) npal.toNat
        (selectorOf sels i)) ∧
    err = ∑ i : Fin 16, errOf (rgbOfWord (s.srcWord i)) (rgbOfWord (s.paliWord (Fin.ofNat 4 (selectorOf sels i)))) ∧
    err ≤ 3121200

/-- 43_encoder.md R110, R112-R117: once INIT has completed ENCODE completes for every input, and its five results are those
of an output that satisfies R112-R116 and R117's error, under either encoder policy. -/
def Obligations.EncodeRule : Prop :=
  CommandWords 2 0x00FF038F
    (fun w => .encode (bits w 7 1 == 1) (bits w 8 1 == 1) (bits w 9 1 == 1) (BitVec.ofNat 8 (bits w 16 8))) ∧
  ∀ (a3 fb fe : Bool) (q : BitVec 8) (s : State), s.block.initDone = true →
    ∃ (c0 c1 : Half) (sels : Word) (err : Nat) (uses3 : Bool),
      Answers (exec (.encode a3 fb fe q) s) s (encodedBlock s.block c0 c1 sels err uses3) ∧
      Conforming (inputOf s a3 fb fe q) c0 c1 sels err uses3 ∧ err ≤ 3121200

/-- 43_encoder.md R111: ENCODE's five results are a function of its inputs alone. -/
def Obligations.EncodeDeterministic : Prop :=
  ∀ (a3 fb fe : Bool) (q : BitVec 8) (s u : State), s.block.initDone = true → u.block.initDone = true →
    s.block.encMode = u.block.encMode → (∀ i, s.srcWord i = u.srcWord i) → (fe = true → s.fselWord = u.fselWord) →
    ∃ (c0 c1 : Half) (sels : Word) (err : Nat) (uses3 : Bool),
      Answers (exec (.encode a3 fb fe q) s) s (encodedBlock s.block c0 c1 sels err uses3) ∧
      Answers (exec (.encode a3 fb fe q) u) u (encodedBlock u.block c0 c1 sels err uses3)

/-- 43_encoder.md R117, second sentence: with the other inputs fixed, `ERRO` at quality q + 1 is at most `ERRO` at q, for q
in 0..254, under either encoder policy. -/
def Obligations.QualityMonotone : Prop :=
  ∀ (a3 fb fe : Bool) (q : Nat) (s : State), s.block.initDone = true → q < 255 →
    ∃ (t u : State) (e e' : Word),
      exec (.encode a3 fb fe (BitVec.ofNat 8 q)) s = .next t ∧ t.block.erro = .value e ∧
      exec (.encode a3 fb fe (BitVec.ofNat 8 (q + 1))) s = .next u ∧ u.block.erro = .value e' ∧
      e'.toNat ≤ e.toNat

/-- 43_encoder.md R118, in IDEAL mode (`SolidBlockWhereAllowed` is the rule in every mode): a solid block that
is not forced transparent, encoded and then decoded with either `SET_ALPHA`, has alpha 255 and each channel within 4, 2, 4
of the source. -/
def Obligations.SolidBlockRoundTrip : Prop :=
  ∀ (a3 fb : Bool) (q : BitVec 8) (s : State) (x : Texel), s.block.initDone = true → s.block.encMode = .ideal →
    (∀ i, texelOfWord (s.srcWord i) = x) → (fb = false ∨ 128 ≤ x.a.toNat) →
    ∃ (t : State) (b0 b1 : Word),
      exec (.encode a3 fb false q) s = .next t ∧ t.block.blko0 = .value b0 ∧ t.block.blko1 = .value b1 ∧
      ∀ (setAlpha : Bool) (u : State), u.block.blki0 = .value b0 → u.block.blki1 = .value b1 →
        ∃ v, exec (.decode .ideal setAlpha) u = .next v ∧
          ∀ i : Fin 16, ∃ w, v.block.dst[i] = .value w ∧ WithinRounding x.rgb w

/-- 43_encoder.md R118 in every mode: a solid block is encoded within the bound wherever the mode's parameters allow it. What
"allow it" means in a vendor mode is the model's reading (log 8): the block that the reference search builds at quality 0 from
`Quant(m, x)` alone keeps the bound. Here that is a premise in every mode; `SolidBlockRoundTrip` needs none in IDEAL mode. -/
def Obligations.SolidBlockWhereAllowed : Prop :=
  ∀ (a3 fb : Bool) (q : BitVec 8) (s : State) (x : Texel), s.block.initDone = true →
    (∀ i, texelOfWord (s.srcWord i) = x) → (fb = false ∨ 128 ≤ x.a.toNat) →
    (let o := referenceEncode (atQuality (inputOf s a3 fb false q) 0)
     ∀ (setAlpha : Bool) (i : Fin 16), WithinRounding x.rgb (BitVec.ofNat 32
      (decodedNumber s.block.encMode o.c0 o.c1 setAlpha (selectorOf o.sels i)))) →
    ∃ (t : State) (b0 b1 : Word),
      exec (.encode a3 fb false q) s = .next t ∧ t.block.blko0 = .value b0 ∧ t.block.blko1 = .value b1 ∧
      ∀ (setAlpha : Bool) (u : State), u.block.blki0 = .value b0 → u.block.blki1 = .value b1 →
        ∃ v, exec (.decode s.block.encMode setAlpha) u = .next v ∧
          ∀ i : Fin 16, ∃ w, v.block.dst[i] = .value w ∧ WithinRounding x.rgb w

/-- 43_encoder.md R114, R111: with `FSEL_EN` = 1, `ALLOW3` and `FORCE_BLACK` have no effect on ENCODE at all, whatever the
encoder policy. -/
def Obligations.ForcedSelectorsIgnoreFlags : Prop :=
  ∀ (a3 fb a3' fb' : Bool) (q : BitVec 8) (s : State),
    exec (.encode a3 fb true q) s = exec (.encode a3' fb' true q) s ∧
    (s.block.initDone = true → ∃ t, exec (.encode a3 fb true q) s = .next t ∧ t.block.status = .ok ∧
      t.block.blko1 = .value s.fselWord ∧ t.block.selo = .value s.fselWord ∧ t.block.info = .value 0)

/-- 43_encoder.md R140, R134: ENCODE writes the bit-packing of the output of the encoder that `ENCODER_POLICY` names, for the
input it reads; under `REFERENCE` that is the reference search's, and under `ANY_CONFORMING` it is `conformingEncode`'s for the
input's own quality (the model's construction, log 8), of which `AnyConformingIsExact` speaks. Which policy the machine has is
open (log 7), and the input of forced selectors leaves the two flags out (R114). -/
def Obligations.EncodeWritesPolicyBlock : Prop :=
  (∀ (a3 fb fe : Bool) (q : BitVec 8) (s : State), s.block.initDone = true →
    let o := encodeUnder Config.encoderPolicy Config.conformingPair (inputOf s (a3 && !fe) (fb && !fe) fe q)
    Answers (exec (.encode a3 fb fe q) s) s (encodedBlock s.block o.c0 o.c1 o.sels o.err o.three)) ∧
  ∀ (draw : EncodeInput → Half × Half) (inp : EncodeInput),
    encodeUnder .reference draw inp = referenceEncode inp ∧
    encodeUnder .anyConforming draw inp = conformingEncode draw inp inp.quality.toNat ∧
    atQuality inp inp.quality.toNat = inp

/-- Drawn from 43_encoder.md R115 and 41_decoder.md R93: decoding an encoded block with `SET_ALPHA` = 1 in any mode gives
transparent black at exactly the texels of T, and alpha 255 elsewhere. -/
def Obligations.PunchThroughDecode : Prop :=
  ∀ (a3 fb fe : Bool) (q : BitVec 8) (s : State) (m : Mode), s.block.initDone = true →
    ∃ (t : State) (b0 b1 : Word),
      exec (.encode a3 fb fe q) s = .next t ∧ t.block.blko0 = .value b0 ∧ t.block.blko1 = .value b1 ∧
      ∀ u : State, u.block.blki0 = .value b0 → u.block.blki1 = .value b1 →
        ∃ v, exec (.decode m true) u = .next v ∧
          ∀ i : Fin 16, ∃ w, v.block.dst[i] = .value w ∧
            if fe = false ∧ fb = true ∧ bits (s.srcWord i) 24 8 < 128 then w = 0 else bits w 24 8 = 255

/-- Drawn from 43_encoder.md R113-R117 and 41_decoder.md R92, R93 (70_reset_and_hazards.md R195): decoding an encoded block in
the mode it was encoded in gives back the colors the encoder scored, so the errors of the decoded texels outside T sum to
`ERRO`, for either `SET_ALPHA`. -/
def Obligations.DecodedErrorIsReported : Prop :=
  ∀ (a3 fb fe setAlpha : Bool) (q : BitVec 8) (s : State), s.block.initDone = true →
    ∃ (t : State) (b0 b1 e : Word),
      exec (.encode a3 fb fe q) s = .next t ∧ t.block.blko0 = .value b0 ∧ t.block.blko1 = .value b1 ∧
      t.block.erro = .value e ∧
      ∀ u : State, u.block.blki0 = .value b0 → u.block.blki1 = .value b1 →
        ∃ (v : State) (d : Fin 16 → Word), exec (.decode s.block.encMode setAlpha) u = .next v ∧
          (∀ i : Fin 16, v.block.dst[i] = .value (d i)) ∧
          e.toNat = ∑ i : Fin 16,
            if inT (inputOf s a3 fb fe q) i then 0 else errOf (rgbOfWord (s.srcWord i)) (rgbOfWord (d i))

/-- 43_encoder.md R135, an inference of the spec: the reference search's output satisfies R112-R118 for every input, and its
error does not rise with the quality. R135 argues R118's bound for IDEAL mode only: what `conforms` asks of a solid block in a
vendor mode (`boundAllowed`) is the model's own reading of R118's premise on `QUANT_V`, a DESIGN CHOICE (log 8), so for those
modes that clause is the model's and not the spec's. -/
def Obligations.ReferenceSearchConforms : Prop :=
  ∀ inp : EncodeInput, conforms inp (referenceEncode inp) = true ∧
    ∀ q : Nat, q < 255 → (referenceEncode (atQuality inp (q + 1))).err ≤ (referenceEncode (atQuality inp q)).err

/-- The encoder of `ANY_CONFORMING` (log 8) is neither too wide nor too narrow. Whatever pairs are drawn, its outputs conform
and their error does not rise with the quality; draws whose outputs already do so are its outputs; a conforming output is
fixed by its pair; and one family of draws gives every encoder's outputs at all the inputs where they conform and their error
does not rise. -/
def Obligations.AnyConformingIsExact : Prop :=
  (∀ (draw : EncodeInput → Half × Half) (inp : EncodeInput),
    (∀ q : Nat, q ≤ 255 → conforms (atQuality inp q) (conformingEncode draw inp q) = true) ∧
    (∀ q : Nat, (conformingEncode draw inp (q + 1)).err ≤ (conformingEncode draw inp q).err) ∧
    ((∀ q : Nat, q ≤ 255 → conforms (atQuality inp q) (drawnOutput draw (atQuality inp q)) = true) →
      (∀ q : Nat, q < 255 →
        (drawnOutput draw (atQuality inp (q + 1))).err ≤ (drawnOutput draw (atQuality inp q)).err) →
      ∀ q : Nat, q ≤ 255 → conformingEncode draw inp q = drawnOutput draw (atQuality inp q))) ∧
  (∀ (inp : EncodeInput) (o : Encoded), conforms inp o = true → o = emitPair inp o.c0 o.c1) ∧
  ∀ encoder : EncodeInput → Encoded, ∃ draw : EncodeInput → Half × Half, ∀ inp : EncodeInput,
    (∀ q : Nat, q ≤ 255 → conforms (atQuality inp q) (encoder (atQuality inp q)) = true) →
    (∀ q : Nat, q < 255 → (encoder (atQuality inp (q + 1))).err ≤ (encoder (atQuality inp q)).err) →
    ∀ q : Nat, q ≤ 255 → conformingEncode draw inp q = encoder (atQuality inp q)

/-- 43_encoder.md R133: the emitted record is the one with the least key (E, kind, k) over all records. -/
def Obligations.LeastKeyEmitted : Prop :=
  ∀ inp : EncodeInput, (∃ i, inT inp i = false) →
    ∃ r ∈ records inp, referenceEncode inp = r.emitted ∧
      ∀ r' ∈ records inp, r' ≠ r →
        r.err < r'.err ∨ r.err = r'.err ∧ (r.kind < r'.kind ∨ r.kind = r'.kind ∧ r.index < r'.index)

/-- 43_encoder.md R123: the statistics of the search in plain numbers: the channel sums over O, each texel's deviation and
every entry of the matrix, within the ranges the rule gives. -/
def Obligations.CovarianceRule : Prop :=
  ∀ inp : EncodeInput,
    (∀ c, component (channelSums inp.texels (fitSet inp)) c = sumOf inp c ∧ 0 ≤ sumOf inp c ∧ sumOf inp c ≤ 4080) ∧
    (∀ i c, component (deviation inp.texels (fitSet inp) i) c = devOf inp i c ∧ (devOf inp i c).natAbs ≤ 3825) ∧
    ∀ c k, component (column (searchCovariance inp) k) c = covOf inp c k ∧
      (covOf inp c k).natAbs ≤ 16 * 3825 ^ 2

/-- 43_encoder.md R125: the axis is zero if every diagonal entry is; otherwise it is the normalised column of the least index
with the greatest diagonal entry, after four iterations that keep the vector wherever the product is zero. `Vec3.norm` is
R124's, said in `NormalisationRule`. -/
def Obligations.AxisRule : Prop :=
  ∀ inp : EncodeInput,
    if ∀ c, covOf inp c c = 0 then searchAxis inp = Vec3.zero
    else ∃ (j : Fin 3) (v : Nat → Vec3),
      (∀ c, covOf inp c c ≤ covOf inp j j) ∧ (∀ c, c < j → covOf inp c c < covOf inp j j) ∧
      v 0 = (vec fun c => covOf inp c j).norm ∧
      (∀ n, n < 4 →
        let w := vec fun c => ∑ k : Fin 3, covOf inp c k * component (v n) k
        v (n + 1) = if w = Vec3.zero then v n else w.norm) ∧
      searchAxis inp = v 4

/-- 43_encoder.md R126: for any axis, lo and hi are the least indices of O with the least and the greatest projection; for the
zero axis both are the least index of O. -/
def Obligations.ExtremesRule : Prop :=
  ∀ (inp : EncodeInput) (v : Vec3), (∃ i, inT inp i = false) →
    let ends := extremes inp.texels (fitSet inp) v
    inT inp ends.1 = false ∧ inT inp ends.2 = false ∧
    ∀ i, inT inp i = false →
      if v = Vec3.zero then ends.1 = ends.2 ∧ ends.1 ≤ i
      else
        (projectionOf inp v ends.1 < projectionOf inp v i ∨
          projectionOf inp v ends.1 = projectionOf inp v i ∧ ends.1 ≤ i) ∧
        (projectionOf inp v i < projectionOf inp v ends.2 ∨
          projectionOf inp v i = projectionOf inp v ends.2 ∧ ends.2 ≤ i)

/-- 43_encoder.md R128, R129: one candidate for each pair (a, b) that the breadth min(`QUALITY`, 8) visits, in that order, with
the words of the endpoint colors moved a and b steps along the axis, clamped and quantized. The axis, the extreme texels, the
step u and the visited pairs are said in `AxisRule`, `ExtremesRule`, `PerturbationRule` and `CandidateOrder`. -/
def Obligations.CandidateWordsRule : Prop :=
  ∀ inp : EncodeInput,
    let u := perturbation (searchAxis inp)
    let ends := searchEnds inp
    (candidateWords inp).length = (visits (min inp.quality.toNat 8)).length ∧
    ∀ (k : Nat) (a b : Int), (visits (min inp.quality.toNat 8))[k]? = some (a, b) →
      ∃ (colorA colorB : Rgb) (wa wb : Half), (candidateWords inp)[k]? = some (wa, wb) ∧
        (∀ c, (channel colorA c : Int) = nudged inp ends.1 a u c) ∧
        (∀ c, (channel colorB c : Int) = nudged inp ends.2 b u c) ∧
        QuantOf inp.mode colorA wa ∧ QuantOf inp.mode colorB wb

/-- 43_encoder.md R122, R131, R132: the records of the search are exactly the 4-color and the 3-color records of its
candidates, each made only where its kind is tried, scored against the palette of its own words. -/
def Obligations.RecordsRule : Prop :=
  ∀ (inp : EncodeInput) (r : Record),
    r ∈ records inp ↔ ∃ (k : Nat) (wa wb : Half), (candidateWords inp)[k]? = some (wa, wb) ∧
      (FourColorRecord inp k wa wb r ∨ ThreeColorRecord inp k wa wb r)

/-- 43_encoder.md R129, R136: the pairs visited for breadth R are those of the square, each once, ring by ring outward and
within a ring by a, then by b, ascending; a greater breadth visits them first and in the same order; there are at most 289. -/
def Obligations.CandidateOrder : Prop :=
  (∀ (r : Nat) (a b : Int), (a, b) ∈ visits r ↔ a.natAbs ≤ r ∧ b.natAbs ≤ r) ∧
  (∀ r : Nat, (visits r).Nodup) ∧
  (∀ r : Nat, (visits r).Pairwise fun p p' =>
    max p.1.natAbs p.2.natAbs < max p'.1.natAbs p'.2.natAbs ∨
      max p.1.natAbs p.2.natAbs = max p'.1.natAbs p'.2.natAbs ∧ (p.1 < p'.1 ∨ p.1 = p'.1 ∧ p.2 < p'.2)) ∧
  (∀ r r' : Nat, r ≤ r' → visits r <+: visits r') ∧
  ∀ q : BitVec 8, (visits (breadth q)).length = (2 * min q.toNat 8 + 1) ^ 2

/-- 43_encoder.md R124: k is the least shift that brings the largest component below 1024; each component is shifted by k
toward zero and keeps its sign; and the normalised vector is non-zero, below 1024 in every component, and at least 512 in one unless nothing was shifted. -/
def Obligations.NormalisationRule : Prop :=
  ∀ w : Vec3, w ≠ Vec3.zero →
    w.maxAbs / 2 ^ normShift w.maxAbs < 1024 ∧ (∀ k, w.maxAbs / 2 ^ k < 1024 → normShift w.maxAbs ≤ k) ∧
    w.norm.x = w.x.sign * ((w.x.natAbs / 2 ^ normShift w.maxAbs : Nat) : Int) ∧
    w.norm.y = w.y.sign * ((w.y.natAbs / 2 ^ normShift w.maxAbs : Nat) : Int) ∧
    w.norm.z = w.z.sign * ((w.z.natAbs / 2 ^ normShift w.maxAbs : Nat) : Int) ∧
    w.norm ≠ Vec3.zero ∧ w.norm.maxAbs < 1024 ∧ (512 ≤ w.norm.maxAbs ∨ w.norm = w)

/-- 43_encoder.md R127: the perturbation step truncates 8 v / max|v| toward zero, so its dominant channel is 8 in size;
the zero axis has the step zero. -/
def Obligations.PerturbationRule : Prop :=
  perturbation Vec3.zero = Vec3.zero ∧
  ∀ v : Vec3, v ≠ Vec3.zero → (perturbation v).maxAbs = 8 ∧
    (8 * v.x.natAbs / v.maxAbs = (perturbation v).x.natAbs ∧ 0 ≤ (perturbation v).x * v.x) ∧
    (8 * v.y.natAbs / v.maxAbs = (perturbation v).y.natAbs ∧ 0 ≤ (perturbation v).y * v.y) ∧
    (8 * v.z.natAbs / v.maxAbs = (perturbation v).z.natAbs ∧ 0 ≤ (perturbation v).z * v.z)

/-- 43_encoder.md R130: the 4-color ordering of a pair; it always has c0 > c1, and a pair of equal words keeps its color. -/
def Obligations.Order4Rule : Prop :=
  ∀ wa wb : Half,
    (order4 wa wb).2.toNat < (order4 wa wb).1.toNat ∧
    (wb.toNat < wa.toNat → order4 wa wb = (wa, wb)) ∧
    (wa.toNat < wb.toNat → order4 wa wb = (wb, wa)) ∧
    (wa = wb → wa ≠ 0 → order4 wa wb = (wa, wa - 1)) ∧
    (wa = wb → wa = 0 → order4 wa wb = (0x0001, 0x0000))

/-- 43_encoder.md R121 for the reference search, and for either policy what R115 leaves of it (91_not_in_source.md N24): a
block whose texels are all forced transparent has every selector 3, 3-color mode and no error. -/
def Obligations.AllTransparentBlock : Prop :=
  (∀ inp : EncodeInput, (∀ i, inT inp i = true) →
    referenceEncode inp = { c0 := 0, c1 := 0, sels := 0xFFFFFFFF, err := 0, three := true }) ∧
  ∀ (a3 : Bool) (q : BitVec 8) (s : State), s.block.initDone = true → (∀ i, bits (s.srcWord i) 24 8 < 128) →
    ∃ c0 c1 : Half, c0.toNat ≤ c1.toNat ∧
      Answers (exec (.encode a3 true false q) s) s (encodedBlock s.block c0 c1 0xFFFFFFFF 0 true)

/-- 44_facade.md R152: with every operand register written, repeating a command right after itself writes the same block. -/
def Obligations.RepeatedCommandSameBlock : Prop :=
  ∀ (i : Instr) (s : State), OperandsWritten s.block →
    ∃ t u, exec i s = .next t ∧ exec i t = .next u ∧ u.block = t.block

/-- 10_state.md R22: no command reads `STATUS` or `INFO`; only ENCODE and INIT read `CONFIG`. A command run after the host has
somehow changed those flags gives the same block, but for the flags it does not write. -/
def Obligations.FlagsNotRead : Prop :=
  (∀ (i : Instr) (s : State) (st : Status) (info : Reg), ∃ t u,
    exec i s = .next t ∧ exec i (withFlags s st info) = .next u ∧
    ((u.block = t.block) ∨ (t.block.info = s.block.info ∧ u.block = { t.block with info := info }))) ∧
  ∀ (i : Instr) (s : State) (d : Bool) (m : Mode), i.op ≠ .init → i.op ≠ .encode → ∃ t u,
    exec i s = .next t ∧ exec i (withConfig s d m) = .next u ∧
    u.block = { t.block with initDone := d, encMode := m }

/-- 10_state.md R26, in the model's numbering (log 2): an operand register that is unspecified is used as a draw of its own
unit whose number no other operand shares and no earlier step has used, and no step gives a number back. That units do not
share draws is `UnitsDrawApart`. -/
def Obligations.DrawsAreFresh : Prop :=
  (∀ s : State, ∃ src : Fin 16 → Nat, ∃ pali : Fin 4 → Nat, ∃ fsel blki0 blki1 : Nat,
    (List.ofFn src ++ List.ofFn pali ++ [fsel, blki0, blki1]).Nodup ∧
    (∀ k ∈ List.ofFn src ++ List.ofFn pali ++ [fsel, blki0, blki1], s.draws ≤ k ∧ k < s.draws + operandCount) ∧
    (∀ i : Fin 16, s.block.src[i] = .unspecified → s.srcWord i = Config.draw s.unit (src i)) ∧
    (∀ j : Fin 4, s.block.pali[j] = .unspecified → s.paliWord j = Config.draw s.unit (pali j)) ∧
    (s.block.fsel = .unspecified → s.fselWord = Config.draw s.unit fsel) ∧
    (s.block.blki0 = .unspecified → s.blki0Word = Config.draw s.unit blki0) ∧
    (s.block.blki1 = .unspecified → s.blki1Word = Config.draw s.unit blki1)) ∧
  (∀ s t : State, step s = .next t → s.draws ≤ t.draws) ∧
  (∀ (s t : State) (off : Nat) (rest : List HostEvent), s.pending = .read off 4 :: rest → step s = .next t →
    s.draws < t.draws ∧
      ((off, Reg.unspecified) ∈ windowTable s.block → t.replies = Config.draw s.unit s.draws :: s.replies)) ∧
  ∀ (i : Instr) (s t : State), exec i s = .next t → i.op ≠ .init → t.block.status = .ok →
    s.draws + operandCount ≤ t.draws

/-- 20_memory.md R36, R37 and 30_encoding.md R58: the wire bytes of a block in its two registers, and that bytes and
registers determine each other. -/
def Obligations.WireForm : Prop :=
  (∀ b0 b1 : Word,
    c0Of b0 = (wireBytes b0 b1)[1] ++ (wireBytes b0 b1)[0] ∧
    c1Of b0 = (wireBytes b0 b1)[3] ++ (wireBytes b0 b1)[2] ∧
    (∀ i : Fin 16, (sel b1 i).toNat =
      (wireBytes b0 b1)[4 + i.val / 4].toNat / 2 ^ (2 * (i.val % 4)) % 4) ∧
    registersOfWire (wireBytes b0 b1) = (b0, b1)) ∧
  ∀ bytes : Vector Byte 8, wireBytes (registersOfWire bytes).1 (registersOfWire bytes).2 = bytes

/-- 40_quantizer.md R80, an inference of the spec: facts of the IDEAL palettes. -/
def Obligations.IdealPaletteFacts : Prop :=
  ∀ c0 c1 : Half,
    pal4 .ideal c1 c0 = [entry (pal4 .ideal c0 c1) 1, entry (pal4 .ideal c0 c1) 0,
      entry (pal4 .ideal c0 c1) 3, entry (pal4 .ideal c0 c1) 2] ∧
    entry (pal3 .ideal c1 c0) 2 = entry (pal3 .ideal c0 c1) 2 ∧
    (c0 = c1 → ∀ c ∈ pal4 .ideal c0 c1 ++ pal3 .ideal c0 c1, c = expand565 c0) ∧
    ∀ c ∈ pal4 .ideal c0 c1 ++ pal3 .ideal c0 c1,
      min (expand565 c0).r.toNat (expand565 c1).r.toNat ≤ c.r.toNat ∧
      c.r.toNat ≤ max (expand565 c0).r.toNat (expand565 c1).r.toNat ∧
      min (expand565 c0).g.toNat (expand565 c1).g.toNat ≤ c.g.toNat ∧
      c.g.toNat ≤ max (expand565 c0).g.toNat (expand565 c1).g.toNat ∧
      min (expand565 c0).b.toNat (expand565 c1).b.toNat ≤ c.b.toNat ∧
      c.b.toNat ≤ max (expand565 c0).b.toNat (expand565 c1).b.toNat

/-- 40_quantizer.md R76, an inference of the spec: IDEAL quantization undoes expansion, and moves no channel by more than 4
(red, blue) or 2 (green). -/
def Obligations.QuantizeInvertsExpand : Prop :=
  (∀ w : Half, quantize .ideal (expand565 w) = w) ∧
  ∀ c : Rgb,
    gap c.r.toNat (expand565 (quantize .ideal c)).r.toNat ≤ 4 ∧
    gap c.g.toNat (expand565 (quantize .ideal c)).g.toNat ≤ 2 ∧
    gap c.b.toNat (expand565 (quantize .ideal c)).b.toNat ≤ 4

/-- 60_exceptions.md R185 with 10_state.md R26, in the model's numbering (log 2): a platform starts as `N_UNITS` units in the
state after reset, unit k under the number k; no step changes a unit's number, alone or on the platform; a unit's draws are
those of its own number; so on a platform that is so numbered, unit k uses and reads unspecified registers as draws of k, which
no other unit takes. -/
def Obligations.UnitsDrawApart : Prop :=
  Platform.reset.units.length = Config.nUnits ∧
  (∀ (k : Nat) (s : State), Platform.reset.units[k]? = some s →
    s.unit = k ∧ s.block = State.reset.block ∧ s.draws = 0 ∧ s.pending = [] ∧ s.replies = []) ∧
  (∀ s t : State, step s = .next t → t.unit = s.unit) ∧
  (∀ (s : State) (n : Nat), s.draw n = Config.draw s.unit (s.draws + n)) ∧
  ∀ p : Platform, UnitsNumbered p →
    (∀ (k : Nat) (p' : Platform), p.stepUnit k = some (.next p') → UnitsNumbered p') ∧
    ∀ (k : Nat) (s : State), p.units[k]? = some s →
      (∀ i : Fin 16, s.block.src[i] = .unspecified → ∃ n, s.srcWord i = Config.draw k n) ∧
      (∀ j : Fin 4, s.block.pali[j] = .unspecified → ∃ n, s.paliWord j = Config.draw k n) ∧
      (s.block.fsel = .unspecified → ∃ n, s.fselWord = Config.draw k n) ∧
      (s.block.blki0 = .unspecified → ∃ n, s.blki0Word = Config.draw k n) ∧
      (s.block.blki1 = .unspecified → ∃ n, s.blki1Word = Config.draw k n) ∧
      ∀ (off : Nat) (rest : List HostEvent), s.pending = .read off 4 :: rest →
        (off, Reg.unspecified) ∈ windowTable s.block →
        ∃ (p' : Platform) (t : State), p.stepUnit k = some (.next p') ∧ p'.units[k]? = some t ∧
          t.replies = Config.draw k s.draws :: s.replies

/-- 60_exceptions.md R185: instances share no state. A unit steps as it would alone, and the others do not move. -/
def Obligations.UnitsIndependent : Prop :=
  ∀ (p : Platform) (k : Nat) (s t : State), p.units[k]? = some s → step s = .next t →
    ∃ p', p.stepUnit k = some (.next p') ∧ p'.units[k]? = some t ∧ ∀ j, j ≠ k → p'.units[j]? = p.units[j]?

/-- 30_encoding.md R63, R64: a command statement of the host assembly runs that command; `wr` and `rd` are single accesses, and
each pseudo-instruction is the accesses its rule gives. -/
def Obligations.AssemblyRunsCommand : Prop :=
  ∀ (s : State) (rest : List Asm),
    let after := (s.withProgram rest).pending
    (∀ i : Instr, step (s.withProgram (.command i :: rest)) = exec i (s.withProgram rest)) ∧
    (∀ (off : Nat) (v : Word), (s.withProgram (.wr off v :: rest)).pending = .write off 4 v :: after) ∧
    (∀ off : Nat, (s.withProgram (.rd off :: rest)).pending = .read off 4 :: after) ∧
    (∀ (i : Fin 16) (t : Word),
      (s.withProgram (.ldsrc i t :: rest)).pending = .write (0x010 + 4 * i.val) 4 t :: after) ∧
    (∀ t : Word, (s.withProgram (.ldsrc16 t :: rest)).pending =
      (List.ofFn fun i : Fin 16 => HostEvent.write (0x010 + 4 * i.val) 4 t) ++ after) ∧
    (∀ lo hi : Word, (s.withProgram (.ldblk lo hi :: rest)).pending =
      .write 0x054 4 lo :: .write 0x058 4 hi :: after) ∧
    (∀ (j : Fin 4) (t : Word),
      (s.withProgram (.ldpal j t :: rest)).pending = .write (0x060 + 4 * j.val) 4 t :: after) ∧
    (s.withProgram (.chk :: rest)).pending = .read 0x004 4 :: after

/-- 20_memory.md R31, R32: a read after a write of an `RW` register gives the word written, and a read of another register is
as it was before the write. A write of CMD is left out: it runs a command (`StepRunsDecodedCommand`, `CommandWordChecks`). -/
def Obligations.ReadAfterWrite : Prop :=
  ∀ (b : Block) (v draw : Word) (off off' : Nat), off ≠ 0 → off % 4 = 0 → off' % 4 = 0 → off < 0x100 →
    off' < 0x100 →
    ((0x010 ≤ off ∧ off ≤ 0x058 ∨ 0x060 ≤ off ∧ off ≤ 0x06C) →
      (b.writeSlot v (slotOf off)).readSlot draw (slotOf off) = v) ∧
    (off ≠ off' → (b.writeSlot v (slotOf off)).readSlot draw (slotOf off') = b.readSlot draw (slotOf off'))

end
end

