-- ==== Sys2Proof/Laws/State.lean ====
section
/-! SUPPORT. One lemma per field per update, true by rfl, so that no proof unfolds a record update. -/

namespace Sys2Proof.Machine

@[simp] theorem Reg.use_value (w draw : Word) : (Reg.value w).use draw = w := rfl
@[simp] theorem Reg.use_unspecified (draw : Word) : Reg.unspecified.use draw = draw := rfl

@[simp] theorem State.endWith_block (s : State) (c : Status) : (s.endWith c).block = { s.block with status := c } := rfl
@[simp] theorem State.endWith_unit (s : State) (c : Status) : (s.endWith c).unit = s.unit := rfl
@[simp] theorem State.endWith_draws (s : State) (c : Status) : (s.endWith c).draws = s.draws := rfl
@[simp] theorem State.endWith_pending (s : State) (c : Status) : (s.endWith c).pending = s.pending := rfl
@[simp] theorem State.endWith_replies (s : State) (c : Status) : (s.endWith c).replies = s.replies := rfl

@[simp] theorem State.complete_block (s : State) (b : Block) : (s.complete b).block = { b with status := .ok } := rfl
@[simp] theorem State.complete_unit (s : State) (b : Block) : (s.complete b).unit = s.unit := rfl
@[simp] theorem State.complete_draws (s : State) (b : Block) : (s.complete b).draws = s.draws + operandCount := rfl
@[simp] theorem State.complete_pending (s : State) (b : Block) : (s.complete b).pending = s.pending := rfl
@[simp] theorem State.complete_replies (s : State) (b : Block) : (s.complete b).replies = s.replies := rfl

@[simp] theorem State.memRead_block (s : State) (off : Nat) : (s.memRead off).block = s.block := rfl
@[simp] theorem State.memRead_unit (s : State) (off : Nat) : (s.memRead off).unit = s.unit := rfl
@[simp] theorem State.memRead_draws (s : State) (off : Nat) : (s.memRead off).draws = s.draws + 1 := rfl
@[simp] theorem State.memRead_pending (s : State) (off : Nat) : (s.memRead off).pending = s.pending := rfl
@[simp] theorem State.memRead_replies (s : State) (off : Nat) : (s.memRead off).replies = s.block.readSlot (s.draw 0) (slotOf off) :: s.replies := rfl

@[simp] theorem State.memWrite_block (s : State) (off : Nat) (v : Word) : (s.memWrite off v).block = s.block.writeSlot v (slotOf off) := rfl
@[simp] theorem State.memWrite_unit (s : State) (off : Nat) (v : Word) : (s.memWrite off v).unit = s.unit := rfl
@[simp] theorem State.memWrite_draws (s : State) (off : Nat) (v : Word) : (s.memWrite off v).draws = s.draws := rfl
@[simp] theorem State.memWrite_pending (s : State) (off : Nat) (v : Word) : (s.memWrite off v).pending = s.pending := rfl
@[simp] theorem State.memWrite_replies (s : State) (off : Nat) (v : Word) : (s.memWrite off v).replies = s.replies := rfl

@[simp] theorem State.platformReset_block (s : State) : (s.platformReset).block = Block.reset := rfl
@[simp] theorem State.platformReset_unit (s : State) : (s.platformReset).unit = s.unit := rfl
@[simp] theorem State.platformReset_draws (s : State) : (s.platformReset).draws = s.draws := rfl
@[simp] theorem State.platformReset_pending (s : State) : (s.platformReset).pending = s.pending := rfl
@[simp] theorem State.platformReset_replies (s : State) : (s.platformReset).replies = s.replies := rfl

@[simp] theorem State.withFetchWord_block (s : State) (n w : Nat) : (s.withFetchWord n w).block = s.block := rfl
@[simp] theorem State.withFetchWord_unit (s : State) (n w : Nat) : (s.withFetchWord n w).unit = s.unit := rfl
@[simp] theorem State.withFetchWord_draws (s : State) (n w : Nat) : (s.withFetchWord n w).draws = s.draws := rfl
@[simp] theorem State.withFetchWord_pending (s : State) (n w : Nat) : (s.withFetchWord n w).pending = .write 0x000 4 (BitVec.ofNat 32 (w % 2 ^ n)) :: s.pending := rfl
@[simp] theorem State.withFetchWord_replies (s : State) (n w : Nat) : (s.withFetchWord n w).replies = s.replies := rfl

@[simp] theorem Block.putConfig_initDone (b : Block) (m : Mode) : (b.putConfig m).initDone = true := rfl
@[simp] theorem Block.putConfig_encMode (b : Block) (m : Mode) : (b.putConfig m).encMode = m := rfl
@[simp] theorem Block.putConfig_status (b : Block) (m : Mode) : (b.putConfig m).status = b.status := rfl
@[simp] theorem Block.putConfig_src (b : Block) (m : Mode) : (b.putConfig m).src = b.src := rfl
@[simp] theorem Block.putConfig_fsel (b : Block) (m : Mode) : (b.putConfig m).fsel = b.fsel := rfl
@[simp] theorem Block.putConfig_blki0 (b : Block) (m : Mode) : (b.putConfig m).blki0 = b.blki0 := rfl
@[simp] theorem Block.putConfig_blki1 (b : Block) (m : Mode) : (b.putConfig m).blki1 = b.blki1 := rfl
@[simp] theorem Block.putConfig_pali (b : Block) (m : Mode) : (b.putConfig m).pali = b.pali := rfl
@[simp] theorem Block.putConfig_dst (b : Block) (m : Mode) : (b.putConfig m).dst = b.dst := rfl
@[simp] theorem Block.putConfig_blko0 (b : Block) (m : Mode) : (b.putConfig m).blko0 = b.blko0 := rfl
@[simp] theorem Block.putConfig_blko1 (b : Block) (m : Mode) : (b.putConfig m).blko1 = b.blko1 := rfl
@[simp] theorem Block.putConfig_selo (b : Block) (m : Mode) : (b.putConfig m).selo = b.selo := rfl
@[simp] theorem Block.putConfig_erro (b : Block) (m : Mode) : (b.putConfig m).erro = b.erro := rfl
@[simp] theorem Block.putConfig_info (b : Block) (m : Mode) : (b.putConfig m).info = b.info := rfl
@[simp] theorem Block.putConfig_q565o (b : Block) (m : Mode) : (b.putConfig m).q565o = b.q565o := rfl
@[simp] theorem Block.putConfig_palo (b : Block) (m : Mode) : (b.putConfig m).palo = b.palo := rfl

@[simp] theorem Block.putDecoded_initDone (b : Block) (x : Fin 16 → Word) (u : Bool) : (b.putDecoded x u).initDone = b.initDone := by simp only [Block.putDecoded]
@[simp] theorem Block.putDecoded_encMode (b : Block) (x : Fin 16 → Word) (u : Bool) : (b.putDecoded x u).encMode = b.encMode := by simp only [Block.putDecoded]
@[simp] theorem Block.putDecoded_status (b : Block) (x : Fin 16 → Word) (u : Bool) : (b.putDecoded x u).status = b.status := by simp only [Block.putDecoded]
@[simp] theorem Block.putDecoded_src (b : Block) (x : Fin 16 → Word) (u : Bool) : (b.putDecoded x u).src = b.src := by simp only [Block.putDecoded]
@[simp] theorem Block.putDecoded_fsel (b : Block) (x : Fin 16 → Word) (u : Bool) : (b.putDecoded x u).fsel = b.fsel := by simp only [Block.putDecoded]
@[simp] theorem Block.putDecoded_blki0 (b : Block) (x : Fin 16 → Word) (u : Bool) : (b.putDecoded x u).blki0 = b.blki0 := by simp only [Block.putDecoded]
@[simp] theorem Block.putDecoded_blki1 (b : Block) (x : Fin 16 → Word) (u : Bool) : (b.putDecoded x u).blki1 = b.blki1 := by simp only [Block.putDecoded]
@[simp] theorem Block.putDecoded_pali (b : Block) (x : Fin 16 → Word) (u : Bool) : (b.putDecoded x u).pali = b.pali := by simp only [Block.putDecoded]
@[simp] theorem Block.putDecoded_dst (b : Block) (x : Fin 16 → Word) (u : Bool) : (b.putDecoded x u).dst = Vector.ofFn fun i => .value (x i) := by simp only [Block.putDecoded]
@[simp] theorem Block.putDecoded_blko0 (b : Block) (x : Fin 16 → Word) (u : Bool) : (b.putDecoded x u).blko0 = b.blko0 := by simp only [Block.putDecoded]
@[simp] theorem Block.putDecoded_blko1 (b : Block) (x : Fin 16 → Word) (u : Bool) : (b.putDecoded x u).blko1 = b.blko1 := by simp only [Block.putDecoded]
@[simp] theorem Block.putDecoded_selo (b : Block) (x : Fin 16 → Word) (u : Bool) : (b.putDecoded x u).selo = b.selo := by simp only [Block.putDecoded]
@[simp] theorem Block.putDecoded_erro (b : Block) (x : Fin 16 → Word) (u : Bool) : (b.putDecoded x u).erro = b.erro := by simp only [Block.putDecoded]
@[simp] theorem Block.putDecoded_info (b : Block) (x : Fin 16 → Word) (u : Bool) : (b.putDecoded x u).info = .value (infoWord u) := by simp only [Block.putDecoded]
@[simp] theorem Block.putDecoded_q565o (b : Block) (x : Fin 16 → Word) (u : Bool) : (b.putDecoded x u).q565o = b.q565o := by simp only [Block.putDecoded]
@[simp] theorem Block.putDecoded_palo (b : Block) (x : Fin 16 → Word) (u : Bool) : (b.putDecoded x u).palo = b.palo := by simp only [Block.putDecoded]

@[simp] theorem Block.putQ565_initDone (b : Block) (w : Half) : (b.putQ565 w).initDone = b.initDone := rfl
@[simp] theorem Block.putQ565_encMode (b : Block) (w : Half) : (b.putQ565 w).encMode = b.encMode := rfl
@[simp] theorem Block.putQ565_status (b : Block) (w : Half) : (b.putQ565 w).status = b.status := rfl
@[simp] theorem Block.putQ565_src (b : Block) (w : Half) : (b.putQ565 w).src = b.src := rfl
@[simp] theorem Block.putQ565_fsel (b : Block) (w : Half) : (b.putQ565 w).fsel = b.fsel := rfl
@[simp] theorem Block.putQ565_blki0 (b : Block) (w : Half) : (b.putQ565 w).blki0 = b.blki0 := rfl
@[simp] theorem Block.putQ565_blki1 (b : Block) (w : Half) : (b.putQ565 w).blki1 = b.blki1 := rfl
@[simp] theorem Block.putQ565_pali (b : Block) (w : Half) : (b.putQ565 w).pali = b.pali := rfl
@[simp] theorem Block.putQ565_dst (b : Block) (w : Half) : (b.putQ565 w).dst = b.dst := rfl
@[simp] theorem Block.putQ565_blko0 (b : Block) (w : Half) : (b.putQ565 w).blko0 = b.blko0 := rfl
@[simp] theorem Block.putQ565_blko1 (b : Block) (w : Half) : (b.putQ565 w).blko1 = b.blko1 := rfl
@[simp] theorem Block.putQ565_selo (b : Block) (w : Half) : (b.putQ565 w).selo = b.selo := rfl
@[simp] theorem Block.putQ565_erro (b : Block) (w : Half) : (b.putQ565 w).erro = b.erro := rfl
@[simp] theorem Block.putQ565_info (b : Block) (w : Half) : (b.putQ565 w).info = b.info := rfl
@[simp] theorem Block.putQ565_q565o (b : Block) (w : Half) : (b.putQ565 w).q565o = .value (w.zeroExtend 32) := rfl
@[simp] theorem Block.putQ565_palo (b : Block) (w : Half) : (b.putQ565 w).palo = b.palo := rfl

@[simp] theorem Block.putPalo_initDone (b : Block) (j : Fin 4) (w : Word) : (b.putPalo j w).initDone = b.initDone := rfl
@[simp] theorem Block.putPalo_encMode (b : Block) (j : Fin 4) (w : Word) : (b.putPalo j w).encMode = b.encMode := rfl
@[simp] theorem Block.putPalo_status (b : Block) (j : Fin 4) (w : Word) : (b.putPalo j w).status = b.status := rfl
@[simp] theorem Block.putPalo_src (b : Block) (j : Fin 4) (w : Word) : (b.putPalo j w).src = b.src := rfl
@[simp] theorem Block.putPalo_fsel (b : Block) (j : Fin 4) (w : Word) : (b.putPalo j w).fsel = b.fsel := rfl
@[simp] theorem Block.putPalo_blki0 (b : Block) (j : Fin 4) (w : Word) : (b.putPalo j w).blki0 = b.blki0 := rfl
@[simp] theorem Block.putPalo_blki1 (b : Block) (j : Fin 4) (w : Word) : (b.putPalo j w).blki1 = b.blki1 := rfl
@[simp] theorem Block.putPalo_pali (b : Block) (j : Fin 4) (w : Word) : (b.putPalo j w).pali = b.pali := rfl
@[simp] theorem Block.putPalo_dst (b : Block) (j : Fin 4) (w : Word) : (b.putPalo j w).dst = b.dst := rfl
@[simp] theorem Block.putPalo_blko0 (b : Block) (j : Fin 4) (w : Word) : (b.putPalo j w).blko0 = b.blko0 := rfl
@[simp] theorem Block.putPalo_blko1 (b : Block) (j : Fin 4) (w : Word) : (b.putPalo j w).blko1 = b.blko1 := rfl
@[simp] theorem Block.putPalo_selo (b : Block) (j : Fin 4) (w : Word) : (b.putPalo j w).selo = b.selo := rfl
@[simp] theorem Block.putPalo_erro (b : Block) (j : Fin 4) (w : Word) : (b.putPalo j w).erro = b.erro := rfl
@[simp] theorem Block.putPalo_info (b : Block) (j : Fin 4) (w : Word) : (b.putPalo j w).info = b.info := rfl
@[simp] theorem Block.putPalo_q565o (b : Block) (j : Fin 4) (w : Word) : (b.putPalo j w).q565o = b.q565o := rfl
@[simp] theorem Block.putPalo_palo (b : Block) (j : Fin 4) (w : Word) : (b.putPalo j w).palo = b.palo.set j (.value w) := rfl

@[simp] theorem Block.putSelection_initDone (b : Block) (w : Word) (e : Nat) : (b.putSelection w e).initDone = b.initDone := rfl
@[simp] theorem Block.putSelection_encMode (b : Block) (w : Word) (e : Nat) : (b.putSelection w e).encMode = b.encMode := rfl
@[simp] theorem Block.putSelection_status (b : Block) (w : Word) (e : Nat) : (b.putSelection w e).status = b.status := rfl
@[simp] theorem Block.putSelection_src (b : Block) (w : Word) (e : Nat) : (b.putSelection w e).src = b.src := rfl
@[simp] theorem Block.putSelection_fsel (b : Block) (w : Word) (e : Nat) : (b.putSelection w e).fsel = b.fsel := rfl
@[simp] theorem Block.putSelection_blki0 (b : Block) (w : Word) (e : Nat) : (b.putSelection w e).blki0 = b.blki0 := rfl
@[simp] theorem Block.putSelection_blki1 (b : Block) (w : Word) (e : Nat) : (b.putSelection w e).blki1 = b.blki1 := rfl
@[simp] theorem Block.putSelection_pali (b : Block) (w : Word) (e : Nat) : (b.putSelection w e).pali = b.pali := rfl
@[simp] theorem Block.putSelection_dst (b : Block) (w : Word) (e : Nat) : (b.putSelection w e).dst = b.dst := rfl
@[simp] theorem Block.putSelection_blko0 (b : Block) (w : Word) (e : Nat) : (b.putSelection w e).blko0 = b.blko0 := rfl
@[simp] theorem Block.putSelection_blko1 (b : Block) (w : Word) (e : Nat) : (b.putSelection w e).blko1 = b.blko1 := rfl
@[simp] theorem Block.putSelection_selo (b : Block) (w : Word) (e : Nat) : (b.putSelection w e).selo = .value w := rfl
@[simp] theorem Block.putSelection_erro (b : Block) (w : Word) (e : Nat) : (b.putSelection w e).erro = .value (BitVec.ofNat 32 e) := rfl
@[simp] theorem Block.putSelection_info (b : Block) (w : Word) (e : Nat) : (b.putSelection w e).info = b.info := rfl
@[simp] theorem Block.putSelection_q565o (b : Block) (w : Word) (e : Nat) : (b.putSelection w e).q565o = b.q565o := rfl
@[simp] theorem Block.putSelection_palo (b : Block) (w : Word) (e : Nat) : (b.putSelection w e).palo = b.palo := rfl

@[simp] theorem Block.putBlock_initDone (b : Block) (c0 c1 : Half) (w : Word) (u : Bool) : (b.putBlock c0 c1 w u).initDone = b.initDone := rfl
@[simp] theorem Block.putBlock_encMode (b : Block) (c0 c1 : Half) (w : Word) (u : Bool) : (b.putBlock c0 c1 w u).encMode = b.encMode := rfl
@[simp] theorem Block.putBlock_status (b : Block) (c0 c1 : Half) (w : Word) (u : Bool) : (b.putBlock c0 c1 w u).status = b.status := rfl
@[simp] theorem Block.putBlock_src (b : Block) (c0 c1 : Half) (w : Word) (u : Bool) : (b.putBlock c0 c1 w u).src = b.src := rfl
@[simp] theorem Block.putBlock_fsel (b : Block) (c0 c1 : Half) (w : Word) (u : Bool) : (b.putBlock c0 c1 w u).fsel = b.fsel := rfl
@[simp] theorem Block.putBlock_blki0 (b : Block) (c0 c1 : Half) (w : Word) (u : Bool) : (b.putBlock c0 c1 w u).blki0 = b.blki0 := rfl
@[simp] theorem Block.putBlock_blki1 (b : Block) (c0 c1 : Half) (w : Word) (u : Bool) : (b.putBlock c0 c1 w u).blki1 = b.blki1 := rfl
@[simp] theorem Block.putBlock_pali (b : Block) (c0 c1 : Half) (w : Word) (u : Bool) : (b.putBlock c0 c1 w u).pali = b.pali := rfl
@[simp] theorem Block.putBlock_dst (b : Block) (c0 c1 : Half) (w : Word) (u : Bool) : (b.putBlock c0 c1 w u).dst = b.dst := rfl
@[simp] theorem Block.putBlock_blko0 (b : Block) (c0 c1 : Half) (w : Word) (u : Bool) : (b.putBlock c0 c1 w u).blko0 = .value (endpointWord c0 c1) := rfl
@[simp] theorem Block.putBlock_blko1 (b : Block) (c0 c1 : Half) (w : Word) (u : Bool) : (b.putBlock c0 c1 w u).blko1 = .value w := rfl
@[simp] theorem Block.putBlock_selo (b : Block) (c0 c1 : Half) (w : Word) (u : Bool) : (b.putBlock c0 c1 w u).selo = b.selo := rfl
@[simp] theorem Block.putBlock_erro (b : Block) (c0 c1 : Half) (w : Word) (u : Bool) : (b.putBlock c0 c1 w u).erro = b.erro := rfl
@[simp] theorem Block.putBlock_info (b : Block) (c0 c1 : Half) (w : Word) (u : Bool) : (b.putBlock c0 c1 w u).info = .value (infoWord u) := rfl
@[simp] theorem Block.putBlock_q565o (b : Block) (c0 c1 : Half) (w : Word) (u : Bool) : (b.putBlock c0 c1 w u).q565o = b.q565o := rfl
@[simp] theorem Block.putBlock_palo (b : Block) (c0 c1 : Half) (w : Word) (u : Bool) : (b.putBlock c0 c1 w u).palo = b.palo := rfl

@[simp] theorem Block.putEncoded_initDone (b : Block) (o : Encoded) : (b.putEncoded o).initDone = b.initDone := rfl
@[simp] theorem Block.putEncoded_encMode (b : Block) (o : Encoded) : (b.putEncoded o).encMode = b.encMode := rfl
@[simp] theorem Block.putEncoded_status (b : Block) (o : Encoded) : (b.putEncoded o).status = b.status := rfl
@[simp] theorem Block.putEncoded_src (b : Block) (o : Encoded) : (b.putEncoded o).src = b.src := rfl
@[simp] theorem Block.putEncoded_fsel (b : Block) (o : Encoded) : (b.putEncoded o).fsel = b.fsel := rfl
@[simp] theorem Block.putEncoded_blki0 (b : Block) (o : Encoded) : (b.putEncoded o).blki0 = b.blki0 := rfl
@[simp] theorem Block.putEncoded_blki1 (b : Block) (o : Encoded) : (b.putEncoded o).blki1 = b.blki1 := rfl
@[simp] theorem Block.putEncoded_pali (b : Block) (o : Encoded) : (b.putEncoded o).pali = b.pali := rfl
@[simp] theorem Block.putEncoded_dst (b : Block) (o : Encoded) : (b.putEncoded o).dst = b.dst := rfl
@[simp] theorem Block.putEncoded_blko0 (b : Block) (o : Encoded) : (b.putEncoded o).blko0 = .value (endpointWord o.c0 o.c1) := rfl
@[simp] theorem Block.putEncoded_blko1 (b : Block) (o : Encoded) : (b.putEncoded o).blko1 = .value o.sels := rfl
@[simp] theorem Block.putEncoded_selo (b : Block) (o : Encoded) : (b.putEncoded o).selo = .value o.sels := rfl
@[simp] theorem Block.putEncoded_erro (b : Block) (o : Encoded) : (b.putEncoded o).erro = .value (BitVec.ofNat 32 o.err) := rfl
@[simp] theorem Block.putEncoded_info (b : Block) (o : Encoded) : (b.putEncoded o).info = .value (infoWord o.three) := rfl
@[simp] theorem Block.putEncoded_q565o (b : Block) (o : Encoded) : (b.putEncoded o).q565o = b.q565o := rfl
@[simp] theorem Block.putEncoded_palo (b : Block) (o : Encoded) : (b.putEncoded o).palo = b.palo := rfl

end Sys2Proof.Machine
end

