-- ==== Sys2Proof/Laws/Argmin.lean ====
section
/-! SUPPORT. The least argmin (00_scope.md R8), the packing of selectors (30_encoding.md R58) and the nearest palette
entry (42_selector.md R101): what each answers, once. -/

namespace Sys2Proof.Machine

theorem leastArgmin_le (f : Nat → Nat) (n : Nat) : leastArgmin f n ≤ n := by
  induction n with
  | zero => simp [leastArgmin]
  | succ n ih => simp only [leastArgmin]; split <;> omega

/-- `leastArgmin` attains the minimum over 0..n. -/
theorem leastArgmin_min (f : Nat → Nat) {n j : Nat} (hj : j ≤ n) : f (leastArgmin f n) ≤ f j := by
  induction n with
  | zero => simp [leastArgmin, Nat.le_zero.mp hj]
  | succ n ih =>
    simp only [leastArgmin]
    rcases Nat.lt_or_ge j (n + 1) with h | h
    · have := ih (Nat.le_of_lt_succ h)
      split <;> omega
    · have : j = n + 1 := by omega
      subst this
      split <;> omega

/-- `leastArgmin` is the least index that attains the minimum. -/
theorem leastArgmin_least (f : Nat → Nat) {n j : Nat} (hj : j < leastArgmin f n) : f (leastArgmin f n) < f j := by
  induction n with
  | zero => simp [leastArgmin] at hj
  | succ n ih =>
    simp only [leastArgmin] at hj ⊢
    split at hj
    · rename_i h
      rw [if_pos h]
      exact Nat.lt_of_lt_of_le h (leastArgmin_min f (by omega))
    · rename_i h
      rw [if_neg h]
      exact ih hj

theorem selectorSum_lt (s : Nat → Nat) (h : ∀ i, s i < 4) (n : Nat) : selectorSum s n < 4 ^ n := by
  induction n with
  | zero => simp [selectorSum]
  | succ n ih =>
    have := h n
    have h3 : s n * 4 ^ n ≤ 3 * 4 ^ n := Nat.mul_le_mul_right _ (by omega)
    simp only [selectorSum, Nat.pow_succ]
    omega

/-- Digit i of a selector sum is selector i. -/
theorem selectorSum_digit (s : Nat → Nat) (h : ∀ i, s i < 4) {i n : Nat} (hi : i < n) :
    selectorSum s n / 4 ^ i % 4 = s i := by
  induction n with
  | zero => omega
  | succ n ih =>
    simp only [selectorSum]
    rcases Nat.lt_or_ge i n with hlt | hge
    · obtain ⟨k, rfl⟩ : ∃ k, n = i + 1 + k := ⟨n - i - 1, by omega⟩
      have hp : s (i + 1 + k) * 4 ^ (i + 1 + k) = 4 ^ i * (4 * (s (i + 1 + k) * 4 ^ k)) := by ring
      rw [hp, Nat.add_mul_div_left _ _ (by positivity), Nat.add_mul_mod_self_left]
      exact ih hlt
    · have : i = n := by omega
      subst this
      rw [Nat.add_mul_div_right _ _ (by positivity), Nat.div_eq_of_lt (selectorSum_lt s h i)]
      simpa using h i

theorem sel_toNat (w : Word) (i : Fin 16) : (sel w i).toNat = w.toNat / 4 ^ i.val % 4 := by
  simp only [sel, BitVec.extractLsb'_toNat, Nat.shiftRight_eq_div_pow, pow_mul]
  norm_num

/-- Packing 16 selectors and reading one gives it back (30_encoding.md R58). -/
@[simp] theorem sel_packSelectors (s : Fin 16 → Selector) (i : Fin 16) : sel (packSelectors s) i = s i := by
  apply BitVec.eq_of_toNat_eq
  have h : ∀ j, (s (Fin.ofNat 16 j)).toNat < 4 := fun j => (s (Fin.ofNat 16 j)).isLt
  have hlt := selectorSum_lt _ h 16
  rw [show (4 : Nat) ^ 16 = 2 ^ 32 from rfl] at hlt
  rw [sel_toNat, packSelectors, BitVec.toNat_ofNat, Nat.mod_eq_of_lt hlt, selectorSum_digit _ h i.isLt]
  simp

/-- The nearest entry's index is inside the palette. -/
theorem nearest_lt (p : List Rgb) (x : Rgb) (h0 : p ≠ []) (h4 : p.length ≤ 4) : (nearest p x).toNat < p.length := by
  have hp : 0 < p.length := List.length_pos_iff.mpr h0
  have := leastArgmin_le (fun j => colorErr x (entry p j)) (p.length - 1)
  rw [nearest, BitVec.toNat_ofNat, Nat.mod_eq_of_lt (by omega)]
  omega

theorem nearest_toNat (p : List Rgb) (x : Rgb) (h4 : p.length ≤ 4) :
    (nearest p x).toNat = leastArgmin (fun j => colorErr x (entry p j)) (p.length - 1) := by
  have := leastArgmin_le (fun j => colorErr x (entry p j)) (p.length - 1)
  rw [nearest, BitVec.toNat_ofNat, Nat.mod_eq_of_lt (by omega)]

/-- The nearest entry has the least error of the palette (42_selector.md R101). -/
theorem nearest_min (p : List Rgb) (x : Rgb) (h4 : p.length ≤ 4) {j : Nat} (hj : j < p.length) :
    colorErr x (entry p (nearest p x).toNat) ≤ colorErr x (entry p j) := by
  rw [nearest_toNat p x h4]
  exact leastArgmin_min (fun j => colorErr x (entry p j)) (by omega)

theorem absDiff_le (a b : Byte) : absDiff a b ≤ 255 := by
  have := a.isLt
  have := b.isLt
  simp only [absDiff]
  omega

theorem absDiff_self (a : Byte) : absDiff a a = 0 := by simp [absDiff]

/-- A texel's error is at most 3 * 255^2 (42_selector.md R100). -/
theorem colorErr_le (x p : Rgb) : colorErr x p ≤ 195075 := by
  have h := fun a b : Byte => Nat.pow_le_pow_left (absDiff_le a b) 2
  have := h x.r p.r
  have := h x.g p.g
  have := h x.b p.b
  simp only [colorErr]
  omega

theorem sum_le_of_forall_le (l : List Nat) (m : Nat) (h : ∀ a ∈ l, a ≤ m) : l.sum ≤ m * l.length := by
  induction l with
  | nil => simp
  | cons a l ih =>
    have ha := h a (by simp)
    have hl := ih fun b hb => h b (by simp [hb])
    simp only [List.sum_cons, List.length_cons, Nat.mul_add, Nat.mul_one]
    omega

/-- A total error over at most 16 texels is at most 3121200 (42_selector.md R102). -/
theorem totalErr_le (x : Vector Texel 16) (p : List Rgb) (s : Fin 16 → Selector) (o : List (Fin 16))
    (h : o.length ≤ 16) : totalErr x p s o ≤ 3121200 := by
  have := sum_le_of_forall_le (o.map fun i => colorErr x[i].rgb (entry p (s i).toNat)) 195075
    (by simp only [List.mem_map]; rintro a ⟨i, -, rfl⟩; exact colorErr_le _ _)
  simp only [List.length_map] at this
  simp only [totalErr]
  omega

theorem fitSet_length (inp : EncodeInput) : (fitSet inp).length ≤ 16 :=
  (List.length_filter_le _ _).trans (by simp [texelIndices])

@[simp] theorem pal4_length (m : Mode) (c0 c1 : Half) : (pal4 m c0 c1).length = 4 := rfl

@[simp] theorem pal3_length (m : Mode) (c0 c1 : Half) : (pal3 m c0 c1).length = 3 := rfl

end Sys2Proof.Machine
end

