-- ==== Sys2Proof/Laws/Exec.lean ====
section
/-! SUPPORT. What a command, a host access and a step can do, said once. -/

namespace Sys2Proof.Machine

/-- The operand registers of two blocks agree. -/
def Block.SameOperands (a b : Block) : Prop :=
  a.src = b.src ∧ a.fsel = b.fsel ∧ a.blki0 = b.blki0 ∧ a.blki1 = b.blki1 ∧ a.pali = b.pali

/-- What `exec` can do: end with a status and nothing else, fix the mode (the first INIT), or complete with results. No
command stops. -/
theorem exec_cases (i : Instr) (s : State) :
    (∃ c, exec i s = .next (s.endWith c)) ∨
    (∃ m, i = .init m ∧ s.block.initDone = false ∧
      exec i s = .next ({ s with block := s.block.putConfig m }.endWith .ok)) ∨
    (∃ b : Block, exec i s = .next (s.complete b) ∧ b.SameOperands s.block ∧ b.initDone = s.block.initDone ∧
      b.encMode = s.block.encMode) := by
  cases i with
  | init m =>
    cases h : s.block.initDone with
    | false => exact .inr (.inl ⟨m, rfl, rfl, by simp [exec, execInit, h]⟩)
    | true =>
      by_cases hm : m = s.block.encMode
      · exact .inl ⟨.ok, by simp [exec, execInit, h, hm]⟩
      · exact .inl ⟨.modeLocked, by simp [exec, execInit, h, hm]⟩
  | encode a f e q =>
    cases h : s.block.tables with
    | none => exact .inl ⟨.notInitialized, by simp [exec, execEncode, h]⟩
    | some m => exact .inr (.inr ⟨s.block.putEncoded (encodeBlock (s.encodeInput a f e q)), by simp only [exec, execEncode, h],
        by simp [Block.SameOperands]⟩)
  | decode m sa => exact .inr (.inr ⟨_, rfl, by simp [Block.SameOperands]⟩)
  | quantize m => exact .inr (.inr ⟨_, rfl, by simp [Block.SameOperands]⟩)
  | expand => exact .inr (.inr ⟨_, rfl, by simp [Block.SameOperands]⟩)
  | palette m c3 => exact .inr (.inr ⟨_, rfl, by simp [Block.SameOperands]⟩)
  | assign n =>
    by_cases h : n = 0
    · exact .inl ⟨.badOperand, by simp [exec, execAssign, h]⟩
    · exact .inr (.inr ⟨_, (by simp only [exec, execAssign, h, if_false]; rfl), by simp [Block.SameOperands]⟩)

/-- A host write of a slot leaves configuration and status as they are (20_memory.md R32). -/
@[simp] theorem writeSlot_initDone (b : Block) (v : Word) (k : Slot) : (b.writeSlot v k).initDone = b.initDone := by
  cases k <;> rfl

@[simp] theorem writeSlot_encMode (b : Block) (v : Word) (k : Slot) : (b.writeSlot v k).encMode = b.encMode := by
  cases k <;> rfl

@[simp] theorem writeSlot_status (b : Block) (v : Word) (k : Slot) : (b.writeSlot v k).status = b.status := by
  cases k <;> rfl

/-- A host write leaves every result register as it is (20_memory.md R32). -/
theorem writeSlot_results (b : Block) (v : Word) (k : Slot) :
    (b.writeSlot v k).dst = b.dst ∧ (b.writeSlot v k).blko0 = b.blko0 ∧ (b.writeSlot v k).blko1 = b.blko1 ∧
      (b.writeSlot v k).selo = b.selo ∧ (b.writeSlot v k).erro = b.erro ∧ (b.writeSlot v k).info = b.info ∧
      (b.writeSlot v k).q565o = b.q565o ∧ (b.writeSlot v k).palo = b.palo := by
  cases k <;> simp [Block.writeSlot]

/-- A command is run from a state with the access taken off; the rest of the request is one of four kinds. -/
theorem request_cases (s : State) (e : HostEvent) :
    (∃ off, e = .read off 4 ∧ s.request e = .done (s.memRead off)) ∨
    (∃ off v, e = .write off 4 v ∧ off ≠ 0 ∧ s.request e = .done (s.memWrite off v)) ∨
    (∃ w, e = .write 0 4 w ∧ s.request e = .command w s) ∨
    (e = .reset ∧ s.request e = .done s.platformReset) ∨
    (∃ off size, definedAccess off size = false ∧ s.request e = .refuse (.undefinedAccess off size)) := by
  have size_eq : ∀ off size, definedAccess off size = true → size = 4 := by
    intro off size h
    simp only [definedAccess, Bool.and_eq_true, beq_iff_eq] at h
    exact h.1.1
  cases e with
  | read off size =>
    cases h : definedAccess off size with
    | true =>
      obtain rfl := size_eq _ _ h
      exact .inl ⟨off, rfl, by simp [State.request, h]⟩
    | false => exact .inr (.inr (.inr (.inr ⟨off, size, h, by simp [State.request, h]⟩)))
  | write off size v =>
    cases h : definedAccess off size with
    | true =>
      obtain rfl := size_eq _ _ h
      by_cases h0 : off = 0
      · subst h0
        exact .inr (.inr (.inl ⟨v, rfl, by simp [State.request, h]⟩))
      · exact .inr (.inl ⟨off, v, rfl, h0, by simp [State.request, h, h0]⟩)
    | false => exact .inr (.inr (.inr (.inr ⟨off, size, h, by simp [State.request, h]⟩)))
  | reset => exact .inr (.inr (.inr (.inl ⟨rfl, rfl⟩)))

/-- What a step that answers a next state did. -/
theorem step_cases {s t : State} (h : step s = .next t) :
    (s.pending = [] ∧ t = s) ∨
    ∃ e rest, s.pending = e :: rest ∧
      ((∃ off, e = .read off 4 ∧ t = { s with pending := rest }.memRead off) ∨
       (∃ off v, e = .write off 4 v ∧ off ≠ 0 ∧ t = { s with pending := rest }.memWrite off v) ∨
       (∃ w, e = .write 0 4 w ∧ runCommand w { s with pending := rest } = .next t) ∨
       (e = .reset ∧ t = { s with pending := rest }.platformReset)) := by
  cases hp : s.pending with
  | nil =>
    simp only [step, hp] at h
    exact .inl ⟨rfl, by injection h with h; exact h.symm⟩
  | cons e rest =>
    refine .inr ⟨e, rest, rfl, ?_⟩
    simp only [step, hp] at h
    rcases request_cases { s with pending := rest } e with
      ⟨off, he, hr⟩ | ⟨off, v, he, h0, hr⟩ | ⟨w, he, hr⟩ | ⟨he, hr⟩ | ⟨off, size, hd, hr⟩ <;>
      simp only [hr] at h
    · exact .inl ⟨off, he, by injection h with h; exact h.symm⟩
    · exact .inr (.inl ⟨off, v, he, h0, by injection h with h; exact h.symm⟩)
    · exact .inr (.inr (.inl ⟨w, he, h⟩))
    · exact .inr (.inr (.inr ⟨he, by injection h with h; exact h.symm⟩))
    · cases h

/-- What a write of `CMD` does: a rejected word changes the status alone, an accepted one runs its command. -/
theorem runCommand_cases (w : Word) (s : State) :
    (∃ i, decodeCommand w = .accept i ∧ runCommand w s = exec i s) ∨
    (∃ r, decodeCommand w = .reject r ∧ runCommand w s = .next (s.endWith (statusOfReject r))) := by
  cases h : decodeCommand w with
  | accept i => exact .inl ⟨i, rfl, by simp [runCommand, h]⟩
  | reject r => exact .inr ⟨r, rfl, by simp [runCommand, h]⟩

/-- Every texel has an index. -/
theorem mem_texelIndices (i : Fin 16) : i ∈ texelIndices := by
  fin_cases i <;> decide

/-- O is the texels that are not transparent (43_encoder.md R120). -/
theorem mem_fitSet (inp : EncodeInput) (i : Fin 16) : i ∈ fitSet inp ↔ isTransparent inp i = false := by
  simp [fitSet, mem_texelIndices]

/-- T is the transparent texels (43_encoder.md R120). -/
theorem mem_transparentSet (inp : EncodeInput) (i : Fin 16) :
    i ∈ transparentSet inp ↔ isTransparent inp i = true := by
  simp [transparentSet, mem_texelIndices]

/-- `firstMin` answers one of its candidates. -/
theorem firstMin_mem (f : Fin 16 → Int) (best : Fin 16) (l : List (Fin 16)) : firstMin f best l ∈ best :: l := by
  induction l generalizing best with
  | nil => simp [firstMin]
  | cons i is ih =>
    simp only [firstMin]
    split
    · exact List.mem_cons_of_mem _ (ih i)
    · rcases List.mem_cons.mp (ih best) with h | h <;> simp [h]

/-- `firstMin` answers a candidate at which f is least. -/
theorem firstMin_le (f : Fin 16 → Int) (best : Fin 16) (l : List (Fin 16)) {j : Fin 16} (hj : j ∈ best :: l) :
    f (firstMin f best l) ≤ f j := by
  induction l generalizing best j with
  | nil => simp_all [firstMin]
  | cons i is ih =>
    have head : ∀ b, f (firstMin f b is) ≤ f b := fun b => ih b (by simp)
    simp only [firstMin]
    rcases List.mem_cons.mp hj with rfl | hj
    · split
      · have := head i
        omega
      · exact head _
    · rcases List.mem_cons.mp hj with rfl | hj
      · split
        · exact head _
        · have := head best
          omega
      · exact ih _ (by simp [hj])

/-- The least record is one of the list. -/
theorem leastRecord_mem (best : Record) (l : List Record) : leastRecord best l ∈ best :: l := by
  induction l generalizing best with
  | nil => simp [leastRecord]
  | cons r rs ih =>
    simp only [leastRecord]
    split
    · exact List.mem_cons_of_mem _ (ih r)
    · rcases List.mem_cons.mp (ih best) with h | h
      · simp [h]
      · simp [h]

/-- The least record's error is at most that of every record of the list (43_encoder.md R133). -/
theorem leastRecord_err_le (best : Record) (l : List Record) {r : Record} (hr : r ∈ best :: l) :
    (leastRecord best l).err ≤ r.err := by
  induction l generalizing best r with
  | nil => simp_all [leastRecord]
  | cons a as ih =>
    simp only [leastRecord]
    split
    · rename_i hb
      simp only [Record.before, Bool.or_eq_true, decide_eq_true_eq, Bool.and_eq_true, beq_iff_eq] at hb
      rcases List.mem_cons.mp hr with rfl | hr
      · have := ih a (r := a) (by simp)
        omega
      · exact ih a hr
    · rename_i hb
      simp only [Record.before, Bool.or_eq_true, decide_eq_true_eq, Bool.and_eq_true, beq_iff_eq] at hb
      rcases List.mem_cons.mp hr with rfl | hr
      · exact ih r (by simp)
      · rcases List.mem_cons.mp hr with rfl | hr
        · have := ih best (r := best) (by simp)
          omega
        · exact ih best (by simp [hr])

end Sys2Proof.Machine
end

