-- ==== Sys2Proof/Laws/PerInstr.lean ====
section
/-! SUPPORT. Statements about every command as syntax, one lemma per constructor. -/

namespace Sys2Proof.Laws.LegalMask

/-- A command's word has its operation's `OP`, and 1 bits only inside its operation's legal mask (30_encoding.md R54). -/
@[reducible] def Statement (i : Instr) : Prop := fieldOp (encode i) = i.op.code ∧ encode i &&& ~~~i.op.legal = 0

theorem init (mode : Mode) : Statement (.init mode) := by
  rcases mode with _ | _ | _ | _ <;> decide

theorem encode (allow3 forceBlack fselEn : Bool) (quality : BitVec 8) :
    Statement (.encode allow3 forceBlack fselEn quality) := by
  revert allow3 forceBlack fselEn quality
  decide +kernel

theorem decode (mode : Mode) (setAlpha : Bool) : Statement (.decode mode setAlpha) := by
  rcases mode with _ | _ | _ | _ <;> cases setAlpha <;> decide

theorem quantize (mode : Mode) : Statement (.quantize mode) := by
  rcases mode with _ | _ | _ | _ <;> decide

theorem expand : Statement .expand := by decide

theorem palette (mode : Mode) (count3 : Bool) : Statement (.palette mode count3) := by
  rcases mode with _ | _ | _ | _ <;> cases count3 <;> decide

theorem assign (npal : BitVec 2) : Statement (.assign npal) := by
  revert npal
  decide

end Sys2Proof.Laws.LegalMask
end

