-- ==== Sys2Proof/Tests/Slice0.lean ====
section
/-! SUPPORT. The model's own tests. Expected values are those of 95_test_vectors.md (the vector is named) or of the rule
cited; the witnesses show that each statement's hypotheses can be met. -/

namespace Sys2Proof.Tests

open Sys2Proof.Machine Sys2Proof.Claims

/-! Well-formedness: the one illegal operand (30_encoding.md R55). -/

theorem test_wellFormed_refuses_one_entry_palette : WellFormed (.assign 0) = false := by decide

theorem test_wellFormed_accepts_two_entry_palette : WellFormed (.assign 1) = true := by decide

/-! Decoding: one word of each operation, written out from 30_encoding.md R51. -/

/-- OP = 0001, MODE = 10. -/
theorem test_decode_init : decodeCommand 0b100001 = .accept (.init (.vendor .v2)) := by decide

/-- 30_encoding.md R63: `ENCODE q=10 a3` is 0x000A0082. -/
theorem test_decode_encode : decodeCommand 0x000A0082 = .accept (.encode true false false 10) := by decide

/-- OP = 0010, FORCE_BLACK bit 8, FSEL_EN bit 9, QUALITY = 10000001 in [23:16]. -/
theorem test_decode_encode_flags :
    decodeCommand 0b100000010000001100000010 = .accept (.encode false true true 129) := by decide

/-- OP = 0011, SET_ALPHA bit 6, MODE = 01. -/
theorem test_decode_decode : decodeCommand 0b1010011 = .accept (.decode (.vendor .v1) true) := by decide

/-- OP = 0100, MODE = 11. -/
theorem test_decode_quantize : decodeCommand 0b110100 = .accept (.quantize (.vendor .v3)) := by decide

/-- OP = 0101. -/
theorem test_decode_expand : decodeCommand 0b0101 = .accept .expand := by decide

/-- OP = 0110, COUNT3 bit 10. -/
theorem test_decode_palette : decodeCommand 0b10000000110 = .accept (.palette .ideal true) := by decide

/-- OP = 0111, NPAL = 10 in [12:11]. -/
theorem test_decode_assign : decodeCommand 0b1000000000111 = .accept (.assign 2) := by decide

/-- Vectors S3-S7, S18, S19, S23 of section 2.7. -/
theorem test_decode_rejects :
    decodeCommand 0x00000000 = .reject .illegalOp ∧ decodeCommand 0x0000000F = .reject .illegalOp ∧
      decodeCommand 0x00000040 = .reject .illegalOp ∧ decodeCommand 0x00002007 = .reject .reservedField ∧
      decodeCommand 0x00000045 = .reject .reservedField ∧ decodeCommand 0x00008006 = .reject .reservedField := by
  decide

/-- A row's word of zeros in its fields is the row's command. -/
theorem test_decodeTableWord : decodeTableWord 32 0x00000007 = some (.assign 0) := by decide

/-! The commands. -/

/-- A field of the block an outcome leaves. -/
def blockOf {α : Type} (f : Block → α) (o : Host.Outcome State Fault Refusal) : Option α :=
  match o with
  | .next t => some (f t.block)
  | .fault _ => none
  | .refused _ => none

/-- A machine initialized in IDEAL mode. -/
def ready : State := { State.reset with block := { Block.reset with initDone := true } }

/-- The machine with a first and second wire word. -/
def withBlock (lo hi : Word) : State :=
  { ready with block := { ready.block with blki0 := .value lo, blki1 := .value hi } }

/-- The machine with 16 source words. -/
def withSource (w : Fin 16 → Word) : State :=
  { ready with block := { ready.block with src := Vector.ofFn fun i => .value (w i) } }

/-- The "ramp" of 95_test_vectors.md. -/
def ramp (i : Fin 16) : Word := BitVec.ofNat 32 (0xFF000000 + 0x111111 * i.val)

/-- Vector S11: INIT after reset. -/
theorem test_init_sets_config :
    blockOf configWord (exec (.init .ideal) State.reset) = some 1 := by decide

/-- Vector S12: another mode is refused and CONFIG kept. -/
theorem test_init_mode_locked :
    blockOf (fun b => (b.status, configWord b)) (exec (.init (.vendor .v1)) ready) = some (.modeLocked, 1) := by decide

/-- Vector S1. -/
theorem test_encode_before_init :
    blockOf (·.status) (exec (.encode true false false 0) State.reset) = some .notInitialized := by decide

/-- Vectors EN6 and EN3: the reference search. -/
theorem test_reference_ramp_and_gray :
    referenceEncode ((withSource ramp).encodeInput false false false 0) =
        { c0 := 0xFFFF, c1 := 0x0000, sels := 0x02AAFFD5, err := 26010, three := false } ∧
      referenceEncode ((withSource fun _ => 0xFF808080).encodeInput false false false 0) =
        { c0 := 0x8410, c1 := 0x840F, sels := 0xAAAAAAAA, err := 336, three := false } := by
  decide +kernel

/-- Vector DC6, without and with SET_ALPHA: texels 0 and 3. -/
theorem test_decode_three_color :
    blockOf (fun b => (b.dst[0], b.dst[3], b.info)) (exec (.decode .ideal true) (withBlock 0xF800001F 0xE4E4E4E4)) =
        some (.value 0xFFFF0000, .value 0x00000000, .value 1) ∧
      blockOf (fun b => b.dst[3]) (exec (.decode .ideal false) (withBlock 0xF800001F 0xE4E4E4E4)) =
        some (.value 0xFF7F007F) := by
  decide +kernel

/-- Vector DC5: 4-color, texels 2 and 3. -/
theorem test_decode_four_color :
    blockOf (fun b => (b.dst[2], b.dst[3], b.info)) (exec (.decode .ideal true) (withBlock 0x001FF800 0xE4E4E4E4)) =
      some (.value 0xFF5500AA, .value 0xFFAA0055, .value 0) := by
  decide +kernel

/-- Vector Q6: ties go to the lower code. -/
theorem test_quantize_ties :
    blockOf (·.q565o) (exec (.quantize .ideal) (withSource fun _ => 0x00464346)) = some (.value 0x00004208) := by
  decide +kernel

/-- Vector Q8: ties at the top. -/
theorem test_quantize_top :
    blockOf (·.q565o) (exec (.quantize .ideal) (withSource fun _ => 0xFFFBFDFB)) = some (.value 0x0000F7DE) := by
  decide +kernel

/-- Vector X6, and that PALO2 is kept. -/
theorem test_expand :
    blockOf (fun b => (b.palo[0], b.palo[1], b.palo[2])) (exec .expand (withBlock 0x12345678 0)) =
      some (.value 0xFFC6CF52, .value 0xFFA54510, .unspecified) := by
  decide +kernel

/-- Vector PL4, four colors. -/
theorem test_palette_four :
    blockOf (fun b => (b.palo[2], b.palo[3])) (exec (.palette .ideal false) (withBlock 0x001FF800 0)) =
      some (.value 0xFF5500AA, .value 0xFFAA0055) := by
  decide +kernel

/-- Vector PL6, three colors: the midpoint and the implicit entry. -/
theorem test_palette_three :
    blockOf (fun b => (b.palo[2], b.palo[3])) (exec (.palette .ideal true) (withBlock 0x07E0001F 0)) =
      some (.value 0xFF7F7F00, .value 0x00000000) := by
  decide +kernel

/-- The machine with the ramp and a palette of two words, black and white. -/
def withPalette : State :=
  { withSource ramp with
    block := { (withSource ramp).block with
      pali := Vector.ofFn fun j => .value (if j.val = 1 then 0x00FFFFFF else 0) } }

/-- Vector A5: two entries. -/
theorem test_assign_two_entries :
    blockOf (fun b => (b.selo, b.erro)) (exec (.assign 1) withPalette) =
      some (.value 0x55550000, .value 242760) := by
  decide +kernel

/-- Vector S6: BAD_OPERAND writes no result. -/
theorem test_assign_one_entry :
    blockOf (fun b => (b.status, b.selo)) (exec (.assign 0) withPalette) = some (.badOperand, .unspecified) := by
  decide

/-! The step. -/

/-- 30_encoding.md R63: the statement `ENCODE q=10 a3` is `wr 0x000, 0x000A0082`. -/
theorem test_assembly_encode : asmEvents (asmEncode (q := 10) (a3 := true)) = [.write 0x000 4 0x000A0082] := by decide

/-- 30_encoding.md R63's example, spelled, and a pseudo-instruction of R64. -/
theorem test_assembly_spelling :
    readStatement ['E', 'N', 'C', 'O', 'D', 'E', ' ', 'q', '=', '1', '0', ' ', 'a', '3'] =
        some (asmEncode (q := 10) (a3 := true)) ∧
      readStatement ['l', 'd', 'p', 'a', 'l', ' ', '3', ',', ' ', '0', 'x', 'F', 'f'] = some (.ldpal 3 0xFF) ∧
      readStatement ['A', 'S', 'S', 'I', 'G', 'N', ' ', 'n', '=', '5'] = none := by
  decide +kernel

/-- A table word placed as the next access is run by the next step. -/
theorem test_step_runs_word : step (State.reset.withFetchWord 32 3) = exec (.decode .ideal false) State.reset := by rfl

/-- Program P2: CMD and a reserved slot read 0 (20_memory.md R31, R33). -/
theorem test_read_cmd_and_reserved :
    ready.block.readSlot 0 (slotOf 0x000) = 0 ∧ ready.block.readSlot 0 (slotOf 0x00C) = 0 := by decide

/-! Witnesses: a concrete state and operands that meet the hypotheses of each statement that has any. -/

/-- Every register written with 0, INIT done in IDEAL mode. -/
def written : State where
  block :=
    { initDone := true, encMode := .ideal, status := .ok
      src := Vector.ofFn fun _ => .value 0, fsel := .value 0, blki0 := .value 0, blki1 := .value 0
      pali := Vector.ofFn fun _ => .value 0, dst := Vector.ofFn fun _ => .value 0, blko0 := .value 0
      blko1 := .value 0, selo := .value 0, erro := .value 3121200, info := .value 1, q565o := .value 65535
      palo := Vector.ofFn fun _ => .value 0xFF000000 }
  unit := 0
  draws := 0
  pending := []
  replies := []

/-- `written` with one access to make. -/
def making (e : HostEvent) : State := { written with pending := [e] }

theorem witness_DecodeThenEncode : ∃ w i, decodeCommand w = .accept i := ⟨0x00000001, .init .ideal, by decide⟩

/-- The boundary word of each check: OP 0, 8, 15; a reserved bit; NPAL 0; the least legal words. -/
theorem witness_CommandWordChecks :
    ∀ w ∈ ([0x0, 0x8, 0xF, 0x00002007, 0x7, 0x807, 0x2, 0x11, 0x1, 0x5] : List Word),
      ∃ s : State, ∃ rest, s.pending = .write 0 4 w :: rest :=
  fun w _ => ⟨making (.write 0 4 w), [], rfl⟩

/-- The clauses of `CommandWordChecks`: a state and word at which each of its outcomes is the one stated. -/
theorem witness_CommandWordChecks_clauses :
    (bits 0 0 4 = 0) ∧ (8 ≤ bits 8 0 4) ∧ (0x00002007 &&& ~~~legalMask (bits 0x00002007 0 4) ≠ 0) ∧
      (0x7 &&& ~~~legalMask (bits 0x7 0 4) = 0 ∧ bits 0x7 0 4 = 7 ∧ bits 0x7 11 2 = 0) ∧
      (0x2 &&& ~~~legalMask (bits 0x2 0 4) = 0 ∧ bits 0x2 0 4 = 2 ∧ State.reset.block.initDone = false) ∧
      (bits 0x11 0 4 = 1 ∧ written.block.initDone = true ∧ modeOf (bits 0x11 4 2) ≠ written.block.encMode) ∧
      (bits 0x1 0 4 = 1 ∧ modeOf (bits 0x1 4 2) = written.block.encMode) := by
  decide

theorem witness_StepRunsDecodedCommand :
    (making (.write 0 4 5)).pending = .write 0 4 5 :: [] ∧ decodeCommand 5 = .accept .expand := by decide

theorem witness_IdleBlockWaits : State.reset.pending = [] := rfl

/-- One offset for each clause of `HostReadRule`, the first or last of its range. -/
theorem witness_HostReadRule :
    (making (.read 0x000 4)).pending = [.read 0x000 4] ∧ (making (.read 0x008 4)).pending = [.read 0x008 4] ∧
      (0x010, Reg.value 0) ∈ windowTable written.block ∧ (0x0EC, Reg.value 0xFF000000) ∈ windowTable written.block ∧
      (0x010, Reg.unspecified) ∈ windowTable State.reset.block ∧ 0x0FC ∈ reservedOffsets := by
  decide +kernel

/-- The first and last offset of each clause of `HostWriteRule`. -/
theorem witness_HostWriteRule :
    (making (.write 0x04C 4 7)).pending = [.write 0x04C 4 7] ∧ 0x04C = 0x010 + 4 * (15 : Fin 16).val ∧
      0x06C = 0x060 + 4 * (3 : Fin 4).val ∧ 0x004 ∈ readOnlyOffsets ∧ 0x0EC ∈ readOnlyOffsets ∧
      0x00C ∈ reservedOffsets := by
  decide

/-- A wrong size, a wrong alignment and an offset past the window. -/
theorem witness_UndefinedAccessRefused :
    (making (.read 0x004 2)).pending = [.read 0x004 2] ∧ (2 : Nat) ≠ 4 ∧ 0x002 % 4 ≠ 0 ∧ 0x100 ≤ 0x100 ∧
      (making (.write 0x100 4 0)).pending = [.write 0x100 4 0] := by
  decide

theorem witness_DefinedAccessesNeverStop : HostDefined (making (.write 0x0FC 4 0)) := by
  intro e he
  simp only [making, List.mem_singleton] at he
  subst he
  rfl

theorem witness_ResetEvent : (making .reset).pending = [.reset] := rfl

theorem written_inv : written.block.Inv where
  uninitialized_mode := by decide
  erro_bound := by simp [written, Reg.Holds]
  info_bit := by simp [written, Reg.Holds]
  q565_half := by simp [written, Reg.Holds]
  dst_texels := by intro i; fin_cases i <;> exact .inr rfl
  palo_texels := by intro j; fin_cases j <;> exact .inl rfl

theorem witness_InvariantKept :
    (making (.write 0 4 1)).block.Inv ∧ ∃ t, step (making (.write 0 4 1)) = .next t := ⟨written_inv, _, rfl⟩

/-- A step that is a reset and one that is not. -/
theorem witness_ConfigLockedUntilReset :
    (making (.write 0 4 0x11)).block.initDone = true ∧ (making (.write 0 4 0x11)).pending.head? ≠ some .reset ∧
      (∃ t, step (making (.write 0 4 0x11)) = .next t) ∧
      (making .reset).block.initDone = true ∧ (making .reset).pending.head? = some .reset ∧
      ∃ t, step (making .reset) = .next t :=
  ⟨rfl, by decide, ⟨_, rfl⟩, rfl, rfl, _, rfl⟩

theorem witness_FailedCommandChangesStatusOnly :
    ∃ t, runCommand 0 written = .next t ∧ t.block.status ≠ .ok := ⟨_, rfl, by decide⟩

/-- A word inside and a word outside the mask for each `OP` of `CommandWords`. -/
theorem witness_CommandWords :
    ∀ op ∈ [1, 2, 3, 4, 5, 6, 7],
      (bits (BitVec.ofNat 32 op) 0 4 = op ∧ BitVec.ofNat 32 op &&& ~~~legalMask op = 0) ∧
        bits (BitVec.ofNat 32 (0x80000000 + op)) 0 4 = op ∧
        BitVec.ofNat 32 (0x80000000 + op) &&& ~~~legalMask op ≠ 0 := by
  decide

/-- The three cases of `InitRule`. -/
theorem witness_InitRule :
    (written.block.initDone = true ∧ Mode.vendor .v1 ≠ written.block.encMode) ∧
      (written.block.initDone = true ∧ Mode.ideal = written.block.encMode) ∧ State.reset.block.initDone = false := by
  decide

theorem witness_AssignRule : (1 : BitVec 2) ≠ 0 ∧ (3 : BitVec 2) ≠ 0 := by decide

theorem witness_EncodeRule : written.block.initDone = true := rfl

/-- Two states that differ in a register ENCODE does not read. -/
theorem witness_EncodeDeterministic :
    written.block.initDone = true ∧ (making (.read 0 4)).block.initDone = true ∧
      written.block.encMode = (making (.read 0 4)).block.encMode ∧
      (∀ i, written.srcWord i = (making (.read 0 4)).srcWord i) ∧
      written.fselWord = (making (.read 0 4)).fselWord := by
  decide

theorem witness_QualityMonotone : written.block.initDone = true ∧ 254 < 255 := by decide

/-- 16 times one texel, with alpha 0 and alpha 128. -/
theorem witness_SolidBlockRoundTrip :
    (∀ i, texelOfWord (written.srcWord i) = { rgb := { r := 0, g := 0, b := 0 }, a := 0 }) ∧
      written.block.encMode = .ideal ∧
      (∀ i, texelOfWord ((withSource fun _ => 0x80123456).srcWord i) =
        { rgb := { r := 0x56, g := 0x34, b := 0x12 }, a := 128 }) ∧
      (withSource fun _ => 0x80123456).block.encMode = .ideal := by
  decide +kernel

/-- The premise of `SolidBlockWhereAllowed` on the block of quality 0, for 16 times one texel. -/
theorem witness_SolidBlockWhereAllowed :
    written.block.initDone = true ∧
      (∀ i, texelOfWord (written.srcWord i) = { rgb := { r := 0, g := 0, b := 0 }, a := 0 }) ∧
      let o := referenceEncode (atQuality (inputOf written false false false 5) 0)
      ∀ (setAlpha : Bool) (i : Fin 16), WithinRounding { r := 0, g := 0, b := 0 } (BitVec.ofNat 32
        (decodedNumber written.block.encMode o.c0 o.c1 setAlpha (selectorOf o.sels i))) := by
  unfold WithinRounding
  decide +kernel

/-- A block whose operands are the results of an encode: the shape of the inner hypotheses of the round-trip statements. -/
theorem witness_decode_operands (b0 b1 : Word) :
    (withBlock b0 b1).block.blki0 = .value b0 ∧ (withBlock b0 b1).block.blki1 = .value b1 := ⟨rfl, rfl⟩

theorem witness_PunchThroughDecode (b0 b1 : Word) :
    written.block.initDone = true ∧ (withBlock b0 b1).block.blki0 = .value b0 ∧
      (withBlock b0 b1).block.blki1 = .value b1 := ⟨rfl, rfl, rfl⟩

theorem witness_DecodedErrorIsReported (b0 b1 : Word) :
    written.block.initDone = true ∧ (withBlock b0 b1).block.blki0 = .value b0 ∧
      (withBlock b0 b1).block.blki1 = .value b1 := ⟨rfl, rfl, rfl⟩

theorem witness_ForcedSelectorsIgnoreFlags : written.block.initDone = true := rfl

theorem witness_EncodeWritesPolicyBlock : written.block.initDone = true := rfl

/-- An input of 16 texels that are all forced transparent. -/
def clear : EncodeInput where
  texels := Vector.ofFn fun _ => { rgb := { r := 9, g := 9, b := 9 }, a := 0 }
  quality := 0
  allow3 := false
  forceBlack := true
  fsel := none
  mode := .ideal

theorem clear_drawn (q : Nat) :
    conforms (atQuality clear q) (drawnOutput (fun _ => (0, 0)) (atQuality clear q)) = true ∧
      (drawnOutput (fun _ => (0, 0)) (atQuality clear q)).err = 0 := by
  have h : conforms clear (drawnOutput (fun _ => (0, 0)) clear) = true ∧
      (drawnOutput (fun _ => (0, 0)) clear).err = 0 := by
    decide +kernel
  exact h

/-- Draws whose outputs conform at every quality with an error that does not rise. -/
theorem witness_AnyConformingIsExact :
    (∀ q : Nat, q ≤ 255 →
      conforms (atQuality clear q) (drawnOutput (fun _ => (0, 0)) (atQuality clear q)) = true) ∧
    ∀ q : Nat, q < 255 → (drawnOutput (fun _ => (0, 0)) (atQuality clear (q + 1))).err ≤
      (drawnOutput (fun _ => (0, 0)) (atQuality clear q)).err :=
  ⟨fun q _ => (clear_drawn q).1, fun q _ => by rw [(clear_drawn q).2, (clear_drawn (q + 1)).2]⟩

/-- A conforming output, and an encoder whose outputs conform at every quality with an error that does not rise. -/
theorem witness_AnyConformingIsExact_encoder :
    (∃ o, conforms clear o = true) ∧
    ∃ encoder : EncodeInput → Encoded,
      (∀ q : Nat, q ≤ 255 → conforms (atQuality clear q) (encoder (atQuality clear q)) = true) ∧
      ∀ q : Nat, q < 255 → (encoder (atQuality clear (q + 1))).err ≤ (encoder (atQuality clear q)).err :=
  ⟨⟨_, (clear_drawn 0).1⟩, _, witness_AnyConformingIsExact⟩

/-- The zero axis and another, with a texel of O. -/
theorem witness_ExtremesRule :
    (∃ i, inT { clear with forceBlack := false } i = false) ∧ ({ x := 1, y := 0, z := 0 } : Vec3) ≠ Vec3.zero :=
  ⟨⟨0, by decide⟩, by decide⟩

/-- An input with a zero diagonal and one without. -/
theorem witness_AxisRule :
    (∀ c, covOf clear c c = 0) ∧ ¬ ∀ c, covOf ((withSource ramp).encodeInput false false false 0) c c = 0 := by
  decide +kernel

/-- The first candidate of quality 0 and the last of quality 8. -/
theorem witness_CandidateWordsRule :
    (visits (min (0 : BitVec 8).toNat 8))[0]? = some (0, 0) ∧
      (visits (min (255 : BitVec 8).toNat 8))[288]? = some (8, 8) := by
  decide +kernel

theorem witness_LeastKeyEmitted : ∃ i, inT { clear with forceBlack := false } i = false := ⟨0, by decide⟩

theorem witness_NormalisationRule :
    ({ x := 1024, y := -1, z := 0 } : Vec3) ≠ Vec3.zero ∧ ({ x := 0, y := 0, z := 1023 } : Vec3) ≠ Vec3.zero := by decide

theorem witness_PerturbationRule : ({ x := 611, y := -5, z := 0 } : Vec3) ≠ Vec3.zero := by decide

theorem witness_Order4Rule :
    (1 : Half).toNat < (2 : Half).toNat ∧ (3 : Half) = 3 ∧ (3 : Half) ≠ 0 ∧ (0 : Half) = 0 := by decide

theorem witness_AllTransparentBlock :
    (∀ i, inT clear i = true) ∧ written.block.initDone = true ∧ ∀ i, bits (written.srcWord i) 24 8 < 128 := by
  decide +kernel

theorem witness_RepeatedCommandSameBlock : OperandsWritten written.block :=
  ⟨by decide, by decide, by decide, by decide, by decide⟩

theorem witness_FlagsNotRead : (Instr.assign 1).op ≠ .init ∧ (Instr.assign 1).op ≠ .encode := by decide

theorem witness_DrawsAreFresh :
    State.reset.block.src[(15 : Fin 16)] = .unspecified ∧ State.reset.block.pali[(3 : Fin 4)] = .unspecified ∧
      State.reset.block.fsel = .unspecified ∧
      ∃ t, exec .expand State.reset = .next t ∧ Instr.expand.op ≠ .init ∧ t.block.status = .ok :=
  ⟨by decide, by decide, rfl, _, rfl, by decide, rfl⟩

theorem witness_IdealPaletteFacts : (0x8410 : Half) = 0x8410 := rfl

/-- A numbered platform of two units; unit 1 has written nothing and reads `SRC0`. -/
def pair : Platform where
  units := [written, { State.reset with unit := 1, pending := [.read 0x010 4] }]

/-- A step alone, a step on a numbered platform, and unspecified registers that unit 1 uses or reads. -/
theorem witness_UnitsDrawApart :
    (∃ t, step written = .next t) ∧ UnitsNumbered pair ∧ (∃ p', pair.stepUnit 1 = some (.next p')) ∧
      ∃ s, pair.units[1]? = some s ∧ s.pending = [.read 0x010 4] ∧
        (0x010, Reg.unspecified) ∈ windowTable s.block ∧ s.block.src[(15 : Fin 16)] = .unspecified ∧
        s.block.pali[(3 : Fin 4)] = .unspecified ∧ s.block.fsel = .unspecified ∧ s.block.blki0 = .unspecified ∧
        s.block.blki1 = .unspecified :=
  ⟨⟨_, rfl⟩,
    fun j s h => by
      rcases j with _ | _ | j <;> cases h <;> rfl,
    ⟨_, rfl⟩, _, rfl, rfl, by decide +kernel, by decide, by decide, rfl, rfl, rfl⟩

theorem witness_UnitsIndependent :
    ({ units := [State.reset, written] } : Platform).units[1]? = some written ∧ ∃ t, step written = .next t :=
  ⟨rfl, _, rfl⟩

/-- The least and the greatest offset of each range, and two different ones. -/
theorem witness_ReadAfterWrite :
    (0x004 : Nat) ≠ 0 ∧ 0x010 % 4 = 0 ∧ 0x010 < 0x100 ∧ 0x058 % 4 = 0 ∧ 0x060 % 4 = 0 ∧ 0x06C % 4 = 0 ∧ (0x010 : Nat) ≠ 0x0FC := by decide

end Sys2Proof.Tests
end

