-- ==== Sys2Proof/Proofs/StateRules.lean ====
section
/-! SUPPORT. The proofs of 10_state.md's statements: the state after reset (R25) and the lock on the configuration (R16). -/

namespace Sys2Proof.Machine

open Sys2Proof.Claims

/-! The state after reset (10_state.md R25, R26). -/

/-- A register of the window is an operand or a result register, an array or a single one; each is unspecified at reset. -/
theorem windowTable_reset_unspecified {p : Nat × Reg} (hp : p ∈ windowTable Block.reset) : p.2 = .unspecified := by
  simp only [windowTable, List.mem_append, List.mem_map] at hp
  obtain ((⟨i, -, rfl⟩ | operand) | ⟨i, -, rfl⟩) | result := hp
  · exact Vector.getElem_replicate i.isLt
  · simp only [List.mem_cons, List.not_mem_nil, or_false] at operand
    obtain rfl | rfl | rfl | rfl | rfl | rfl | rfl := operand <;> rfl
  · exact Vector.getElem_replicate i.isLt
  · simp only [List.mem_cons, List.not_mem_nil, or_false] at result
    obtain rfl | rfl | rfl | rfl | rfl | rfl | rfl | rfl | rfl | rfl := result <;> rfl

/-- The window's decoding sends every reserved offset to the reserved slot (20_memory.md R30). -/
theorem slotOf_reservedOffsets : ∀ off ∈ reservedOffsets, slotOf off = .reserved := by decide

/-- A reserved offset reads 0 whatever the block holds (20_memory.md R33). -/
theorem readSlot_reservedOffsets (b : Block) (draw : Word) {off : Nat} (h : off ∈ reservedOffsets) :
    b.readSlot draw (slotOf off) = 0 := by
  rw [slotOf_reservedOffsets off h]
  rfl

/-- Settles O11: the scalar fields by the definition of the reset block, the registers by `windowTable_reset_unspecified`,
and the reserved offsets because they read 0 in every block. -/
theorem resetBlock : Obligations.ResetBlock :=
  ⟨rfl, rfl, rfl, rfl, fun _ hp => windowTable_reset_unspecified hp,
    fun _ hoff draw => readSlot_reservedOffsets Block.reset draw hoff⟩

/-! The lock on the configuration (10_state.md R16, 70_reset_and_hazards.md R191). -/

/-- `CONFIG` (10_state.md R15) is the same in both blocks: `INIT_DONE` and `ENC_MODE`. -/
def Block.KeepsConfig (a b : Block) : Prop := b.initDone = a.initDone ∧ b.encMode = a.encMode

/-- Once initialized, no command changes the configuration: the only one that does is the first INIT. -/
theorem exec_keepsConfig {i : Instr} {s t : State} (hs : s.block.initDone = true) (h : exec i s = .next t) :
    s.block.KeepsConfig t.block := by
  rcases exec_cases i s with ⟨c, hc⟩ | ⟨m, -, hfirst, -⟩ | ⟨b, hb, -, hdone, hmode⟩
  · obtain rfl : s.endWith c = t := by simpa [hc] using h
    exact ⟨rfl, rfl⟩
  · simp [hs] at hfirst
  · obtain rfl : s.complete b = t := by simpa [hb] using h
    exact ⟨hdone, hmode⟩

/-- Once initialized, no word written to `CMD` changes the configuration. -/
theorem runCommand_keepsConfig {w : Word} {s t : State} (hs : s.block.initDone = true) (h : runCommand w s = .next t) :
    s.block.KeepsConfig t.block := by
  rcases runCommand_cases w s with ⟨i, -, hrun⟩ | ⟨r, -, hrun⟩
  · exact exec_keepsConfig hs (hrun ▸ h)
  · obtain rfl : s.endWith (statusOfReject r) = t := by simpa [hrun] using h
    exact ⟨rfl, rfl⟩

/-- A step whose event is no reset keeps the configuration of an initialized block. -/
theorem step_keepsConfig {s t : State} (hs : s.block.initDone = true) (h : step s = .next t)
    (hreset : s.pending.head? ≠ some .reset) : s.block.KeepsConfig t.block := by
  rcases step_cases h with ⟨-, rfl⟩ | ⟨e, rest, hp, hevent⟩
  · exact ⟨rfl, rfl⟩
  · rcases hevent with ⟨off, -, rfl⟩ | ⟨off, v, -, -, rfl⟩ | ⟨w, -, hrun⟩ | ⟨rfl, -⟩
    · exact ⟨rfl, rfl⟩
    · exact ⟨writeSlot_initDone .., writeSlot_encMode ..⟩
    · exact runCommand_keepsConfig (s := { s with pending := rest }) hs hrun
    · simp [hp] at hreset

/-- A step whose event is a reset leaves the reset block. -/
theorem step_reset_block {s t : State} (h : step s = .next t) (hreset : s.pending.head? = some .reset) :
    t.block = Block.reset := by
  obtain ⟨rest, hp⟩ := List.head?_eq_some_iff.mp hreset
  have hstep : step s = .next { s with pending := rest }.platformReset := by simp only [step, hp, State.request]
  obtain rfl : { s with pending := rest }.platformReset = t := by simpa [hstep] using h
  rfl

/-- Settles O15, by the event the step takes: a reset leaves the reset block, every other event keeps the configuration. -/
theorem configLockedUntilReset : Obligations.ConfigLockedUntilReset := by
  intro s t hs h
  split
  case isTrue hreset => rw [step_reset_block h hreset]; rfl
  case isFalse hreset =>
    obtain ⟨hdone, hmode⟩ := step_keepsConfig hs h hreset
    exact ⟨hdone.trans hs, hmode⟩

end Sys2Proof.Machine
end

