-- ==== Sys2Proof/Proofs/HostAccess.lean ====
section
/-! SUPPORT. The proofs of 20_memory.md's statements on host accesses: which slot an offset names (R30), what a read and a
write do (R31-R33), and which accesses take no step (R34). -/

namespace Sys2Proof.Machine

open Sys2Proof.Claims

/-! One rule per kind of host access: the step it makes. -/

/-- A defined read returns what its slot reads, under the unit's next draw; nothing but the host's side moves. -/
theorem step_read {s : State} {off : Nat} {rest : List HostEvent} (hp : s.pending = .read off 4 :: rest)
    (hd : definedAccess off 4 = true) : step s = .next ({ s with pending := rest }.memRead off) := by
  simp only [step, hp, State.request, hd, if_true]

/-- A defined write at another offset than `CMD`'s writes its slot. -/
theorem step_write {s : State} {off : Nat} {v : Word} {rest : List HostEvent} (hp : s.pending = .write off 4 v :: rest)
    (hd : definedAccess off 4 = true) (hcmd : off ≠ 0) : step s = .next ({ s with pending := rest }.memWrite off v) := by
  simp only [step, hp, State.request, hd, hcmd, if_true, if_false]

/-- A write at `CMD`'s offset runs the word as a command. -/
theorem step_write_cmd {s : State} {v : Word} {rest : List HostEvent} (hp : s.pending = .write 0 4 v :: rest) :
    step s = runCommand v { s with pending := rest } := by
  have hd : definedAccess 0 4 = true := by decide
  simp only [step, hp, State.request, hd, if_true]

/-- A read that is not defined is refused. -/
theorem step_read_undefined {s : State} {off size : Nat} {rest : List HostEvent}
    (hp : s.pending = .read off size :: rest) (hd : definedAccess off size = false) :
    step s = .refused (.undefinedAccess off size) := by
  simp [step, hp, State.request, hd]

/-- A write that is not defined is refused, at `CMD`'s offset too. -/
theorem step_write_undefined {s : State} {off size : Nat} {v : Word} {rest : List HostEvent}
    (hp : s.pending = .write off size v :: rest) (hd : definedAccess off size = false) :
    step s = .refused (.undefinedAccess off size) := by
  simp [step, hp, State.request, hd]

/-- The three ways for an access not to be defined (20_memory.md R34). -/
theorem definedAccess_eq_false {off size : Nat} :
    definedAccess off size = false ↔ size ≠ 4 ∨ off % 4 ≠ 0 ∨ 0x100 ≤ off := by
  simp only [definedAccess, Bool.and_eq_false_iff, beq_eq_false_iff_ne, decide_eq_false_iff_not, Nat.not_lt, or_assoc, ne_eq]

/-- Settles O9: each of the three ways makes the access undefined, and an undefined access is refused. -/
theorem undefinedAccessRefused : Obligations.UndefinedAccessRefused := by
  intro s off size v rest h
  have hd := definedAccess_eq_false.mpr h
  exact ⟨fun hp => step_read_undefined hp hd, fun hp => step_write_undefined hp hd⟩

/-! The slots of the window (20_memory.md R30): where each stands, and the access rules for a slot in its place. -/

/-- The slot stands at this offset: a 4-byte access there is defined and reaches it. -/
def Slot.At (k : Slot) (off : Nat) : Prop := definedAccess off 4 = true ∧ slotOf off = k

theorem cmd_at : Slot.cmd.At 0x000 := ⟨rfl, rfl⟩
theorem status_at : Slot.status.At 0x004 := ⟨rfl, rfl⟩
theorem config_at : Slot.config.At 0x008 := ⟨rfl, rfl⟩

theorem src_at : ∀ i : Fin 16, (Slot.src i).At (0x010 + 4 * i.val) := by
  unfold Slot.At
  decide

theorem fsel_at : Slot.fsel.At 0x050 := ⟨rfl, rfl⟩
theorem blki0_at : Slot.blki0.At 0x054 := ⟨rfl, rfl⟩
theorem blki1_at : Slot.blki1.At 0x058 := ⟨rfl, rfl⟩

theorem pali_at : ∀ j : Fin 4, (Slot.pali j).At (0x060 + 4 * j.val) := by
  unfold Slot.At
  decide

theorem dst_at : ∀ i : Fin 16, (Slot.dst i).At (0x080 + 4 * i.val) := by
  unfold Slot.At
  decide

theorem reserved_at {off : Nat} (h : off ∈ reservedOffsets) : Slot.reserved.At off :=
  ⟨(by decide : ∀ off ∈ reservedOffsets, definedAccess off 4 = true) off h, slotOf_reservedOffsets off h⟩

/-- A read of a slot, at its place, returns what the slot reads. -/
theorem stepReplies_of_at {s : State} {off : Nat} {rest : List HostEvent} {k : Slot}
    (hp : s.pending = .read off 4 :: rest) (hk : k.At off) :
    StepReplies s rest (s.block.readSlot (Config.draw s.unit s.draws) k) := by
  obtain ⟨hd, rfl⟩ := hk
  exact ⟨s.draws + 1, step_read hp hd⟩

/-- A write of a slot other than `CMD`, at its place, changes the block by that slot's write alone. -/
theorem stepLeaves_of_at {s : State} {off : Nat} {v : Word} {rest : List HostEvent} {k : Slot}
    (hp : s.pending = .write off 4 v :: rest) (hk : k.At off) (hcmd : k ≠ .cmd) :
    StepLeaves s rest (s.block.writeSlot v k) := by
  obtain ⟨hd, rfl⟩ := hk
  have h0 : off ≠ 0 := by
    rintro rfl
    exact hcmd rfl
  exact step_write hp hd h0

/-! What each slot reads (20_memory.md R31). -/

/-- The slot k of a block holds the register r: reading it uses r. -/
def Block.Holds (b : Block) (k : Slot) (r : Reg) : Prop := ∀ draw, b.readSlot draw k = r.use draw

/-- Every register of the window is held by the slot at its offset: an array's by its index, a single one's by computing
the slot of its fixed offset. -/
theorem windowTable_at {b : Block} {off : Nat} {r : Reg} (h : (off, r) ∈ windowTable b) :
    ∃ k : Slot, k.At off ∧ b.Holds k r := by
  simp only [windowTable, List.mem_append, List.mem_map, Prod.mk.injEq] at h
  obtain ((⟨i, -, rfl, rfl⟩ | operand) | ⟨i, -, rfl, rfl⟩) | result := h
  · exact ⟨.src i, src_at i, fun _ => rfl⟩
  · simp only [List.mem_cons, List.not_mem_nil, or_false, Prod.mk.injEq] at operand
    obtain ⟨rfl, rfl⟩ | ⟨rfl, rfl⟩ | ⟨rfl, rfl⟩ | ⟨rfl, rfl⟩ | ⟨rfl, rfl⟩ | ⟨rfl, rfl⟩ | ⟨rfl, rfl⟩ := operand <;>
      exact ⟨_, ⟨rfl, rfl⟩, fun _ => rfl⟩
  · exact ⟨.dst i, dst_at i, fun _ => rfl⟩
  · simp only [List.mem_cons, List.not_mem_nil, or_false, Prod.mk.injEq] at result
    obtain ⟨rfl, rfl⟩ | ⟨rfl, rfl⟩ | ⟨rfl, rfl⟩ | ⟨rfl, rfl⟩ | ⟨rfl, rfl⟩ | ⟨rfl, rfl⟩ | ⟨rfl, rfl⟩ | ⟨rfl, rfl⟩ |
      ⟨rfl, rfl⟩ | ⟨rfl, rfl⟩ := result <;>
      exact ⟨_, ⟨rfl, rfl⟩, fun _ => rfl⟩

/-- A read of a register of the window uses it with the unit's next draw. -/
theorem stepReplies_of_register {s : State} {off : Nat} {rest : List HostEvent} {r : Reg}
    (hp : s.pending = .read off 4 :: rest) (h : (off, r) ∈ windowTable s.block) :
    StepReplies s rest (r.use (Config.draw s.unit s.draws)) := by
  obtain ⟨k, hk, holds⟩ := windowTable_at h
  exact holds _ ▸ stepReplies_of_at hp hk

/-- The `STATUS` word is the number of its code (10_state.md R14). -/
theorem statusWord_eq (c : Status) : statusWord c = BitVec.ofNat 32 (statusNumber c) := by
  cases c <;> rfl

/-- The `CONFIG` word is `INIT_DONE` in bit 0 and the number of `ENC_MODE` above it, and 0 before INIT (10_state.md R15). -/
theorem configWord_eq (b : Block) :
    configWord b = if b.initDone then BitVec.ofNat 32 (1 + 2 * modeNumber b.encMode) else 0 := by
  have hmode : ∀ m : Mode, (m.code ++ (1 : BitVec 1)).zeroExtend 32 = BitVec.ofNat 32 (1 + 2 * modeNumber m) := by
    rintro (_ | v)
    · rfl
    · cases v <;> rfl
  simp only [configWord, hmode]

/-- Settles O7: each offset is the place of a slot, and the read returns what that slot reads. -/
theorem hostReadRule : Obligations.HostReadRule := by
  intro s off rest hp
  exact ⟨fun h => stepReplies_of_at (k := .cmd) hp (h ▸ cmd_at),
    fun h => statusWord_eq s.block.status ▸ stepReplies_of_at (k := .status) hp (h ▸ status_at),
    fun h => configWord_eq s.block ▸ stepReplies_of_at (k := .config) hp (h ▸ config_at),
    fun _ h => stepReplies_of_register hp h,
    fun h => ⟨s.draws, stepReplies_of_register hp h⟩,
    fun h => stepReplies_of_at hp (reserved_at h)⟩

/-! What each slot does when it is written (20_memory.md R32, R33). -/

/-- The slot is an `RW` register of the table of 10_state.md R11. -/
def Slot.rw : Slot → Bool
  | .src _ | .fsel | .blki0 | .blki1 | .pali _ => true
  | _ => false

/-- A write of a slot that is no `RW` register changes nothing. -/
theorem writeSlot_of_not_rw (b : Block) (v : Word) {k : Slot} (h : k.rw = false) : b.writeSlot v k = b := by
  cases k with
  | src | fsel | blki0 | blki1 | pali => cases h
  | _ => rfl

/-- The offsets of the `R` registers are the places of slots that are neither `CMD` nor an `RW` register. -/
theorem readOnly_at : ∀ off ∈ readOnlyOffsets,
    (slotOf off).At off ∧ slotOf off ≠ .cmd ∧ (slotOf off).rw = false := by
  unfold Slot.At
  decide

/-- A write at an `R` register or a reserved slot leaves the block as it is. -/
theorem stepLeaves_of_not_rw {s : State} {off : Nat} {v : Word} {rest : List HostEvent}
    (hp : s.pending = .write off 4 v :: rest) (h : off ∈ readOnlyOffsets ∨ off ∈ reservedOffsets) :
    StepLeaves s rest s.block := by
  obtain hro | hres := h
  · obtain ⟨hk, hcmd, hrw⟩ := readOnly_at off hro
    exact writeSlot_of_not_rw s.block v hrw ▸ stepLeaves_of_at hp hk hcmd
  · exact stepLeaves_of_at hp (reserved_at hres) nofun

/-- Settles O8: each offset is the place of a slot; `CMD`'s runs the word, an `RW` register's sets it, every other one's
changes nothing. -/
theorem hostWriteRule : Obligations.HostWriteRule := by
  intro s off v rest hp
  exact ⟨fun h => step_write_cmd (h ▸ hp),
    fun i h => stepLeaves_of_at (k := .src i) hp (h ▸ src_at i) nofun,
    fun h => stepLeaves_of_at (k := .fsel) hp (h ▸ fsel_at) nofun,
    fun h => stepLeaves_of_at (k := .blki0) hp (h ▸ blki0_at) nofun,
    fun h => stepLeaves_of_at (k := .blki1) hp (h ▸ blki1_at) nofun,
    fun j h => stepLeaves_of_at (k := .pali j) hp (h ▸ pali_at j) nofun,
    stepLeaves_of_not_rw hp⟩

end Sys2Proof.Machine
end

