-- ==== Sys2Proof/Proofs/WireForm.lean ====
section
/-! SUPPORT. The proof of the statement on the wire form of a block (20_memory.md R36, R37): its bytes in two registers. -/

namespace Sys2Proof.Machine

/-- A register is its four bytes, byte 0 in the low bits (20_memory.md R37). -/
theorem append_byteOf (w : Word) : (byteOf w 3 ++ byteOf w 2 ++ byteOf w 1 ++ byteOf w 0 : Word) = w := by
  simp only [byteOf]
  repeat rw [BitVec.extractLsb'_append_extractLsb'_eq_extractLsb' (by rfl)]
  exact BitVec.extractLsb'_eq_self

/-- The low half of a register is its bytes 1 and 0. -/
theorem c0Of_eq_append (w : Word) : c0Of w = byteOf w 1 ++ byteOf w 0 :=
  (BitVec.extractLsb'_append_extractLsb'_eq_extractLsb' (x := w) (start₁ := 0) (len₁ := 8) (len₂ := 8) rfl).symm

/-- The high half of a register is its bytes 3 and 2. -/
theorem c1Of_eq_append (w : Word) : c1Of w = byteOf w 3 ++ byteOf w 2 :=
  (BitVec.extractLsb'_append_extractLsb'_eq_extractLsb' (x := w) (start₁ := 16) (len₁ := 8) (len₂ := 8) rfl).symm

/-- Byte 0 of a word with a byte put below it is that byte. -/
theorem extractByte_zero_append {n : Nat} (hi : BitVec n) (lo : Byte) : (hi ++ lo).extractLsb' (8 * 0) 8 = lo :=
  BitVec.extractLsb'_append_eq_right

/-- Every further byte of it is a byte of the word above. -/
theorem extractByte_succ_append {n : Nat} (hi : BitVec n) (lo : Byte) (k : Nat) :
    (hi ++ lo).extractLsb' (8 * (k + 1)) 8 = hi.extractLsb' (8 * k) 8 := by
  rw [BitVec.extractLsb'_append_eq_of_le (by omega), show 8 * (k + 1) - 8 = 8 * k by omega]

/-- Byte k of four bytes put together is the k-th of them. -/
theorem byteOf_append (b3 b2 b1 b0 : Byte) :
    byteOf (b3 ++ b2 ++ b1 ++ b0) 0 = b0 ∧ byteOf (b3 ++ b2 ++ b1 ++ b0) 1 = b1 ∧
      byteOf (b3 ++ b2 ++ b1 ++ b0) 2 = b2 ∧ byteOf (b3 ++ b2 ++ b1 ++ b0) 3 = b3 := by
  have above0 := extractByte_succ_append (b3 ++ b2 ++ b1) b0
  have above1 := extractByte_succ_append (b3 ++ b2) b1
  have above2 := extractByte_succ_append b3 b2
  refine ⟨extractByte_zero_append _ b0, ?_, ?_, ?_⟩
  · exact (above0 0).trans (extractByte_zero_append _ b1)
  · exact (above0 1).trans ((above1 0).trans (extractByte_zero_append _ b2))
  · exact (above0 2).trans ((above1 1).trans ((above2 0).trans BitVec.extractLsb'_eq_self))

/-- Selector i stands in byte i / 4 of the selector word, low to high (20_memory.md R36). -/
theorem sel_eq_byteOf (w : Word) (i : Fin 16) :
    (sel w i).toNat = (byteOf w (i.val / 4)).toNat / 2 ^ (2 * (i.val % 4)) % 4 := by
  have hsel : sel w i = (byteOf w (i.val / 4)).extractLsb' (2 * (i.val % 4)) 2 := by
    ext k hk
    have hbit : 2 * (i.val % 4) + k < 8 := by omega
    have hpos : 8 * (i.val / 4) + (2 * (i.val % 4) + k) = 2 * i.val + k := by omega
    simp [sel, byteOf, hbit, hpos]
  rw [hsel, BitVec.extractLsb'_toNat, Nat.shiftRight_eq_div_pow]

/-- Wire bytes 4..7 are the bytes of the second register. -/
theorem wireBytes_second (b0 b1 : Word) (k : Nat) (hk : k < 4) : (wireBytes b0 b1)[4 + k] = byteOf b1 k := by
  simp [wireBytes]

/-- The registers come back from their wire bytes. -/
theorem registersOfWire_wireBytes (b0 b1 : Word) : registersOfWire (wireBytes b0 b1) = (b0, b1) :=
  Prod.ext (append_byteOf b0) (append_byteOf b1)

/-- The wire bytes come back from their registers. -/
theorem wireBytes_registersOfWire (bytes : Vector Byte 8) :
    wireBytes (registersOfWire bytes).1 (registersOfWire bytes).2 = bytes := by
  obtain ⟨h0, h1, h2, h3⟩ := byteOf_append bytes[3] bytes[2] bytes[1] bytes[0]
  obtain ⟨h4, h5, h6, h7⟩ := byteOf_append bytes[7] bytes[6] bytes[5] bytes[4]
  ext1 k hk
  match k with
  | 0 => exact h0
  | 1 => exact h1
  | 2 => exact h2
  | 3 => exact h3
  | 4 => exact h4
  | 5 => exact h5
  | 6 => exact h6
  | 7 => exact h7

/-- Settles O41: the words and selectors by the bytes of each register, the two directions by the round trips. -/
theorem wireForm : Obligations.WireForm := by
  refine ⟨fun b0 b1 => ⟨c0Of_eq_append b0, c1Of_eq_append b0, fun i => ?_, registersOfWire_wireBytes b0 b1⟩,
    wireBytes_registersOfWire⟩
  rw [wireBytes_second b0 b1 (i.val / 4) (by omega)]
  exact sel_eq_byteOf b1 i

end Sys2Proof.Machine
end

