-- ==== Sys2Proof/Proofs/CommandWords.lean ====
section
/-! SUPPORT. The command word's fields as numbers (30_encoding.md R51), and what the words of one `OP` do (R54): the half of
every command's statement that speaks of its words. -/

namespace Sys2Proof.Machine

open Sys2Proof.Claims

/-! The fields of a word, as `bits` reads them. -/

theorem extractLsb'_toNat_eq_bits (w : Word) (lo len : Nat) : (w.extractLsb' lo len).toNat = bits w lo len := by
  rw [BitVec.extractLsb'_toNat, Nat.shiftRight_eq_div_pow, bits]

theorem extractLsb'_eq_ofNat_bits (w : Word) (lo len : Nat) : w.extractLsb' lo len = BitVec.ofNat len (bits w lo len) := by
  rw [← extractLsb'_toNat_eq_bits, BitVec.ofNat_toNat, BitVec.setWidth_eq]

/-- A flag "is true iff its bit is 1" (30_encoding.md R55). -/
theorem getLsbD_eq_bits (w : Word) (lo : Nat) : w.getLsbD lo = (bits w lo 1 == 1) := by
  rw [BitVec.getLsbD, Nat.testBit_eq_decide_div_mod_eq, bits, pow_one]
  rfl

theorem modeOfCode_eq_modeOf : ∀ c : BitVec 2, modeOfCode c = modeOf c.toNat := by decide

theorem fieldMode_eq_modeOf (w : Word) : fieldMode w = modeOf (bits w 4 2) := by
  rw [fieldMode, modeOfCode_eq_modeOf, extractLsb'_toNat_eq_bits]

/-! The words of an operation (30_encoding.md R54). -/

theorem opOfCode_code (op : Op) : opOfCode op.code = some op := by
  cases op <;> rfl

/-- The decoder on a word of an operation: only the mask is left to check. -/
theorem decodeCommand_of_fieldOp {w : Word} {op : Op} (h : fieldOp w = op.code) :
    decodeCommand w = if w &&& ~~~op.legal = 0 then .accept (assemble op w) else .reject .reservedField := by
  simp only [decodeCommand, h, opOfCode_code]

/-- The words of an operation run the command its fields assemble to, or are rejected for a reserved bit. -/
theorem commandWords_of_assemble (op : Op) {command : Word → Instr} (h : ∀ w, assemble op w = command w) :
    CommandWords op.code.toNat op.legal command := by
  intro w s hop
  have hcode : fieldOp w = op.code := BitVec.eq_of_toNat_eq ((extractLsb'_toNat_eq_bits w 0 4).trans hop)
  have hdecode := decodeCommand_of_fieldOp hcode
  constructor
  · intro hreserved
    rw [if_neg hreserved] at hdecode
    simp only [runCommand, hdecode]
    rfl
  · intro hlegal
    rw [if_pos hlegal, h] at hdecode
    simp only [runCommand, hdecode]

end Sys2Proof.Machine
end

