-- ==== Sys2Proof/Proofs/Quantizer.lean ====
section
/-! SUPPORT. The proofs of 40_quantizer.md's statements on its commands QUANTIZE, EXPAND and PALETTE (R85-R87): the machine's
quantizer, expander and palettes as the plain numbers of R70-R79. -/

namespace Sys2Proof.Machine

open Sys2Proof.Claims

/-- A command that completes answers its results with the status `OK`, and keeps the host side. -/
theorem answers_complete (s : State) (b : Block) : Answers (.next (s.complete b)) s { b with status := .ok } := ⟨_, rfl⟩

/-! The fields of a packed 565 word (30_encoding.md R57). -/

theorem red5_toNat (w : Half) : (red5 w).toNat = w.toNat / 2 ^ 11 := by
  rw [red5, BitVec.extractLsb'_toNat, Nat.shiftRight_eq_div_pow, Nat.mod_eq_of_lt (by omega)]

theorem green6_toNat (w : Half) : (green6 w).toNat = w.toNat / 2 ^ 5 % 2 ^ 6 := by
  rw [green6, BitVec.extractLsb'_toNat, Nat.shiftRight_eq_div_pow]

theorem blue5_toNat (w : Half) : (blue5 w).toNat = w.toNat % 2 ^ 5 := by
  rw [blue5, BitVec.extractLsb'_toNat, Nat.shiftRight_zero]

@[simp] theorem red5_pack565 (r : BitVec 5) (g : BitVec 6) (b : BitVec 5) : red5 (pack565 r g b) = r := by
  rw [red5, pack565, BitVec.extractLsb'_append_eq_of_le (by omega), BitVec.extractLsb'_append_eq_of_le (by omega)]
  exact BitVec.extractLsb'_eq_self

@[simp] theorem green6_pack565 (r : BitVec 5) (g : BitVec 6) (b : BitVec 5) : green6 (pack565 r g b) = g := by
  rw [green6, pack565, BitVec.extractLsb'_append_eq_of_le (by omega)]
  exact BitVec.extractLsb'_append_eq_right

@[simp] theorem blue5_pack565 (r : BitVec 5) (g : BitVec 6) (b : BitVec 5) : blue5 (pack565 r g b) = b :=
  BitVec.extractLsb'_append_eq_right

/-! Expansion (40_quantizer.md R70-R72). -/

theorem expand5_toNat (v : BitVec 5) : (expand5 v).toNat = e5 v.toNat := by
  revert v
  decide

theorem expand6_toNat (v : BitVec 6) : (expand6 v).toNat = e6 v.toNat := by
  revert v
  decide

theorem channelsOf_expand565 (w : Half) : channelsOf (expand565 w) = expandOf w := by
  simp only [channelsOf, expand565, expandOf, expand5_toNat, expand6_toNat, red5_toNat, green6_toNat, blue5_toNat]

/-! Quantization (40_quantizer.md R74, R75). -/

theorem absDiff_eq_gap (a b : Byte) : absDiff a b = gap a.toNat b.toNat := by
  simp only [absDiff, gap]
  omega

theorem leastAt_leastArgmin (f : Nat → Nat) (n : Nat) : LeastAt f n (leastArgmin f n) :=
  ⟨leastArgmin_le f n, fun _ => leastArgmin_min f, fun _ => leastArgmin_least f⟩

/-- Where a function is least depends on its values at 0..last alone. -/
theorem leastAt_congr {f g : Nat → Nat} {last q : Nat} (h : LeastAt f last q) (hfg : ∀ j ≤ last, f j = g j) :
    LeastAt g last q := by
  obtain ⟨hq, hmin, hleast⟩ := h
  refine ⟨hq, fun j hj => ?_, fun j hj => ?_⟩
  · rw [← hfg q hq, ← hfg j hj]
    exact hmin j hj
  · rw [← hfg q hq, ← hfg j (by omega)]
    exact hleast j hj

/-- The code of n bits that the argmin over all of them names is the least whose expansion is nearest to x. -/
theorem leastAt_nearestCode {n : Nat} {expand : BitVec n → Byte} {e : Nat → Nat}
    (he : ∀ v, (expand v).toNat = e v.toNat) (x : Byte) :
    LeastAt (fun v => gap (e v) x.toNat) (2 ^ n - 1)
      (BitVec.ofNat n (leastArgmin (fun q => absDiff (expand (BitVec.ofNat n q)) x) (2 ^ n - 1))).toNat := by
  have code_toNat : ∀ q ≤ 2 ^ n - 1, (BitVec.ofNat n q).toNat = q := fun q hq =>
    Nat.mod_eq_of_lt (Nat.lt_of_le_pred (Nat.two_pow_pos n) hq)
  rw [code_toNat _ (leastArgmin_le _ _)]
  refine leastAt_congr (leastAt_leastArgmin _ _) fun q hq => ?_
  rw [absDiff_eq_gap, he, code_toNat q hq]

theorem quant5_leastAt (x : Byte) : LeastAt (fun v => gap (e5 v) x.toNat) 31 (quant5 x).toNat :=
  leastAt_nearestCode expand5_toNat x

theorem quant6_leastAt (x : Byte) : LeastAt (fun v => gap (e6 v) x.toNat) 63 (quant6 x).toNat :=
  leastAt_nearestCode expand6_toNat x

/-- The machine's quantizer is `Quant` of R74 and R75. -/
theorem quantOf_quantize (m : Mode) (x : Rgb) : QuantOf m x (quantize m x) := by
  cases m with
  | ideal =>
    refine ⟨fun _ => ?_, nofun⟩
    simp only [← red5_toNat, ← green6_toNat, ← blue5_toNat, quantize, red5_pack565, green6_pack565, blue5_pack565]
    exact ⟨quant5_leastAt x.r, quant6_leastAt x.g, quant5_leastAt x.b⟩
  | vendor v =>
    refine ⟨nofun, fun u hu => ?_⟩
    cases hu
    rfl

/-- Settles O19: the words by the fields of R54, the result by the quantizer on the channels of `SRC0`. -/
theorem quantizeRule : Obligations.QuantizeRule := by
  refine ⟨commandWords_of_assemble .quantize fun w => congrArg Instr.quantize (fieldMode_eq_modeOf w), fun m s => ?_⟩
  obtain ⟨hideal, hvendor⟩ := quantOf_quantize m (texelOfWord (s.srcWord 0)).rgb
  refine ⟨quantize m (texelOfWord (s.srcWord 0)).rgb, ?_, ?_, hvendor⟩
  · rw [BitVec.ofNat_toNat]
    exact answers_complete s _
  · simpa only [texelOfWord, extractLsb'_toNat_eq_bits] using hideal

/-! The words of a texel and of an endpoint pair, as numbers (30_encoding.md R56, 20_memory.md R37). -/

theorem c0Of_eq_lowHalf (w : Word) : c0Of w = lowHalf w := extractLsb'_eq_ofNat_bits w 0 16

theorem c1Of_eq_highHalf (w : Word) : c1Of w = highHalf w := extractLsb'_eq_ofNat_bits w 16 16

/-- Two words put together, as a number: the upper one stands above the lower one's bits. -/
theorem append_toNat_eq_add {n k : Nat} (x : BitVec n) (y : BitVec k) :
    (x ++ y).toNat = x.toNat * 2 ^ k + y.toNat := by
  rw [BitVec.toNat_append, ← Nat.shiftLeft_add_eq_or_of_lt y.isLt, Nat.shiftLeft_eq]

theorem wordOfTexel_eq_texelNumber (t : Texel) :
    wordOfTexel t = BitVec.ofNat 32 (texelNumber (channelsOf t.rgb) t.a.toNat) := by
  apply BitVec.eq_of_toNat_eq
  simp only [wordOfTexel, append_toNat_eq_add, BitVec.toNat_ofNat, texelNumber, channelsOf]
  omega

theorem opaqueWord_eq_texelNumber (c : Rgb) : opaqueWord c = BitVec.ofNat 32 (texelNumber (channelsOf c) 255) :=
  wordOfTexel_eq_texelNumber { rgb := c, a := 255 }

/-- Settles O20: the words by the mask alone, the results by the expansion of each half of `BLKI0`. -/
theorem expandRule : Obligations.ExpandRule := by
  refine ⟨commandWords_of_assemble .expand fun _ => rfl, fun s => ?_⟩
  simp only [← channelsOf_expand565, ← c0Of_eq_lowHalf, ← c1Of_eq_highHalf, ← opaqueWord_eq_texelNumber]
  exact answers_complete s _

/-! The palettes (40_quantizer.md R77-R79). -/

/-- A channel function that is `g` on numbers mixes two expanded colors as `g` does. -/
theorem channelsOf_rgbZip_expand565 {f : Byte → Byte → Byte} (g : Nat → Nat → Nat)
    (h : ∀ a b, (f a b).toNat = g a.toNat b.toNat) (c0 c1 : Half) :
    channelsOf (rgbZip f (expand565 c0) (expand565 c1)) = mix g (expandOf c0) (expandOf c1) := by
  rw [← channelsOf_expand565, ← channelsOf_expand565]
  simp only [channelsOf, rgbZip, mix, h]

theorem twoThirds_toNat (a b : Byte) : (twoThirds a b).toNat = (2 * a.toNat + b.toNat) / 3 := by
  rw [twoThirds, BitVec.toNat_ofNat, Nat.mod_eq_of_lt (by omega)]

/-- Entry 3's formula is entry 2's with the endpoints exchanged. -/
theorem twoThirds_swap_toNat (a b : Byte) : (twoThirds b a).toNat = (a.toNat + 2 * b.toNat) / 3 := by
  rw [twoThirds_toNat, Nat.add_comm]

theorem midpoint_toNat (a b : Byte) : (midpoint a b).toNat = (a.toNat + b.toNat) / 2 := by
  rw [midpoint, BitVec.toNat_ofNat, Nat.mod_eq_of_lt (by omega)]

/-- Every entry of the 4-color palette is that of R77, or a vendor's of R79. -/
theorem channelsOf_pal4 (m : Mode) (c0 c1 : Half) {j : Nat} (hj : j < 4) :
    channelsOf (entry (pal4 m c0 c1) j) = pal4Entry m c0 c1 j := by
  match j, m with
  | 0, _ => exact channelsOf_expand565 c0
  | 1, _ => exact channelsOf_expand565 c1
  | 2, .ideal => exact channelsOf_rgbZip_expand565 (fun a b => (2 * a + b) / 3) twoThirds_toNat c0 c1
  | 3, .ideal => exact channelsOf_rgbZip_expand565 (fun a b => (a + 2 * b) / 3) twoThirds_swap_toNat c0 c1
  | 2, .vendor _ | 3, .vendor _ => rfl

/-- Every entry of the 3-color palette is that of R78, or a vendor's of R79. -/
theorem channelsOf_pal3 (m : Mode) (c0 c1 : Half) {j : Nat} (hj : j < 3) :
    channelsOf (entry (pal3 m c0 c1) j) = pal3Entry m c0 c1 j := by
  match j, m with
  | 0, _ => exact channelsOf_expand565 c0
  | 1, _ => exact channelsOf_expand565 c1
  | 2, .ideal => exact channelsOf_rgbZip_expand565 (fun a b => (a + b) / 2) midpoint_toNat c0 c1
  | 2, .vendor _ => rfl

/-- The words PALETTE writes: the entries of its palette with alpha 255, and transparent black as `COUNT3`'s fourth. -/
theorem paletteWords_eq_texelNumber (m : Mode) (count3 : Bool) (c0 c1 : Half) (j : Fin 4) :
    paletteWords m count3 c0 c1 j = BitVec.ofNat 32
      (if count3 then if j.val < 3 then texelNumber (pal3Entry m c0 c1 j.val) 255 else 0
      else texelNumber (pal4Entry m c0 c1 j.val) 255) := by
  cases count3 with
  | false =>
    simp only [paletteWords, opaqueWord_eq_texelNumber, channelsOf_pal4 m c0 c1 j.isLt, Bool.false_eq_true, if_false]
  | true =>
    by_cases hj : j.val < 3
    · simp only [paletteWords, hj, opaqueWord_eq_texelNumber, channelsOf_pal3 m c0 c1 hj, if_true]
    · simp only [paletteWords, hj, if_true, if_false]
      rfl

/-- Writing `PALO0..PALO3` one after the other sets each to its word. -/
theorem putPalo_all (b : Block) (w : Fin 4 → Word) :
    (((b.putPalo 0 (w 0)).putPalo 1 (w 1)).putPalo 2 (w 2)).putPalo 3 (w 3) =
      { b with palo := Vector.ofFn fun j => .value (w j) } := by
  simp only [Block.putPalo, Block.mk.injEq, true_and]
  ext1 j hj
  match j with
  | 0 | 1 | 2 | 3 => simp

/-- PALETTE's results: all four words of `PALO`. -/
theorem exec_palette (m : Mode) (count3 : Bool) (s : State) :
    exec (.palette m count3) s = .next (s.complete { s.block with
      palo := Vector.ofFn fun j => .value (paletteWords m count3 (c0Of s.blki0Word) (c1Of s.blki0Word) j) }) := by
  rw [← putPalo_all]
  rfl

/-- Settles O21: the words by the fields of R54, the four results by the palettes' entries. -/
theorem paletteRule : Obligations.PaletteRule := by
  refine ⟨commandWords_of_assemble .palette fun w =>
    congrArg₂ Instr.palette (fieldMode_eq_modeOf w) (getLsbD_eq_bits w 10), fun m count3 s => ?_⟩
  rw [exec_palette]
  refine ⟨_, answers_complete s _, fun j => ?_⟩
  rw [← c0Of_eq_lowHalf, ← c1Of_eq_highHalf, ← paletteWords_eq_texelNumber]
  exact Vector.getElem_ofFn j.isLt

end Sys2Proof.Machine
end

