-- ==== Sys2Proof/Proofs/Decoder.lean ====
section
/-! SUPPORT. The proof of 41_decoder.md's statement on its command DECODE (R95): the machine's decoded texels as the plain
numbers of R90-R93. -/

namespace Sys2Proof.Machine

open Sys2Proof.Claims

theorem isThreeColor_iff (c0 c1 : Half) : isThreeColor c0 c1 = true ↔ c0.toNat ≤ c1.toNat := by
  rw [isThreeColor, decide_eq_true_iff, BitVec.le_def]

theorem infoWord_eq_ite (uses3 : Bool) : infoWord uses3 = if uses3 then 1 else 0 := by
  cases uses3 <;> rfl

theorem infoWord_isThreeColor (c0 c1 : Half) :
    infoWord (isThreeColor c0 c1) = if c0.toNat ≤ c1.toNat then 1 else 0 := by
  simp only [infoWord_eq_ite, isThreeColor_iff]

theorem sel_toNat_eq_selectorOf (w : Word) (i : Fin 16) : (sel w i).toNat = selectorOf w i :=
  extractLsb'_toNat_eq_bits w (2 * i.val) 2

/-- A texel of a 4-color block (41_decoder.md R92): every selector names a palette entry. -/
theorem wordOfTexel_texel4 (m : Mode) (c0 c1 : Half) (k : Selector) :
    wordOfTexel (texel4 (pal4 m c0 c1) k) = BitVec.ofNat 32 (texelNumber (pal4Entry m c0 c1 k.toNat) 255) := by
  rw [← channelsOf_pal4 m c0 c1 k.isLt]
  exact opaqueWord_eq_texelNumber _

/-- A texel of a 3-color block (41_decoder.md R93): selector 3 is transparent black with `SET_ALPHA` and entry 2 without. -/
theorem wordOfTexel_texel3 (m : Mode) (c0 c1 : Half) (setAlpha : Bool) (k : Selector) :
    wordOfTexel (texel3 (pal3 m c0 c1) setAlpha k) = BitVec.ofNat 32
      (if k.toNat < 3 then texelNumber (pal3Entry m c0 c1 k.toNat) 255
      else if setAlpha then 0
      else texelNumber (pal3Entry m c0 c1 2) 255) := by
  by_cases hk : k.toNat < 3
  · rw [texel3, if_pos hk, if_pos hk, ← channelsOf_pal3 m c0 c1 hk]
    exact opaqueWord_eq_texelNumber _
  · rw [texel3, if_neg hk, if_neg hk]
    cases setAlpha with
    | true =>
      rw [if_pos rfl, if_pos rfl]
      rfl
    | false =>
      rw [← channelsOf_pal3 m c0 c1 (by omega)]
      exact opaqueWord_eq_texelNumber _

/-- Every decoded texel is the number of R92 or R93, as the order of the endpoints says (41_decoder.md R90). -/
theorem wordOfTexel_decodeTexel (m : Mode) (c0 c1 : Half) (sels : Word) (setAlpha : Bool) (i : Fin 16) :
    wordOfTexel (decodeTexel m c0 c1 sels setAlpha i) =
      BitVec.ofNat 32 (decodedNumber m c0 c1 setAlpha (selectorOf sels i)) := by
  rw [decodeTexel, decodedNumber, ← sel_toNat_eq_selectorOf]
  by_cases h : c0.toNat ≤ c1.toNat
  · rw [if_pos ((isThreeColor_iff c0 c1).mpr h), if_neg (Nat.not_lt.mpr h)]
    exact wordOfTexel_texel3 m c0 c1 setAlpha (sel sels i)
  · rw [if_neg (mt (isThreeColor_iff c0 c1).mp h), if_pos (Nat.lt_of_not_le h)]
    exact wordOfTexel_texel4 m c0 c1 (sel sels i)

/-- Settles O22: the words by the fields of R54, `INFO` by the order of the endpoints, `DST` texel by texel. -/
theorem decodeRule : Obligations.DecodeRule := by
  refine ⟨commandWords_of_assemble .decode fun w =>
    congrArg₂ Instr.decode (fieldMode_eq_modeOf w) (getLsbD_eq_bits w 6), fun m setAlpha s => ?_⟩
  simp only [← c0Of_eq_lowHalf, ← c1Of_eq_highHalf, ← wordOfTexel_decodeTexel, ← infoWord_isThreeColor]
  exact ⟨_, answers_complete s _, fun i => Vector.getElem_ofFn i.isLt⟩

end Sys2Proof.Machine
end

