-- ==== Sys2Proof/Proofs/Selector.lean ====
section
/-! SUPPORT. The proof of 42_selector.md's statement on its command ASSIGN (R105): the machine's nearest entries and total
error as the plain numbers of R100-R102. -/

namespace Sys2Proof.Machine

open Sys2Proof.Claims

/-! The words ASSIGN reads and writes (30_encoding.md R56, R58). -/

theorem channelsOf_texelOfWord (w : Word) : channelsOf (texelOfWord w).rgb = rgbOfWord w := by
  simp only [channelsOf, texelOfWord, extractLsb'_toNat_eq_bits, rgbOfWord]

theorem channelsOf_sourceTexels (s : State) (i : Fin 16) :
    channelsOf s.sourceTexels[i].rgb = rgbOfWord (s.srcWord i) := by
  rw [State.sourceTexels, Fin.getElem_fin, Vector.getElem_ofFn, channelsOf_texelOfWord]

theorem selectorOf_packSelectors (f : Fin 16 → Selector) (i : Fin 16) : selectorOf (packSelectors f) i = (f i).toNat := by
  rw [← sel_toNat_eq_selectorOf, sel_packSelectors]

/-! The error and the nearest entry (42_selector.md R100-R102). -/

theorem colorErr_eq_errOf (x p : Rgb) : colorErr x p = errOf (channelsOf x) (channelsOf p) := by
  simp only [colorErr, absDiff_eq_gap, errOf, channelsOf]

/-- The nearest entry of a palette is the least index of the least error among all of the palette's. -/
theorem leastAt_nearest {p : List Rgb} (x : Rgb) (h4 : p.length ≤ 4) :
    LeastAt (fun j => errOf (channelsOf x) (channelsOf (entry p j))) (p.length - 1) (nearest p x).toNat := by
  simp only [nearest_toNat p x h4, ← colorErr_eq_errOf]
  exact leastAt_leastArgmin _ _

theorem texelIndices_eq_finRange : texelIndices = List.finRange 16 := by decide

/-- The total error over all 16 texels is the plain sum. -/
theorem totalErr_texelIndices (x : Vector Texel 16) (p : List Rgb) (f : Fin 16 → Selector) :
    totalErr x p f texelIndices =
      ∑ i : Fin 16, errOf (channelsOf x[i].rgb) (channelsOf (entry p (f i).toNat)) := by
  simp only [totalErr, colorErr_eq_errOf, Fin.sum_univ_def, texelIndices_eq_finRange]

/-! ASSIGN's palette (42_selector.md R105): N = `NPAL` + 1 entries. -/

theorem paletteOperand_length (s : State) (npal : BitVec 2) : (s.paletteOperand npal).length = npal.toNat + 1 := by
  have := npal.isLt
  simp only [State.paletteOperand, List.length_map, List.length_take, List.length_cons, List.length_nil]
  omega

theorem channelsOf_paletteOperand (s : State) {npal : BitVec 2} {j : Nat} (hj : j ≤ npal.toNat) :
    channelsOf (entry (s.paletteOperand npal) j) = rgbOfWord (s.paliWord (Fin.ofNat 4 j)) := by
  have hindex : ([0, 1, 2, 3] : List (Fin 4))[j]? = some (Fin.ofNat 4 j) :=
    match j, (by omega : j < 4) with
    | 0, _ | 1, _ | 2, _ | 3, _ => rfl
  simp only [entry, State.paletteOperand, List.getD_eq_getElem?_getD, List.getElem?_map,
    List.getElem?_take_of_lt (Nat.lt_succ_of_le hj), hindex, Option.map_some, Option.getD_some, channelsOf_texelOfWord]

/-! The command's results. -/

/-- The selectors ASSIGN chooses. -/
def State.assignSelectors (s : State) (npal : BitVec 2) (i : Fin 16) : Selector :=
  nearest (s.paletteOperand npal) s.sourceTexels[i].rgb

/-- The total error of ASSIGN's selectors. -/
def State.assignErr (s : State) (npal : BitVec 2) : Nat :=
  totalErr s.sourceTexels (s.paletteOperand npal) (s.assignSelectors npal) texelIndices

theorem exec_assign {npal : BitVec 2} (h : npal ≠ 0) (s : State) :
    exec (.assign npal) s =
      .next (s.complete (s.block.putSelection (packSelectors (s.assignSelectors npal)) (s.assignErr npal))) :=
  if_neg h

/-- Each selector of ASSIGN is the least nearest of the N entries. -/
theorem leastAt_assignSelectors (s : State) (npal : BitVec 2) (i : Fin 16) :
    LeastAt (fun j => errOf (rgbOfWord (s.srcWord i)) (rgbOfWord (s.paliWord (Fin.ofNat 4 j)))) npal.toNat
      (s.assignSelectors npal i).toNat := by
  have hlen := paletteOperand_length s npal
  have hleast := leastAt_nearest s.sourceTexels[i].rgb (p := s.paletteOperand npal) (by omega)
  rw [hlen, Nat.add_sub_cancel] at hleast
  refine leastAt_congr hleast fun j hj => ?_
  rw [channelsOf_sourceTexels, channelsOf_paletteOperand s hj]

/-- The error of ASSIGN is the sum of the texels' errors from the entries its selectors name. -/
theorem assignErr_eq_sum (s : State) (npal : BitVec 2) :
    s.assignErr npal = ∑ i : Fin 16,
      errOf (rgbOfWord (s.srcWord i)) (rgbOfWord (s.paliWord (Fin.ofNat 4 (s.assignSelectors npal i).toNat))) := by
  refine (totalErr_texelIndices _ _ _).trans (Finset.sum_congr rfl fun i _ => ?_)
  obtain ⟨hle, -, -⟩ := leastAt_assignSelectors s npal i
  rw [channelsOf_sourceTexels, channelsOf_paletteOperand s hle]

/-- Settles O23: the words by the field of R54, `NPAL` = 0 by the check, the selectors by the nearest entries and the error
by its sum. -/
theorem assignRule : Obligations.AssignRule := by
  refine ⟨commandWords_of_assemble .assign fun w => congrArg Instr.assign (extractLsb'_eq_ofNat_bits w 11 2),
    fun s => rfl, fun npal s h => ⟨packSelectors (s.assignSelectors npal), s.assignErr npal, ?_, ?_, ?_, ?_⟩⟩
  · rw [exec_assign h]
    exact answers_complete s _
  · simp only [selectorOf_packSelectors]
    exact leastAt_assignSelectors s npal
  · simp only [selectorOf_packSelectors]
    exact assignErr_eq_sum s npal
  · exact totalErr_le _ _ _ _ le_rfl

end Sys2Proof.Machine
end

