-- ==== Sys2Proof/Proofs/Search.lean ====
section
/-! SUPPORT. The proofs of 43_encoder.md's statements on the reference search (R120-R134): the order of a pair (R130), the
records of its candidates (R122, R131, R132) and the choice of the least key (R133). -/

namespace Sys2Proof.Machine

open Sys2Proof.Claims

/-! The order of a pair (43_encoder.md R130, R132). -/

theorem order4_of_gt {wa wb : Half} (h : wb.toNat < wa.toNat) : order4 wa wb = (wa, wb) :=
  if_pos h

theorem order4_of_lt {wa wb : Half} (h : wa.toNat < wb.toNat) : order4 wa wb = (wb, wa) :=
  (if_neg (by rw [BitVec.lt_def]; omega)).trans (if_pos h)

theorem order4_self (w : Half) : order4 w w = if w = 0 then (1, 0) else (w, w - 1) := by
  simp only [order4, BitVec.lt_irrefl, if_false]

/-- The 4-color order of a pair always has c0 > c1. -/
theorem order4_snd_lt_fst (wa wb : Half) : (order4 wa wb).2.toNat < (order4 wa wb).1.toNat := by
  rcases Nat.lt_trichotomy wa.toNat wb.toNat with hlt | heq | hgt
  · rwa [order4_of_lt hlt]
  · rw [BitVec.eq_of_toNat_eq heq, order4_self]
    split
    case isTrue => decide
    case isFalse hne => bv_omega
  · rwa [order4_of_gt hgt]

/-- Settles O36: the order by the three cases of the comparison, two equal words by their being zero or not. -/
theorem order4Rule : Obligations.Order4Rule := by
  refine fun wa wb => ⟨order4_snd_lt_fst wa wb, order4_of_gt, order4_of_lt, ?_, ?_⟩
  · rintro rfl hne
    rw [order4_self, if_neg hne]
  · rintro rfl hzero
    rw [order4_self, if_pos hzero]

theorem isThreeColor_order4 (wa wb : Half) : isThreeColor (order4 wa wb).1 (order4 wa wb).2 = false := by
  rw [← Bool.not_eq_true, isThreeColor_iff, Nat.not_le]
  exact order4_snd_lt_fst wa wb

theorem isThreeColor_order3 (wa wb : Half) : isThreeColor (order3 wa wb).1 (order3 wa wb).2 = true := by
  rw [isThreeColor, decide_eq_true_iff, order3]
  split
  case isTrue hle => exact hle
  case isFalse hlt => exact BitVec.le_of_lt (BitVec.not_le.mp hlt)

/-! The fit set and the kinds that are tried (43_encoder.md R120, R122). -/

theorem inT_eq_isTransparent (inp : EncodeInput) (i : Fin 16) : inT inp i = isTransparent inp i := by
  rw [inT, isTransparent, alphaT]
  cases inp.fsel <;> rfl

/-- 4-color evaluations are made iff no texel is transparent. -/
theorem tries4_iff (inp : EncodeInput) : tries4 inp = true ↔ ∀ i, inT inp i = false := by
  simp only [tries4, List.isEmpty_iff, List.eq_nil_iff_forall_not_mem, mem_transparentSet, inT_eq_isTransparent,
    Bool.not_eq_true]

/-- 3-color evaluations are made iff no selectors are forced and `ALLOW3` or a transparent texel calls for them. -/
theorem tries3_iff (inp : EncodeInput) :
    tries3 inp = true ↔ inp.fsel = none ∧ (inp.allow3 = true ∨ ∃ i, inT inp i = true) := by
  have htries : tries3 inp = (inp.fsel.isNone && (inp.allow3 || !tries4 inp)) := rfl
  have htransparent : tries4 inp = false ↔ ∃ i, inT inp i = true := by
    simp only [← Bool.not_eq_true, tries4_iff, not_forall, not_not]
  simp only [htries, Bool.and_eq_true, Option.isNone_iff_eq_none, Bool.or_eq_true, Bool.not_eq_true', htransparent]

/-- A transparent texel is one of an input whose selectors are not forced. -/
theorem fsel_of_inT {inp : EncodeInput} {i : Fin 16} (h : inT inp i = true) : inp.fsel = none := by
  simp only [inT, Bool.and_eq_true, beq_iff_eq] at h
  obtain ⟨⟨hfsel, -⟩, -⟩ := h
  exact hfsel

/-- At least one kind is tried. -/
theorem tries4_or_tries3 (inp : EncodeInput) : tries4 inp = true ∨ tries3 inp = true := by
  rw [tries4_iff, tries3_iff, or_iff_not_imp_left, not_forall]
  rintro ⟨i, hi⟩
  rw [Bool.not_eq_false] at hi
  exact ⟨fsel_of_inT hi, .inr ⟨i, hi⟩⟩

theorem fitSet_isEmpty_iff (inp : EncodeInput) : (fitSet inp).isEmpty = true ↔ ∀ i, inT inp i = true := by
  simp only [List.isEmpty_iff, List.eq_nil_iff_forall_not_mem, mem_fitSet, inT_eq_isTransparent, Bool.not_eq_false]

/-! The records of the search (43_encoder.md R131, R132). -/

theorem mem_recordsOf (inp : EncodeInput) (k : Nat) (wa wb : Half) (r : Record) :
    r ∈ recordsOf inp k wa wb ↔
      (tries4 inp = true ∧ r = evaluate4 inp k wa wb) ∨ (tries3 inp = true ∧ r = evaluate3 inp k wa wb) := by
  simp only [recordsOf, List.mem_append, List.mem_ite_nil_right, List.mem_singleton]

/-- The records are the evaluations of the candidates, each under its own index. -/
theorem mem_records (inp : EncodeInput) (r : Record) :
    r ∈ records inp ↔ ∃ k wa wb, (candidateWords inp)[k]? = some (wa, wb) ∧ r ∈ recordsOf inp k wa wb := by
  simp only [records, List.mem_flatMap, Prod.exists, List.mem_zipIdx_iff_getElem?]
  constructor
  · rintro ⟨wa, wb, k, hk, hr⟩
    exact ⟨k, wa, wb, hk, hr⟩
  · rintro ⟨k, wa, wb, hk, hr⟩
    exact ⟨wa, wb, k, hk, hr⟩

/-- Every breadth visits the pair (0, 0) first, so there is a candidate 0. -/
theorem candidateWords_ne_nil (inp : EncodeInput) : candidateWords inp ≠ [] := by
  simp [candidateWords, visits, ring, symmetricRange, List.range_succ_eq_map]

/-- Some record exists, since some kind is tried (43_encoder.md R122). -/
theorem records_ne_nil (inp : EncodeInput) : records inp ≠ [] := by
  obtain ⟨⟨wa, wb⟩, ws, hcand⟩ := List.exists_cons_of_ne_nil (candidateWords_ne_nil inp)
  have hfirst : (candidateWords inp)[0]? = some (wa, wb) := by rw [hcand]; rfl
  have hof : ∃ r, r ∈ recordsOf inp 0 wa wb := (tries4_or_tries3 inp).elim
    (fun htry => ⟨_, (mem_recordsOf ..).mpr (.inl ⟨htry, rfl⟩)⟩) fun htry => ⟨_, (mem_recordsOf ..).mpr (.inr ⟨htry, rfl⟩)⟩
  obtain ⟨r, hr⟩ := hof
  exact List.ne_nil_of_mem ((mem_records ..).mpr ⟨0, wa, wb, hfirst, hr⟩)

theorem index_of_mem_recordsOf {inp : EncodeInput} {k : Nat} {wa wb : Half} {r : Record}
    (h : r ∈ recordsOf inp k wa wb) : r.index = k := by
  rcases (mem_recordsOf ..).mp h with ⟨-, rfl⟩ | ⟨-, rfl⟩ <;> rfl

/-- A candidate has one record of each kind at most. -/
theorem eq_of_mem_recordsOf {inp : EncodeInput} {k : Nat} {wa wb : Half} {r r' : Record}
    (h : r ∈ recordsOf inp k wa wb) (h' : r' ∈ recordsOf inp k wa wb) (hkind : r.kind = r'.kind) : r = r' := by
  rcases (mem_recordsOf ..).mp h with ⟨-, rfl⟩ | ⟨-, rfl⟩ <;>
    rcases (mem_recordsOf ..).mp h' with ⟨-, rfl⟩ | ⟨-, rfl⟩
  · rfl
  · cases hkind
  · cases hkind
  · rfl

/-- A record is fixed by its kind and its candidate's index. -/
theorem record_eq_of_kind_index {inp : EncodeInput} {r r' : Record} (hr : r ∈ records inp) (hr' : r' ∈ records inp)
    (hkind : r.kind = r'.kind) (hindex : r.index = r'.index) : r = r' := by
  obtain ⟨k, wa, wb, hk, hof⟩ := (mem_records ..).mp hr
  obtain ⟨k', wa', wb', hk', hof'⟩ := (mem_records ..).mp hr'
  obtain rfl : k = k' := by rw [← index_of_mem_recordsOf hof, hindex, index_of_mem_recordsOf hof']
  obtain ⟨rfl, rfl⟩ : wa = wa' ∧ wb = wb' := by simpa using hk.symm.trans hk'
  exact eq_of_mem_recordsOf hof hof' hkind

/-! The choice (43_encoder.md R133). -/

/-- The key (E, kind, k) in its lexicographic order. -/
def Record.key (r : Record) : ℕ ×ₗ ℕ ×ₗ ℕ := toLex (r.err, toLex (r.kind, r.index))

theorem Record.key_lt_iff (a b : Record) :
    a.key < b.key ↔ a.err < b.err ∨ a.err = b.err ∧ (a.kind < b.kind ∨ a.kind = b.kind ∧ a.index < b.index) := by
  simp only [Record.key, Prod.Lex.toLex_lt_toLex]

theorem Record.before_iff (a b : Record) : a.before b = true ↔ a.key < b.key := by
  simp only [Record.key_lt_iff, Record.before, Bool.or_eq_true, Bool.and_eq_true, decide_eq_true_eq, beq_iff_eq]

/-- The least record's key is at most that of every record it is chosen from. -/
theorem leastRecord_key_le (best : Record) (l : List Record) :
    (leastRecord best l).key ≤ best.key ∧ ∀ r ∈ l, (leastRecord best l).key ≤ r.key := by
  induction l generalizing best with
  | nil => exact ⟨le_rfl, nofun⟩
  | cons a as ih =>
    simp only [leastRecord, Record.before_iff, List.forall_mem_cons]
    split
    case isTrue hlt =>
      obtain ⟨ha, has⟩ := ih a
      exact ⟨ha.trans hlt.le, ha, has⟩
    case isFalse hge =>
      obtain ⟨hbest, has⟩ := ih best
      exact ⟨hbest, hbest.trans (not_lt.mp hge), has⟩

/-- For a non-empty fit set the search emits a record whose key no record undercuts. -/
theorem referenceEncode_least {inp : EncodeInput} (h : ¬ (fitSet inp).isEmpty = true) :
    ∃ r ∈ records inp, referenceEncode inp = r.emitted ∧ ∀ r' ∈ records inp, r.key ≤ r'.key := by
  obtain ⟨first, rest, hrecords⟩ := List.exists_cons_of_ne_nil (records_ne_nil inp)
  obtain ⟨hfirst, hrest⟩ := leastRecord_key_le first rest
  refine ⟨leastRecord first rest, ?_, ?_, ?_⟩
  · rw [hrecords]
    exact leastRecord_mem first rest
  · rw [referenceEncode, if_neg h, hrecords]
  · rw [hrecords]
    exact List.forall_mem_cons.mpr ⟨hfirst, hrest⟩

/-- Settles O32: the emitted record's key is least, and a record of the same key is the same record. -/
theorem leastKeyEmitted : Obligations.LeastKeyEmitted := by
  rintro inp ⟨i, hi⟩
  have hfit : ¬ (fitSet inp).isEmpty = true := fun hempty => by
    rw [(fitSet_isEmpty_iff inp).mp hempty i] at hi
    cases hi
  obtain ⟨r, hr, hemit, hleast⟩ := referenceEncode_least hfit
  refine ⟨r, hr, hemit, fun r' hr' hne => (Record.key_lt_iff r r').mp (lt_of_le_of_ne (hleast r' hr') fun hkey => ?_)⟩
  obtain ⟨-, hkind, hindex⟩ : r.err = r'.err ∧ r.kind = r'.kind ∧ r.index = r'.index := by simpa [Record.key] using hkey
  exact hne (record_eq_of_kind_index hr hr' hkind hindex).symm

end Sys2Proof.Machine
end

