-- ==== Sys2Proof/Proofs/Encoder.lean ====
section
/-! SUPPORT. The proofs of 43_encoder.md's statements on its command ENCODE (R140): under either policy the output is that of
its pair in a mode that is tried, and such an output satisfies R112-R117. -/

namespace Sys2Proof.Machine

open Sys2Proof.Claims

/-! The palette of an emitted block (43_encoder.md section 1). -/

theorem isThreeColor_eq_false_iff (c0 c1 : Half) : isThreeColor c0 c1 = false ↔ c1.toNat < c0.toNat := by
  rw [← Bool.not_eq_true, isThreeColor_iff, Nat.not_le]

theorem emittedPalette_of_three {c0 c1 : Half} (m : Mode) (h : isThreeColor c0 c1 = true) :
    emittedPalette m c0 c1 = pal3 m c0 c1 := if_pos h

theorem emittedPalette_of_four {c0 c1 : Half} (m : Mode) (h : isThreeColor c0 c1 = false) :
    emittedPalette m c0 c1 = pal4 m c0 c1 := if_neg (by rw [h]; exact Bool.false_ne_true)

/-- An emitted block is 4-color, with four entries, or 3-color, with three. -/
theorem emittedPalette_length (m : Mode) (c0 c1 : Half) :
    (emittedPalette m c0 c1).length = if c1.toNat < c0.toNat then 4 else 3 := by
  cases h : isThreeColor c0 c1 with
  | true => rw [emittedPalette_of_three m h, if_neg (Nat.not_lt.mpr ((isThreeColor_iff c0 c1).mp h)), pal3_length]
  | false => rw [emittedPalette_of_four m h, if_pos ((isThreeColor_eq_false_iff c0 c1).mp h), pal4_length]

theorem emittedPalette_length_le (m : Mode) (c0 c1 : Half) : (emittedPalette m c0 c1).length ≤ 4 := by
  rw [emittedPalette_length]
  split <;> decide

theorem emittedPalette_ne_nil (m : Mode) (c0 c1 : Half) : emittedPalette m c0 c1 ≠ [] := by
  apply List.ne_nil_of_length_pos
  rw [emittedPalette_length]
  split <;> decide

/-- Every entry of an emitted block's palette is that of the block's words. -/
theorem channelsOf_emittedPalette (m : Mode) (c0 c1 : Half) {j : Nat} (hj : j < (emittedPalette m c0 c1).length) :
    channelsOf (entry (emittedPalette m c0 c1) j) = blockEntry m c0 c1 j := by
  rw [blockEntry]
  cases h : isThreeColor c0 c1 with
  | true =>
    rw [emittedPalette_of_three m h] at hj ⊢
    rw [channelsOf_pal3 m c0 c1 hj, if_neg (Nat.not_lt.mpr ((isThreeColor_iff c0 c1).mp h))]
  | false =>
    rw [emittedPalette_of_four m h] at hj ⊢
    rw [channelsOf_pal4 m c0 c1 hj, if_pos ((isThreeColor_eq_false_iff c0 c1).mp h)]

/-! The selectors (43_encoder.md R113-R115). -/

theorem chosenSelector_of_forced {inp : EncodeInput} {w : Word} (h : inp.fsel = some w) (p : List Rgb) :
    chosenSelector inp p = sel w := by
  funext i
  rw [chosenSelector, h]

theorem chosenSelector_of_inT {inp : EncodeInput} {i : Fin 16} (h : inT inp i = true) (p : List Rgb) :
    chosenSelector inp p i = 3 := by
  rw [chosenSelector, fsel_of_inT h]
  exact if_pos (inT_eq_isTransparent inp i ▸ h)

theorem chosenSelector_of_free {inp : EncodeInput} {i : Fin 16} (hfsel : inp.fsel = none) (h : inT inp i = false)
    (p : List Rgb) : chosenSelector inp p i = nearest p inp.texels[i].rgb := by
  rw [chosenSelector, hfsel]
  exact if_neg (by rw [← inT_eq_isTransparent, h]; exact Bool.false_ne_true)

/-- A word is its 16 selectors (30_encoding.md R58). -/
theorem word_eq_of_sel_eq {w w' : Word} (h : ∀ i, sel w i = sel w' i) : w = w' := by
  ext k hk
  have hbit := congrArg (·.getLsbD (k % 2)) (h ⟨k / 2, by omega⟩)
  have hlow : k % 2 < 2 := by omega
  have hplace : 2 * (k / 2) + k % 2 = k := by omega
  simpa only [sel, BitVec.getLsbD_extractLsb', hlow, hplace, decide_true, Bool.true_and,
    BitVec.getLsbD_eq_getElem hk] using hbit

theorem packSelectors_sel (w : Word) : packSelectors (sel w) = w :=
  word_eq_of_sel_eq (sel_packSelectors (sel w))

/-! The error (43_encoder.md R117, first sentence). -/

theorem sum_map_filter (l : List (Fin 16)) (t : Fin 16 → Bool) (f : Fin 16 → Nat) :
    ((l.filter fun i => !t i).map f).sum = (l.map fun i => if t i then 0 else f i).sum := by
  induction l with
  | nil => rfl
  | cons i is ih => cases h : t i <;> simp [h, ih]

/-- The total error over O is the plain sum over the texels that are not transparent. -/
theorem totalErr_fitSet (inp : EncodeInput) (p : List Rgb) (s : Fin 16 → Selector) :
    totalErr inp.texels p s (fitSet inp) = ∑ i : Fin 16,
      if inT inp i then 0 else errOf (channelsOf inp.texels[i].rgb) (channelsOf (entry p (s i).toNat)) := by
  simp only [totalErr, fitSet, sum_map_filter, colorErr_eq_errOf, Fin.sum_univ_def, texelIndices_eq_finRange,
    inT_eq_isTransparent]

/-! The outputs of both policies: each is that of its pair. -/

/-- The mode that the order of a pair gives is one that is tried (43_encoder.md R112, R114-R116, R122). -/
def pairPermitted (inp : EncodeInput) (c0 c1 : Half) : Bool := if isThreeColor c0 c1 then tries3 inp else tries4 inp

/-- The output is that of its pair, in a mode that is tried. -/
def EmitsPermittedPair (inp : EncodeInput) (o : Encoded) : Prop :=
  o = emitPair inp o.c0 o.c1 ∧ pairPermitted inp o.c0 o.c1 = true

theorem evaluate4_emitted (inp : EncodeInput) (k : Nat) (wa wb : Half) :
    (evaluate4 inp k wa wb).emitted = emitPair inp (order4 wa wb).1 (order4 wa wb).2 := by
  simp only [emitPair, emittedPalette_of_four _ (isThreeColor_order4 wa wb), isThreeColor_order4]
  rfl

theorem evaluate3_emitted (inp : EncodeInput) (k : Nat) (wa wb : Half) :
    (evaluate3 inp k wa wb).emitted = emitPair inp (order3 wa wb).1 (order3 wa wb).2 := by
  simp only [emitPair, emittedPalette_of_three _ (isThreeColor_order3 wa wb), isThreeColor_order3]
  rfl

theorem emitsPermittedPair_of_mem_records {inp : EncodeInput} {r : Record} (h : r ∈ records inp) :
    EmitsPermittedPair inp r.emitted := by
  obtain ⟨k, wa, wb, -, hof⟩ := (mem_records ..).mp h
  rcases (mem_recordsOf ..).mp hof with ⟨htry, rfl⟩ | ⟨htry, rfl⟩
  · exact ⟨evaluate4_emitted .., by
      rw [evaluate4_emitted, pairPermitted, emitPair, isThreeColor_order4]; exact htry⟩
  · exact ⟨evaluate3_emitted .., by
      rw [evaluate3_emitted, pairPermitted, emitPair, isThreeColor_order3]; exact htry⟩

/-- With every texel transparent the block of R121 is the output of the pair (0, 0). -/
theorem emitsPermittedPair_allTransparentBlock {inp : EncodeInput} (h : (fitSet inp).isEmpty = true) :
    EmitsPermittedPair inp allTransparentBlock := by
  have hT := (fitSet_isEmpty_iff inp).mp h
  refine ⟨?_, (tries3_iff inp).mpr ⟨fsel_of_inT (hT 0), .inr ⟨0, hT 0⟩⟩⟩
  have hsel : chosenSelector inp (emittedPalette inp.mode 0 0) = fun _ => 3 :=
    funext fun i => chosenSelector_of_inT (hT i) _
  simp only [emitPair, allTransparentBlock, chosenErr, hsel, List.isEmpty_iff.mp h]
  rfl

theorem emitsPermittedPair_referenceEncode (inp : EncodeInput) : EmitsPermittedPair inp (referenceEncode inp) := by
  by_cases h : (fitSet inp).isEmpty = true
  · rw [referenceEncode, if_pos h]
    exact emitsPermittedPair_allTransparentBlock h
  · obtain ⟨r, hr, hemit, -⟩ := referenceEncode_least h
    rw [hemit]
    exact emitsPermittedPair_of_mem_records hr

/-- A drawn pair that conforms is in a mode that is tried: R112 permits 3-color, R115 forbids 4-color beside transparency. -/
theorem pairPermitted_of_conforms {inp : EncodeInput} {o : Encoded} (h : conforms inp o = true) :
    pairPermitted inp o.c0 o.c1 = true := by
  simp only [conforms, Bool.and_eq_true] at h
  obtain ⟨⟨⟨⟨⟨⟨hmode, -⟩, -⟩, htransparent⟩, -⟩, -⟩, -⟩ := h
  rw [pairPermitted]
  cases hthree : isThreeColor o.c0 o.c1 with
  | true => simpa [modePermitted, hthree] using hmode
  | false => simpa [transparencyForced, hthree, tries4, List.eq_nil_iff_forall_not_mem] using htransparent

theorem atQuality_self (inp : EncodeInput) : atQuality inp inp.quality.toNat = inp := by
  rw [atQuality, BitVec.ofNat_toNat, BitVec.setWidth_eq]

/-- What the conforming encoder answers: the reference search's output at quality 0, or a drawn one that conforms. -/
theorem conformingEncode_cases (draw : EncodeInput → Half × Half) (inp : EncodeInput) (n : Nat) :
    ∃ q, conformingEncode draw inp n = referenceEncode (atQuality inp q) ∨
      (conformingEncode draw inp n = drawnOutput draw (atQuality inp q) ∧
        conforms (atQuality inp q) (drawnOutput draw (atQuality inp q)) = true) := by
  induction n with
  | zero =>
    refine ⟨0, ?_⟩
    simp only [conformingEncode]
    split
    case isTrue h => exact .inr ⟨rfl, h⟩
    case isFalse => exact .inl rfl
  | succ n ih =>
    simp only [conformingEncode]
    split
    case isTrue h => exact ⟨n + 1, .inr ⟨rfl, ((Bool.and_eq_true _ _).mp h).1⟩⟩
    case isFalse => exact ih

/-- What either policy answers: the reference search's output at some quality, or a drawn one that conforms at it. -/
theorem encodeUnder_cases (policy : EncoderPolicy) (draw : EncodeInput → Half × Half) (inp : EncodeInput) :
    ∃ q, encodeUnder policy draw inp = referenceEncode (atQuality inp q) ∨
      (encodeUnder policy draw inp = drawnOutput draw (atQuality inp q) ∧
        conforms (atQuality inp q) (drawnOutput draw (atQuality inp q)) = true) := by
  cases policy with
  | reference => exact ⟨inp.quality.toNat, .inl (congrArg referenceEncode (atQuality_self inp).symm)⟩
  | anyConforming => exact conformingEncode_cases draw inp inp.quality.toNat

/-- Under either policy the output is that of its pair in a mode that is tried; neither depends on the quality. -/
theorem emitsPermittedPair_encodeUnder (policy : EncoderPolicy) (draw : EncodeInput → Half × Half) (inp : EncodeInput) :
    EmitsPermittedPair inp (encodeUnder policy draw inp) := by
  obtain ⟨q, hreference | ⟨hdrawn, hconforms⟩⟩ := encodeUnder_cases policy draw inp
  · rw [hreference]
    exact emitsPermittedPair_referenceEncode (atQuality inp q)
  · rw [hdrawn]
    exact ⟨rfl, pairPermitted_of_conforms hconforms⟩

/-! Such an output satisfies R112-R117. -/

theorem tries3_of_pairPermitted {inp : EncodeInput} {c0 c1 : Half} (h : pairPermitted inp c0 c1 = true)
    (hle : c0.toNat ≤ c1.toNat) : tries3 inp = true := by
  rwa [pairPermitted, if_pos ((isThreeColor_iff c0 c1).mpr hle)] at h

theorem tries4_of_pairPermitted {inp : EncodeInput} {c0 c1 : Half} (h : pairPermitted inp c0 c1 = true)
    (hlt : c1.toNat < c0.toNat) : tries4 inp = true := by
  rwa [pairPermitted, (isThreeColor_eq_false_iff c0 c1).mpr hlt, if_neg Bool.false_ne_true] at h

/-- A texel of O has the least nearest entry of the emitted palette (43_encoder.md R113). -/
theorem leastAt_chosenSelector {inp : EncodeInput} {i : Fin 16} (hfsel : inp.fsel = none) (hi : inT inp i = false)
    (c0 c1 : Half) :
    LeastAt (fun j => errOf (channelsOf inp.texels[i].rgb) (blockEntry inp.mode c0 c1 j))
      (if c1.toNat < c0.toNat then 3 else 2) (chosenSelector inp (emittedPalette inp.mode c0 c1) i).toNat := by
  have hlen := emittedPalette_length_le inp.mode c0 c1
  have hpos := List.length_pos_iff.mpr (emittedPalette_ne_nil inp.mode c0 c1)
  have hlast : (emittedPalette inp.mode c0 c1).length - 1 = if c1.toNat < c0.toNat then 3 else 2 := by
    rw [emittedPalette_length]
    split <;> rfl
  rw [chosenSelector_of_free hfsel hi, ← hlast]
  refine leastAt_congr (leastAt_nearest inp.texels[i].rgb hlen) fun j hj => ?_
  rw [channelsOf_emittedPalette _ _ _ (by omega)]

/-- The selector of a texel of O names an entry of the emitted palette. -/
theorem chosenSelector_lt {inp : EncodeInput} {c0 c1 : Half} {i : Fin 16} (h : pairPermitted inp c0 c1 = true)
    (hi : inT inp i = false) :
    (chosenSelector inp (emittedPalette inp.mode c0 c1) i).toNat < (emittedPalette inp.mode c0 c1).length := by
  rw [emittedPalette_length]
  split
  case isTrue => exact BitVec.isLt _
  case isFalse hge =>
    obtain ⟨hfsel, -⟩ := (tries3_iff inp).mp (tries3_of_pairPermitted h (Nat.le_of_not_lt hge))
    obtain ⟨hlast, -, -⟩ := leastAt_chosenSelector hfsel hi c0 c1
    rw [if_neg hge] at hlast
    omega

/-- The output of a pair in a mode that is tried satisfies R112-R116 and R117's error. -/
theorem conforming_emitPair {inp : EncodeInput} {c0 c1 : Half} (h : pairPermitted inp c0 c1 = true) :
    Conforming inp c0 c1 (emitPair inp c0 c1).sels (emitPair inp c0 c1).err (emitPair inp c0 c1).three where
  mode_permitted hle := (tries3_iff inp).mp (tries3_of_pairPermitted h hle)
  nearest hfsel i hi := by
    rw [emitPair, selectorOf_packSelectors]
    exact leastAt_chosenSelector hfsel hi c0 c1
  forced w hw := by
    refine ⟨by rw [emitPair, chosenSelector_of_forced hw, packSelectors_sel], Nat.lt_of_not_le fun hle => ?_⟩
    obtain ⟨hnone, -⟩ := (tries3_iff inp).mp (tries3_of_pairPermitted h hle)
    simp [hnone] at hw
  transparent i hi := by
    refine ⟨by rw [emitPair, selectorOf_packSelectors, chosenSelector_of_inT hi]; rfl, Nat.le_of_not_lt fun hlt => ?_⟩
    have hO := (tries4_iff inp).mp (tries4_of_pairPermitted h hlt) i
    simp [hO] at hi
  order := isThreeColor_iff c0 c1
  error := (totalErr_fitSet ..).trans <| Finset.sum_congr rfl fun i _ => by
    cases hi : inT inp i with
    | true => rfl
    | false =>
      rw [emitPair, selectorOf_packSelectors, channelsOf_emittedPalette _ _ _ (chosenSelector_lt h hi)]

theorem EmitsPermittedPair.conforming {inp : EncodeInput} {o : Encoded} (h : EmitsPermittedPair inp o) :
    Conforming inp o.c0 o.c1 o.sels o.err o.three := by
  obtain ⟨hpair, hpermitted⟩ := h
  have hconforming := conforming_emitPair hpermitted
  rwa [← hpair] at hconforming

theorem EmitsPermittedPair.err_le {inp : EncodeInput} {o : Encoded} (h : EmitsPermittedPair inp o) : o.err ≤ 3121200 := by
  obtain ⟨hpair, -⟩ := h
  rw [hpair]
  exact totalErr_le _ _ _ _ (fitSet_length inp)

/-! The command. -/

/-- The first wire word is c1 above c0 (20_memory.md R37). -/
theorem endpointWord_eq_append (c0 c1 : Half) : endpointWord c0 c1 = c1 ++ c0 := by
  rw [endpointWord, BitVec.append_def, BitVec.shiftLeftZeroExtend_eq, BitVec.setWidth'_eq]

theorem endpointWord_eq_ofNat (c0 c1 : Half) :
    endpointWord c0 c1 = BitVec.ofNat 32 (c0.toNat + 2 ^ 16 * c1.toNat) := by
  rw [endpointWord_eq_append]
  apply BitVec.eq_of_toNat_eq
  rw [append_toNat_eq_add, BitVec.toNat_ofNat]
  omega

/-- Once initialized, ENCODE completes with the results of the encoder's output for the input it reads. -/
theorem exec_encode (a3 fb fe : Bool) (q : BitVec 8) {s : State} (h : s.block.initDone = true) :
    exec (.encode a3 fb fe q) s =
      .next (s.complete (s.block.putEncoded (encodeBlock (s.encodeInput a3 fb fe q)))) := by
  simp only [exec, execEncode, Block.tables, h, if_true]

/-- The output's five results, as the numbers of R134. -/
theorem answers_encode (a3 fb fe : Bool) (q : BitVec 8) {s : State} (h : s.block.initDone = true) :
    let o := encodeBlock (s.encodeInput a3 fb fe q)
    Answers (exec (.encode a3 fb fe q) s) s (encodedBlock s.block o.c0 o.c1 o.sels o.err o.three) := by
  rw [exec_encode a3 fb fe q h]
  simp only [encodedBlock, ← endpointWord_eq_ofNat, ← infoWord_eq_ite]
  exact answers_complete s _

/-- The input that ENCODE reads leaves out the two flags that forced selectors ignore; its pairs give the same outputs. -/
theorem emitsPermittedPair_inputOf {s : State} {a3 fb fe : Bool} {q : BitVec 8} {o : Encoded}
    (h : EmitsPermittedPair (s.encodeInput a3 fb fe q) o) : EmitsPermittedPair (inputOf s a3 fb fe q) o := by
  cases fe with
  | true => exact h
  | false =>
    have hinput : s.encodeInput a3 fb false q = inputOf s a3 fb false q := by
      simp only [State.encodeInput, Bool.not_false, Bool.and_true]
      rfl
    rwa [← hinput]

/-- Settles O24: the words by the fields of R54, the five results by the output's being that of a permitted pair. -/
theorem encodeRule : Obligations.EncodeRule := by
  refine ⟨commandWords_of_assemble .encode fun w => ?_, fun a3 fb fe q s h => ?_⟩
  · simp only [assemble, fieldAllow3, fieldForceBlack, fieldFselEn, fieldQuality, getLsbD_eq_bits,
      extractLsb'_eq_ofNat_bits]
  · have hpair := emitsPermittedPair_inputOf (emitsPermittedPair_encodeUnder Config.encoderPolicy Config.conformingPair
      (s.encodeInput a3 fb fe q))
    exact ⟨_, _, _, _, _, answers_encode a3 fb fe q h, hpair.conforming, hpair.err_le⟩

theorem encodeInput_congr {s u : State} {fe : Bool} (hmode : s.block.encMode = u.block.encMode)
    (hsrc : ∀ i, s.srcWord i = u.srcWord i) (hfsel : fe = true → s.fselWord = u.fselWord) (a3 fb : Bool) (q : BitVec 8) :
    s.encodeInput a3 fb fe q = u.encodeInput a3 fb fe q := by
  have hforced : (if fe then some s.fselWord else none) = if fe then some u.fselWord else none :=
    ite_congr rfl (fun h => congrArg some (hfsel h)) fun _ => rfl
  simp only [State.encodeInput, State.sourceTexels, hmode, hsrc, hforced]

/-- Settles O25: both states give the encoder the same input. -/
theorem encodeDeterministic : Obligations.EncodeDeterministic := by
  intro a3 fb fe q s u hs hu hmode hsrc hfsel
  have hinput := encodeInput_congr hmode hsrc hfsel a3 fb q
  refine ⟨_, _, _, _, _, answers_encode a3 fb fe q hs, ?_⟩
  rw [hinput]
  exact answers_encode a3 fb fe q hu

end Sys2Proof.Machine
end

