-- ==== Sys2Proof/Proofs/SolidBlock.lean ====
section
/-! SUPPORT. The proof of 43_encoder.md's statement on solid blocks in IDEAL mode (R118), after the argument of R135: every
candidate is the same pair of words, and the nearest entry of its palette is as near as the quantized color. -/

namespace Sys2Proof.Machine

open Sys2Proof.Claims

/-! Nearness: the IDEAL quantization distance (43_encoder.md R118, 40_quantizer.md R76). -/

/-- Each channel of c is within the IDEAL quantization distance of x's: 4, 2, 4. -/
def Near (x c : Rgb) : Prop := absDiff x.r c.r ≤ 4 ∧ absDiff x.g c.g ≤ 2 ∧ absDiff x.b c.b ≤ 4

theorem withinQuantization_opaque (x c : Rgb) : withinQuantization x { rgb := c, a := 255 } = true ↔ Near x c := by
  simp only [withinQuantization, Near, beq_self_eq_true, Bool.true_and, Bool.and_eq_true, decide_eq_true_eq, and_assoc]

theorem gap_comm (a b : Nat) : gap a b = gap b a := by
  simp only [gap]
  omega

/-- Some 5-bit code expands to within 4 of x. -/
theorem exists_e5_near (x : Byte) : ∃ v ≤ 31, gap (e5 v) x.toNat ≤ 4 := by
  refine ⟨(x.toNat * 31 + 127) / 255, by omega, ?_⟩
  revert x
  decide

/-- Some 6-bit code expands to within 2 of x. -/
theorem exists_e6_near (x : Byte) : ∃ v ≤ 63, gap (e6 v) x.toNat ≤ 2 := by
  refine ⟨(x.toNat * 63 + 127) / 255, by omega, ?_⟩
  revert x
  decide

theorem absDiff_expand5_quant5 (x : Byte) : absDiff x (expand5 (quant5 x)) ≤ 4 := by
  obtain ⟨v, hv, hnear⟩ := exists_e5_near x
  obtain ⟨-, hmin, -⟩ := quant5_leastAt x
  rw [absDiff_eq_gap, expand5_toNat, gap_comm]
  exact (hmin v hv).trans hnear

theorem absDiff_expand6_quant6 (x : Byte) : absDiff x (expand6 (quant6 x)) ≤ 2 := by
  obtain ⟨v, hv, hnear⟩ := exists_e6_near x
  obtain ⟨-, hmin, -⟩ := quant6_leastAt x
  rw [absDiff_eq_gap, expand6_toNat, gap_comm]
  exact (hmin v hv).trans hnear

/-- IDEAL quantization keeps every color within the distance (40_quantizer.md R76). -/
theorem near_expand565_quantize (x : Rgb) : Near x (expand565 (quantize .ideal x)) := by
  simp only [Near, expand565, quantize, red5_pack565, green6_pack565, blue5_pack565]
  exact ⟨absDiff_expand5_quant5 x.r, absDiff_expand6_quant6 x.g, absDiff_expand5_quant5 x.b⟩

/-- A near color's error is at most 36, so a color whose blue is further off than 6 has a greater one. -/
theorem colorErr_lt_of_near {x c d : Rgb} (hc : Near x c) (hd : 6 < absDiff x.b d.b) : colorErr x c < colorErr x d := by
  obtain ⟨hr, hg, hb⟩ := hc
  have hr2 : absDiff x.r c.r ^ 2 ≤ 16 := Nat.pow_le_pow_left hr 2
  have hg2 : absDiff x.g c.g ^ 2 ≤ 4 := Nat.pow_le_pow_left hg 2
  have hb2 : absDiff x.b c.b ^ 2 ≤ 16 := Nat.pow_le_pow_left hb 2
  have hd2 : 49 ≤ absDiff x.b d.b ^ 2 := Nat.pow_le_pow_left hd 2
  simp only [colorErr]
  omega

/-- The palette has the color c, and every entry has c's red and green or, where c's blue is 0, a blue of at least 85. -/
structure VariesInBlue (p : List Rgb) (c : Rgb) : Prop where
  has_color : ∃ j < p.length, entry p j = c
  varies : ∀ k < p.length, ((entry p k).r = c.r ∧ (entry p k).g = c.g) ∨ (c.b.toNat = 0 ∧ 85 ≤ (entry p k).b.toNat)

/-- Where c is near x, the nearest entry of such a palette is near x too: it is no further off in blue than c. -/
theorem near_nearest {p : List Rgb} {x c : Rgb} (hlen : p.length ≤ 4) (hp : VariesInBlue p c) (hnear : Near x c) :
    Near x (entry p (nearest p x).toNat) := by
  obtain ⟨j, hj, hc⟩ := hp.has_color
  have hmin : colorErr x (entry p (nearest p x).toNat) ≤ colorErr x c := hc ▸ nearest_min p x hlen hj
  have hindex := nearest_lt p x (List.ne_nil_of_length_pos (Nat.zero_lt_of_lt hj)) hlen
  obtain ⟨hr, hg, hb⟩ := hnear
  rcases hp.varies _ hindex with ⟨hred, hgreen⟩ | ⟨hzero, hblue⟩
  · have hblue : absDiff x.b (entry p (nearest p x).toNat).b ^ 2 ≤ absDiff x.b c.b ^ 2 := by
      simp only [colorErr, hred, hgreen] at hmin
      omega
    exact ⟨hred ▸ hr, hgreen ▸ hg, ((Nat.pow_le_pow_iff_left two_ne_zero).mp hblue).trans hb⟩
  · have hfar : 6 < absDiff x.b (entry p (nearest p x).toNat).b := by
      simp only [absDiff] at hb ⊢
      omega
    exact absurd (colorErr_lt_of_near ⟨hr, hg, hb⟩ hfar) (Nat.not_lt.mpr hmin)

/-! The IDEAL palettes of a pair made from one word (43_encoder.md R130, R132, R135). -/

theorem twoThirds_self (a : Byte) : twoThirds a a = a :=
  BitVec.eq_of_toNat_eq (by rw [twoThirds_toNat]; omega)

theorem midpoint_self (a : Byte) : midpoint a a = a :=
  BitVec.eq_of_toNat_eq (by rw [midpoint_toNat]; omega)

theorem order3_self (w : Half) : order3 w w = (w, w) := if_pos (BitVec.le_refl w)

/-- Every entry of the 3-color palette of a word and itself is the word's color. -/
theorem entry_pal3_self (w : Half) {k : Nat} (hk : k < 3) : entry (pal3 .ideal w w) k = expand565 w := by
  match k with
  | 0 | 1 => rfl
  | 2 => simp only [entry, pal3, interp3, rgbZip, midpoint_self]; rfl

/-- Interpolation keeps a channel that both endpoints share. -/
theorem entry_pal4_shared {channel : Rgb → Byte} (h : ∀ f a b, channel (rgbZip f a b) = f (channel a) (channel b))
    {c0 c1 : Half} (hshared : channel (expand565 c1) = channel (expand565 c0)) {k : Nat} (hk : k < 4) :
    channel (entry (pal4 .ideal c0 c1) k) = channel (expand565 c0) := by
  match k with
  | 0 => rfl
  | 1 => exact hshared
  | 2 => exact (h twoThirds _ _).trans (by rw [hshared, twoThirds_self])
  | 3 => exact (h twoThirds _ _).trans (by rw [hshared, twoThirds_self])

/-- Taking 1 from a word whose blue code is not 0 leaves its red and green codes. -/
theorem pred_of_blue_pos {w : Half} (h : blue5 w ≠ 0) : red5 (w - 1) = red5 w ∧ green6 (w - 1) = green6 w := by
  have hblue : w.toNat % 2 ^ 5 ≠ 0 := fun hzero => h (BitVec.eq_of_toNat_eq ((blue5_toNat w).trans hzero))
  have hpred : (w - 1).toNat = w.toNat - 1 := by bv_omega
  constructor
  · apply BitVec.eq_of_toNat_eq
    rw [red5_toNat, red5_toNat, hpred]
    omega
  · apply BitVec.eq_of_toNat_eq
    rw [green6_toNat, green6_toNat, hpred]
    omega

/-- Taking 1 from a word that is not 0 but whose blue code is borrows: the blue code becomes 31. -/
theorem blue5_pred_of_blue_zero {w : Half} (hw : w ≠ 0) (h : blue5 w = 0) : blue5 (w - 1) = 31 := by
  have hblue : w.toNat % 2 ^ 5 = 0 := (blue5_toNat w).symm.trans (congrArg BitVec.toNat h)
  have hpred : (w - 1).toNat = w.toNat - 1 := by bv_omega
  apply BitVec.eq_of_toNat_eq
  rw [blue5_toNat, hpred]
  have : w.toNat ≠ 0 := fun hzero => hw (BitVec.eq_of_toNat_eq hzero)
  show _ = 31
  omega

/-- Between blue 0 and blue 255, every entry but the first has a blue of at least 85. -/
theorem entry_pal4_blue {c0 c1 : Half} (h0 : (expand565 c0).b = 0) (h1 : (expand565 c1).b = 255) {k : Nat} (hk : k < 3) :
    85 ≤ (entry (pal4 .ideal c0 c1) (k + 1)).b.toNat := by
  match k with
  | 0 =>
    change 85 ≤ (expand565 c1).b.toNat
    rw [h1]
    decide
  | 1 =>
    change 85 ≤ (twoThirds (expand565 c0).b (expand565 c1).b).toNat
    rw [h0, h1]
    decide
  | 2 =>
    change 85 ≤ (twoThirds (expand565 c1).b (expand565 c0).b).toNat
    rw [h0, h1]
    decide

theorem variesInBlue_pal3_self (w : Half) : VariesInBlue (pal3 .ideal w w) (expand565 w) where
  has_color := ⟨0, Nat.succ_pos _, rfl⟩
  varies k hk := .inl (by rw [entry_pal3_self w hk]; exact ⟨rfl, rfl⟩)

theorem variesInBlue_pal4_self (w : Half) :
    VariesInBlue (pal4 .ideal (order4 w w).1 (order4 w w).2) (expand565 w) := by
  rw [order4_self]
  split
  case isTrue hzero =>
    rw [hzero]
    exact ⟨⟨1, by decide⟩, by decide⟩
  case isFalse hne =>
    refine ⟨⟨0, Nat.succ_pos _, rfl⟩, fun k hk => ?_⟩
    by_cases hblue : blue5 w = 0
    · have hb0 : (expand565 w).b = 0 := congrArg expand5 hblue
      have hb1 : (expand565 (w - 1)).b = 255 := congrArg expand5 (blue5_pred_of_blue_zero hne hblue)
      match k, hk with
      | 0, _ => exact .inl ⟨rfl, rfl⟩
      | k + 1, hk => exact .inr ⟨congrArg BitVec.toNat hb0, entry_pal4_blue hb0 hb1 (Nat.lt_of_succ_lt_succ hk)⟩
    · obtain ⟨hred, hgreen⟩ := pred_of_blue_pos hblue
      exact .inl ⟨entry_pal4_shared (fun _ _ _ => rfl) (congrArg expand5 hred) hk,
        entry_pal4_shared (fun _ _ _ => rfl) (congrArg expand6 hgreen) hk⟩

/-! A solid block (43_encoder.md R118): every candidate of the search is the same pair of words. -/

theorem isSolid_iff (inp : EncodeInput) :
    isSolid inp = true ↔ (∀ i : Fin 16, inp.texels[i] = inp.texels[0]) ∧ inp.fsel = none ∧
      (inp.forceBlack = false ∨ 128 ≤ inp.texels[0].a.toNat) := by
  have halpha : ¬ inp.texels[0].a < alphaT ↔ 128 ≤ inp.texels[0].a.toNat := BitVec.not_lt
  simp only [isSolid, Bool.and_eq_true, List.all_eq_true, mem_texelIndices, forall_const, beq_iff_eq,
    Option.isNone_iff_eq_none, Bool.or_eq_true, Bool.not_eq_true', decide_eq_false_iff_not, halpha, and_assoc]

theorem inT_of_isSolid {inp : EncodeInput} (h : isSolid inp = true) (i : Fin 16) : inT inp i = false := by
  obtain ⟨htexels, -, hopaque⟩ := (isSolid_iff inp).mp h
  rcases hopaque with hforce | halpha
  · simp [inT, hforce]
  · simp [inT, htexels i, halpha]

/-- The channel sums of equal colors are n times the color. -/
theorem channelSums_of_equal {x : Vector Texel 16} (h : ∀ i : Fin 16, x[i] = x[0]) (o : List (Fin 16)) :
    channelSums x o = (rgbVec x[0].rgb).scale o.length := by
  induction o with
  | nil => simp [channelSums, Vec3.scale, Vec3.zero]
  | cons i is ih =>
    simp only [channelSums, ih, h i, Vec3.plus, Vec3.scale, List.length_cons, Vec3.mk.injEq]
    refine ⟨?_, ?_, ?_⟩ <;> push_cast <;> ring

theorem deviation_of_equal {x : Vector Texel 16} (h : ∀ i : Fin 16, x[i] = x[0]) (o : List (Fin 16)) (i : Fin 16) :
    deviation x o i = Vec3.zero := by
  simp only [deviation, channelSums_of_equal h, h i, Vec3.minus, sub_self, Vec3.zero]

theorem covarianceOf_of_zero {ds : List Vec3} (h : ∀ d ∈ ds, d = Vec3.zero) :
    covarianceOf ds = { col0 := Vec3.zero, col1 := Vec3.zero, col2 := Vec3.zero } := by
  induction ds with
  | nil => rfl
  | cons d ds ih =>
    obtain ⟨rfl, hds⟩ := List.forall_mem_cons.mp h
    rw [covarianceOf, ih hds]
    rfl

/-- Equal colors have no axis (43_encoder.md R125). -/
theorem axis_of_equal {x : Vector Texel 16} (h : ∀ i : Fin 16, x[i] = x[0]) (o : List (Fin 16)) :
    (covariance x o).axis = Vec3.zero := by
  rw [covariance, covarianceOf_of_zero]
  · rfl
  · simp only [List.mem_map, forall_exists_index, and_imp]
    rintro d i - rfl
    exact deviation_of_equal h o i

theorem clampByte_toNat (b : Byte) : clampByte b.toNat = b := by
  have hclamp : (min (max (b.toNat : Int) 0) 255).toNat = b.toNat := by omega
  rw [clampByte, hclamp, BitVec.ofNat_toNat, BitVec.setWidth_eq]

/-- Without an axis no endpoint moves (43_encoder.md R127, R129). -/
theorem nudge_zero (c : Rgb) (k : Int) : nudge c k (perturbation Vec3.zero) = c := by
  simp only [nudge, perturbation, if_true, Vec3.zero, Int.mul_zero, Int.add_zero, clampByte_toNat]

theorem candidateWords_of_isSolid {inp : EncodeInput} (h : isSolid inp = true) {p : Half × Half}
    (hp : p ∈ candidateWords inp) :
    p = (quantize inp.mode inp.texels[0].rgb, quantize inp.mode inp.texels[0].rgb) := by
  obtain ⟨htexels, -⟩ := (isSolid_iff inp).mp h
  simp only [candidateWords, axis_of_equal htexels, nudge_zero, htexels, List.mem_map] at hp
  obtain ⟨-, -, rfl⟩ := hp
  rfl

/-! The decoded texels of a solid block. -/

/-- A selector that names an entry of the emitted palette decodes to that entry, opaque (41_decoder.md R92, R93). -/
theorem decodeTexel_of_lt {m : Mode} {c0 c1 : Half} {sels : Word} {i : Fin 16}
    (h : (sel sels i).toNat < (emittedPalette m c0 c1).length) (setAlpha : Bool) :
    decodeTexel m c0 c1 sels setAlpha i = { rgb := entry (emittedPalette m c0 c1) (sel sels i).toNat, a := 255 } := by
  rw [decodeTexel]
  cases hthree : isThreeColor c0 c1 with
  | true =>
    rw [emittedPalette_of_three m hthree] at h ⊢
    exact if_pos h
  | false =>
    rw [emittedPalette_of_four m hthree]
    rfl

/-- A pair whose palette's nearest entry is near the solid color keeps R118's bound. -/
theorem solidBound_emitPair {inp : EncodeInput} {c0 c1 : Half} (hsolid : isSolid inp = true)
    (hnear : Near inp.texels[0].rgb
      (entry (emittedPalette inp.mode c0 c1) (nearest (emittedPalette inp.mode c0 c1) inp.texels[0].rgb).toNat)) :
    solidBound inp (emitPair inp c0 c1) = true := by
  obtain ⟨htexels, hfsel, -⟩ := (isSolid_iff inp).mp hsolid
  have hlt := nearest_lt _ inp.texels[0].rgb (emittedPalette_ne_nil inp.mode c0 c1) (emittedPalette_length_le ..)
  have hdecoded : ∀ setAlpha i, withinQuantization inp.texels[0].rgb
      (decodeTexel inp.mode c0 c1 (emitPair inp c0 c1).sels setAlpha i) = true := by
    intro setAlpha i
    have hsel : sel (emitPair inp c0 c1).sels i = nearest (emittedPalette inp.mode c0 c1) inp.texels[0].rgb := by
      rw [emitPair, sel_packSelectors, chosenSelector_of_free hfsel (inT_of_isSolid hsolid i), htexels i]
    rw [decodeTexel_of_lt (by rwa [hsel]), hsel, withinQuantization_opaque]
    exact hnear
  simp only [solidBound, List.all_eq_true, Bool.and_eq_true]
  exact fun i _ => ⟨hdecoded true i, hdecoded false i⟩

theorem solidBound_referenceEncode {inp : EncodeInput} (hsolid : isSolid inp = true) (hmode : inp.mode = .ideal) :
    solidBound inp (referenceEncode inp) = true := by
  have hfit : ¬ (fitSet inp).isEmpty = true := fun hempty => by
    simpa [inT_of_isSolid hsolid 0] using (fitSet_isEmpty_iff inp).mp hempty 0
  obtain ⟨r, hr, hemit, -⟩ := referenceEncode_least hfit
  obtain ⟨k, wa, wb, hk, hof⟩ := (mem_records ..).mp hr
  obtain ⟨rfl, rfl⟩ := Prod.mk.inj (candidateWords_of_isSolid hsolid (List.mem_of_getElem? hk))
  have hquant := near_expand565_quantize inp.texels[0].rgb
  rw [hemit]
  rcases (mem_recordsOf ..).mp hof with ⟨-, rfl⟩ | ⟨-, rfl⟩
  · rw [evaluate4_emitted]
    apply solidBound_emitPair hsolid
    rw [emittedPalette_of_four _ (isThreeColor_order4 _ _), hmode]
    exact near_nearest le_rfl (variesInBlue_pal4_self _) hquant
  · rw [evaluate3_emitted]
    apply solidBound_emitPair hsolid
    rw [emittedPalette_of_three _ (isThreeColor_order3 _ _), hmode, order3_self]
    exact near_nearest (Nat.le_succ 3) (variesInBlue_pal3_self _) hquant

/-- Under either policy a solid block keeps the bound in IDEAL mode: a drawn output does by R118 itself. -/
theorem solidBound_encodeUnder (policy : EncoderPolicy) (draw : EncodeInput → Half × Half) {inp : EncodeInput}
    (hsolid : isSolid inp = true) (hmode : inp.mode = .ideal) :
    solidBound inp (encodeUnder policy draw inp) = true := by
  obtain ⟨q, hreference | ⟨hdrawn, hconforms⟩⟩ := encodeUnder_cases policy draw inp
  · rw [hreference]
    exact solidBound_referenceEncode (inp := atQuality inp q) hsolid hmode
  · rw [hdrawn]
    have hkept : solidKept (atQuality inp q) (drawnOutput draw (atQuality inp q)) = true :=
      ((Bool.and_eq_true _ _).mp hconforms).2
    have hallowed : boundAllowed (atQuality inp q) = true := by simp [boundAllowed, atQuality, hmode]
    have hsolid' : isSolid (atQuality inp q) = true := hsolid
    change solidBound (atQuality inp q) (drawnOutput draw (atQuality inp q)) = true
    simpa [solidKept, hsolid', hallowed] using hkept

/-! The command ENCODE and then DECODE. -/

/-- A texel word within rounding is that of a texel within the quantization distance. -/
theorem withinRounding_wordOfTexel {x : Rgb} {t : Texel} (h : withinQuantization x t = true) :
    WithinRounding x (wordOfTexel t) := by
  obtain ⟨hr, hg, hb, ha⟩ := byteOf_append t.a t.rgb.b t.rgb.g t.rgb.r
  have hbits : ∀ k, bits (wordOfTexel t) (8 * k) 8 = (byteOf (wordOfTexel t) k).toNat :=
    fun k => (extractLsb'_toNat_eq_bits _ _ _).symm
  simp only [withinQuantization, Bool.and_eq_true, beq_iff_eq, decide_eq_true_eq, absDiff_eq_gap, and_assoc] at h
  obtain ⟨halpha, hnear⟩ := h
  refine ⟨(hbits 3).trans ?_, ?_⟩
  · rw [wordOfTexel, ha, halpha]
    rfl
  · rw [hbits 0, hbits 1, hbits 2, wordOfTexel, hr, hg, hb]
    exact hnear

/-- DECODE of the two wire words of an encoded block (41_decoder.md R95). -/
theorem exec_decode_of_block {u : State} {c0 c1 : Half} {sels : Word} (h0 : u.block.blki0 = .value (endpointWord c0 c1))
    (h1 : u.block.blki1 = .value sels) (m : Mode) (setAlpha : Bool) :
    ∃ v, exec (.decode m setAlpha) u = .next v ∧
      ∀ i : Fin 16, v.block.dst[i] = .value (wordOfTexel (decodeTexel m c0 c1 sels setAlpha i)) := by
  have hc0 : c0Of u.blki0Word = c0 := by
    rw [State.blki0Word, h0, Reg.use_value, endpointWord_eq_append, c0Of]
    exact BitVec.extractLsb'_append_eq_right
  have hc1 : c1Of u.blki0Word = c1 := by
    rw [State.blki0Word, h0, Reg.use_value, endpointWord_eq_append, c1Of, BitVec.extractLsb'_append_eq_of_le le_rfl]
    exact BitVec.extractLsb'_eq_self
  have hsels : u.blki1Word = sels := by rw [State.blki1Word, h1, Reg.use_value]
  refine ⟨_, rfl, fun i => ?_⟩
  rw [hc0, hc1, hsels]
  exact Vector.getElem_ofFn i.isLt

theorem encodeInput_isSolid {s : State} {x : Texel} (hx : ∀ i, texelOfWord (s.srcWord i) = x) {fb : Bool}
    (hopaque : fb = false ∨ 128 ≤ x.a.toNat) (a3 : Bool) (q : BitVec 8) :
    (s.encodeInput a3 fb false q).texels[0] = x ∧ isSolid (s.encodeInput a3 fb false q) = true := by
  have htexels : ∀ i : Fin 16, (s.encodeInput a3 fb false q).texels[i] = x := fun i =>
    (Vector.getElem_ofFn i.isLt).trans (hx i)
  have hfirst : (s.encodeInput a3 fb false q).texels[0] = x := htexels 0
  refine ⟨hfirst, (isSolid_iff _).mpr ⟨fun i => (htexels i).trans hfirst.symm, rfl, ?_⟩⟩
  rw [hfirst]
  exact hopaque.imp_left fun hfb => by rw [State.encodeInput, hfb, Bool.false_and]

/-- Settles O27: the encoder's output keeps the model's bound of R118, and DECODE of its two wire words gives the texels that
bound speaks of. -/
theorem solidBlockRoundTrip : Obligations.SolidBlockRoundTrip := by
  intro a3 fb q s x hinit hmode hx hopaque
  obtain ⟨htexel, hsolid⟩ := encodeInput_isSolid hx hopaque a3 q
  have hbound := solidBound_encodeUnder Config.encoderPolicy Config.conformingPair hsolid hmode
  simp only [solidBound, List.all_eq_true, mem_texelIndices, forall_const, Bool.and_eq_true, htexel] at hbound
  refine ⟨_, _, _, exec_encode a3 fb false q hinit, rfl, rfl, fun setAlpha u h0 h1 => ?_⟩
  obtain ⟨v, hv, hdst⟩ := exec_decode_of_block h0 h1 .ideal setAlpha
  refine ⟨v, hv, fun i => ⟨_, hdst i, withinRounding_wordOfTexel ?_⟩⟩
  obtain ⟨htrue, hfalse⟩ := hbound i
  rw [← hmode]
  cases setAlpha with
  | true => exact htrue
  | false => exact hfalse

end Sys2Proof.Machine
end

