-- ==== Sys2Proof/Proofs/Facade.lean ====
section
/-! SUPPORT. The proof of 44_facade.md's statement on its command INIT (R155): one rule for each of its three endings. -/

namespace Sys2Proof.Machine

open Sys2Proof.Claims

/-- The first INIT since reset fixes the mode. -/
theorem exec_init_first (m : Mode) {s : State} (h : s.block.initDone = false) :
    exec (.init m) s = .next ({ s with block := s.block.putConfig m }.endWith .ok) := by
  rw [exec, execInit, h, if_neg Bool.false_ne_true]

theorem exec_init_sameMode {s : State} (h : s.block.initDone = true) :
    exec (.init s.block.encMode) s = .next (s.endWith .ok) := by
  rw [exec, execInit, if_pos h, if_pos rfl]

theorem exec_init_otherMode {m : Mode} {s : State} (h : s.block.initDone = true) (hm : m ≠ s.block.encMode) :
    exec (.init m) s = .next (s.endWith .modeLocked) := by
  rw [exec, execInit, if_pos h, if_neg hm]

/-- Settles O18: the words by the fields of R54, and one rule of INIT for each state of the configuration. -/
theorem initRule : Obligations.InitRule := by
  refine ⟨commandWords_of_assemble .init fun w => congrArg Instr.init (fieldMode_eq_modeOf w), fun m s => ?_⟩
  split_ifs with hother hdone
  · obtain ⟨hdone, hm⟩ := hother
    exact exec_init_otherMode hdone hm
  · obtain rfl : m = s.block.encMode := not_not.mp fun hm => hother ⟨hdone, hm⟩
    exact exec_init_sameMode hdone
  · exact exec_init_first m (Bool.eq_false_of_not_eq_true hdone)

end Sys2Proof.Machine
end

/-! SUPPORT. The proofs of 60_exceptions.md's statements: the checks of a command word in their order (R171, R174), and that
a command which fails one of them changes the status alone (R175). -/

namespace Sys2Proof.Machine

open Sys2Proof.Claims

/-! A failed command changes `STATUS` alone (60_exceptions.md R175). -/

/-- A command that ends with a status other than `OK` ended with that status and nothing else: the first INIT and a command
with results end with `OK`. -/
theorem exec_of_status_ne_ok {i : Instr} {s t : State} (h : exec i s = .next t) (hstatus : t.block.status ≠ .ok) :
    t = s.endWith t.block.status := by
  rcases exec_cases i s with ⟨c, hc⟩ | ⟨m, -, -, hm⟩ | ⟨b, hb, -⟩
  · obtain rfl : s.endWith c = t := by simpa [hc] using h
    rfl
  · obtain rfl : { s with block := s.block.putConfig m }.endWith .ok = t := by simpa [hm] using h
    exact absurd rfl hstatus
  · obtain rfl : s.complete b = t := by simpa [hb] using h
    exact absurd rfl hstatus

/-- Settles O17: a rejected word ends with its status and nothing else, an accepted one by `exec_of_status_ne_ok`. -/
theorem failedCommandChangesStatusOnly : Obligations.FailedCommandChangesStatusOnly := by
  intro w s t h hstatus
  rcases runCommand_cases w s with ⟨i, -, hrun⟩ | ⟨r, -, hrun⟩
  · exact exec_of_status_ne_ok (hrun ▸ h) hstatus
  · obtain rfl : s.endWith (statusOfReject r) = t := by simpa [hrun] using h
    rfl

/-! The checks of the word itself: `ILLEGAL_OP` and `RESERVED_FIELD` (60_exceptions.md R171). -/

/-- The operations are the codes 1 to 7: 0 and 8 to 15 name none (30_encoding.md R52). -/
theorem opOfCode_map_code :
    ∀ c : BitVec 4, (opOfCode c).map Op.code = if c.toNat = 0 ∨ 8 ≤ c.toNat then none else some c := by decide

/-- A word whose `OP` names no operation changes the status alone. -/
theorem runCommand_of_illegalOp {w : Word} (h : bits w 0 4 = 0 ∨ 8 ≤ bits w 0 4) (s : State) :
    runCommand w s = .next (s.endWith .illegalOp) := by
  have hnone : opOfCode (fieldOp w) = none := by
    have hmap := opOfCode_map_code (fieldOp w)
    rwa [fieldOp, extractLsb'_toNat_eq_bits, if_pos h, Option.map_eq_none_iff] at hmap
  simp only [runCommand, decodeCommand, hnone, statusOfReject]

/-- Every other word's `OP` is the code of an operation. -/
theorem exists_op_of_legalOp {w : Word} (h : ¬ (bits w 0 4 = 0 ∨ 8 ≤ bits w 0 4)) :
    ∃ op : Op, bits w 0 4 = op.code.toNat := by
  have hmap := opOfCode_map_code (fieldOp w)
  rw [fieldOp, extractLsb'_toNat_eq_bits, if_neg h, Option.map_eq_some_iff] at hmap
  obtain ⟨op, -, hcode⟩ := hmap
  exact ⟨op, by rw [hcode, extractLsb'_toNat_eq_bits]⟩

/-- An operation is known by its code. -/
theorem opCode_toNat_inj {a b : Op} : a.code.toNat = b.code.toNat ↔ a = b := by
  refine ⟨fun h => Option.some.inj ?_, fun h => h ▸ rfl⟩
  rw [← opOfCode_code, ← opOfCode_code, BitVec.eq_of_toNat_eq h]

/-- The statements' table of masks is the decoder's (30_encoding.md R54). -/
theorem legalMask_code (op : Op) : legalMask op.code.toNat = op.legal := by
  cases op <;> rfl

theorem fieldNpal_eq_zero_iff (w : Word) : fieldNpal w = 0 ↔ bits w 11 2 = 0 := by
  rw [fieldNpal, ← extractLsb'_toNat_eq_bits]
  exact (BitVec.toNat_inj (y := 0#2)).symm

/-! The checks of a decoded command: `BAD_OPERAND` and `NOT_INITIALIZED`; `exec_init_otherMode` is `MODE_LOCKED`. -/

theorem exec_assign_zero (s : State) : exec (.assign 0) s = .next (s.endWith .badOperand) := rfl

theorem exec_encode_uninitialized (a3 fb fe : Bool) (q : BitVec 8) {s : State} (h : s.block.initDone = false) :
    exec (.encode a3 fb fe q) s = .next (s.endWith .notInitialized) := by
  simp [exec, execEncode, Block.tables, h]

/-- A command whose operands are legal, on a block that is initialized if it is ENCODE and not locked on another mode if it
is INIT, ends with `OK`: no command has a further check. -/
theorem exec_ends_ok {i : Instr} {s : State} (hoperand : WellFormed i = true)
    (hencode : i.op = .encode → s.block.initDone = true)
    (hinit : ∀ m, i = .init m → s.block.initDone = true → m = s.block.encMode) :
    ∃ t, exec i s = .next t ∧ t.block.status = .ok := by
  cases i with
  | init m =>
    cases hdone : s.block.initDone with
    | false => exact ⟨_, exec_init_first m hdone, rfl⟩
    | true =>
      obtain rfl := hinit m rfl hdone
      exact ⟨_, exec_init_sameMode hdone, rfl⟩
  | encode a3 fb fe q => exact ⟨_, exec_encode a3 fb fe q (hencode rfl), rfl⟩
  | assign npal => exact ⟨_, exec_assign (bne_iff_ne.mp hoperand) s, rfl⟩
  | decode | quantize | expand | palette => exact ⟨_, rfl, rfl⟩

/-- The command of a word of another operation than ASSIGN, or with `NPAL` other than 0, has legal operands. -/
theorem wellFormed_assemble {op : Op} {w : Word} (h : op = .assign → bits w 11 2 ≠ 0) :
    WellFormed (assemble op w) = true := by
  cases op with
  | assign => exact bne_iff_ne.mpr (mt (fieldNpal_eq_zero_iff w).mp (h rfl))
  | _ => rfl

theorem assemble_op (op : Op) (w : Word) : (assemble op w).op = op := by
  cases op <;> rfl

/-- The command of a word is INIT only for INIT's operation, and its mode is then the word's `MODE`. -/
theorem assemble_eq_init {op : Op} {w : Word} {m : Mode} (h : assemble op w = .init m) :
    op = .init ∧ m = modeOf (bits w 4 2) := by
  have hop : op = .init := (assemble_op op w).symm.trans (congrArg Instr.op h)
  subst hop
  rw [← fieldMode_eq_modeOf]
  exact ⟨rfl, (Instr.init.inj h).symm⟩

/-- Settles O4: a word of no operation is rejected; any other is its operation's, so it is rejected for a reserved bit or
runs the command its fields give, which has one check of its own or ends with `OK`. -/
theorem commandWordChecks : Obligations.CommandWordChecks := by
  intro s w rest hp s0 opNumber
  rw [step_write_cmd hp]
  by_cases hillegal : opNumber = 0 ∨ 8 ≤ opNumber
  · rw [if_pos hillegal]
    exact runCommand_of_illegalOp hillegal s0
  rw [if_neg hillegal]
  obtain ⟨op, hop⟩ : ∃ op : Op, opNumber = op.code.toNat := exists_op_of_legalOp hillegal
  obtain ⟨hreserved, hlegal⟩ := commandWords_of_assemble op (fun _ => rfl) w s0 hop
  rw [hop, legalMask_code]
  split_ifs with hmask hoperand huninit hlocked
  · exact hreserved hmask
  all_goals rw [hlegal (not_not.mp hmask)]
  · obtain ⟨hassign, hnpal⟩ := hoperand
    obtain rfl := (opCode_toNat_inj (b := .assign)).mp hassign
    rw [assemble, (fieldNpal_eq_zero_iff w).mpr hnpal]
    exact exec_assign_zero s0
  · obtain ⟨hencode, hdone⟩ := huninit
    obtain rfl := (opCode_toNat_inj (b := .encode)).mp hencode
    exact exec_encode_uninitialized _ _ _ _ hdone
  · obtain ⟨hinit, hdone, hmode⟩ := hlocked
    obtain rfl := (opCode_toNat_inj (b := .init)).mp hinit
    rw [assemble, fieldMode_eq_modeOf]
    exact exec_init_otherMode (s := s0) hdone hmode
  · refine exec_ends_ok (wellFormed_assemble fun hassign hnpal => hoperand ⟨opCode_toNat_inj.mpr hassign, hnpal⟩) ?_ ?_
    · intro hencode
      rw [assemble_op] at hencode
      exact Bool.eq_true_of_not_eq_false fun hdone => huninit ⟨opCode_toNat_inj.mpr hencode, hdone⟩
    · intro m hm hdone
      obtain ⟨hinit, rfl⟩ := assemble_eq_init hm
      exact not_not.mp fun hmode => hlocked ⟨opCode_toNat_inj.mpr hinit, hdone, hmode⟩

end Sys2Proof.Machine

/-! SUPPORT. The proofs of 30_encoding.md's statements on the command word: it decodes to its command at every value of every
field, and no other word does (R51, R54). A field is read back from where it was placed, and a word inside the legal mask is
its fields put back in their places. -/

namespace Sys2Proof.Machine

/-! Placing a field and reading one (30_encoding.md R51). -/

/-- Bit k of a placed field is the field's bit k - lo. -/
theorem getElem_place {n : Nat} (v : BitVec n) (lo : Nat) {k : Nat} (hk : k < 32) :
    (place v lo)[k] = (!decide (k < lo) && v.getLsbD (k - lo)) := by
  simp [place]

/-- A field reads back as it was placed. -/
theorem extractLsb'_place_same {n lo : Nat} (v : BitVec n) (h : lo + n ≤ 32) : (place v lo).extractLsb' lo n = v := by
  ext k hk
  have hbit : lo + k < 32 := by omega
  simp [hbit, getElem_place, hk]

/-- A field that ends below another's place, or starts past its end, does not show there. -/
theorem extractLsb'_place_disjoint {n lo start len : Nat} (v : BitVec n) (hword : start + len ≤ 32)
    (h : start + len ≤ lo ∨ lo + n ≤ start) : (place v lo).extractLsb' start len = 0 := by
  ext k hk
  have hbit : start + k < 32 := by omega
  rw [BitVec.getElem_extractLsb', BitVec.getLsbD_eq_getElem hbit, getElem_place]
  have hout : start + k < lo ∨ n ≤ start + k - lo := by omega
  rcases hout with hbelow | hpast
  · simp [hbelow]
  · simp [BitVec.getLsbD_of_ge v _ hpast]

/-- Putting back what a word holds in a field keeps the word's bits there and clears the others. -/
theorem place_extractLsb' (w : Word) (lo n : Nat) :
    place (w.extractLsb' lo n) lo = w &&& place (BitVec.allOnes n) lo := by
  ext k hk
  rw [BitVec.getElem_and, getElem_place, getElem_place]
  by_cases hlo : k < lo
  · simp [hlo]
  · have hbit : lo + (k - lo) = k := by omega
    simp [hlo, hbit, hk, Bool.and_comm]

/-- A flag is the one-bit field at its place. -/
theorem placeFlag_getLsbD (w : Word) (lo : Nat) : placeFlag (w.getLsbD lo) lo = w &&& place (BitVec.allOnes 1) lo := by
  rw [← place_extractLsb', placeFlag]
  congr 1
  ext k hk
  obtain rfl : k = 0 := by omega
  simp

/-! A command's word decodes to it (30_encoding.md R51, R54). -/

/-- A command's word carries its operation's code, and no bit outside its legal mask. -/
theorem encode_legal (i : Instr) : Laws.LegalMask.Statement i :=
  match i with
  | .init m => Laws.LegalMask.init m
  | .encode a f e q => Laws.LegalMask.encode a f e q
  | .decode m sa => Laws.LegalMask.decode m sa
  | .quantize m => Laws.LegalMask.quantize m
  | .expand => Laws.LegalMask.expand
  | .palette m c3 => Laws.LegalMask.palette m c3
  | .assign n => Laws.LegalMask.assign n

theorem modeOfCode_code (m : Mode) : modeOfCode m.code = m := by
  rcases m with _ | (_ | _ | _) <;> rfl

/-- A command's fields, read from its word, give it back: each is read from its own place, where no other field shows. -/
theorem assemble_encode (i : Instr) : assemble i.op (encode i) = i := by
  cases i <;> simp [assemble, encode, Instr.op, Instr.fields, fieldMode, fieldSetAlpha, fieldAllow3, fieldForceBlack,
    fieldFselEn, fieldCount3, fieldNpal, fieldQuality, placeFlag, getElem_place, Op.code, BitVec.extractLsb'_or,
    extractLsb'_place_same, extractLsb'_place_disjoint, modeOfCode_code]

/-- Settles O2: the word's `OP` names the command's operation, its mask check passes, and its fields give the command. -/
theorem encodeThenDecode : Obligations.EncodeThenDecode := by
  intro i
  obtain ⟨hop, hlegal⟩ := encode_legal i
  rw [decodeCommand_of_fieldOp hop, if_pos hlegal, assemble_encode]

/-! A word that decodes to a command is its word (30_encoding.md R54). -/

theorem code_modeOfCode : ∀ c : BitVec 2, (modeOfCode c).code = c := by decide

/-- The operation that an `OP` value names has that value as its code. -/
theorem code_of_opOfCode {c : BitVec 4} {op : Op} (h : opOfCode c = some op) : op.code = c := by
  have hmap := opOfCode_map_code c
  rw [h, Option.map_some] at hmap
  split at hmap
  · cases hmap
  · exact Option.some.inj hmap

/-- What an accepted word says: its `OP` names an operation, it has no reserved bit, and its fields are the command's. -/
theorem decodeCommand_eq_accept {w : Word} {i : Instr} (h : decodeCommand w = .accept i) :
    ∃ op : Op, fieldOp w = op.code ∧ w &&& ~~~op.legal = 0 ∧ i = assemble op w := by
  cases hop : opOfCode (fieldOp w) with
  | none => simp [decodeCommand, hop] at h
  | some op =>
    refine ⟨op, (code_of_opOfCode hop).symm, ?_⟩
    simp only [decodeCommand, hop] at h
    split at h
    case isTrue hlegal => exact ⟨hlegal, (Decoded.accept.inj h).symm⟩
    case isFalse => cases h

/-- The word of a word's command is that word's bits in the operation's legal mask. -/
theorem encode_assemble {w : Word} {op : Op} (h : fieldOp w = op.code) : encode (assemble op w) = w &&& op.legal := by
  have hop : place op.code 0 = w &&& place (BitVec.allOnes 4) 0 := by rw [← h, fieldOp, place_extractLsb']
  rw [encode, assemble_op, hop]
  cases op with
  | expand => exact BitVec.or_zero
  | _ =>
    simp only [assemble, Instr.fields, fieldMode, code_modeOfCode, fieldSetAlpha, fieldAllow3, fieldForceBlack,
      fieldFselEn, fieldCount3, fieldNpal, fieldQuality, place_extractLsb', placeFlag_getLsbD,
      ← BitVec.and_or_distrib_left]
    rfl

/-- Settles O3: the word passed the mask check, so it is its bits in the mask, which are the word of its command. -/
theorem decodeThenEncode : Obligations.DecodeThenEncode := by
  intro w i h
  obtain ⟨op, hop, hlegal, rfl⟩ := decodeCommand_eq_accept h
  calc encode (assemble op w) = w &&& op.legal ||| w &&& ~~~op.legal := by
        rw [encode_assemble hop, hlegal]
        exact BitVec.or_zero.symm
    _ = w := by rw [← BitVec.and_or_distrib_left, BitVec.or_not_self, BitVec.and_allOnes]

/-- Settles O1: ten written words, each decoded. -/
theorem tableWordsDecode : Obligations.TableWordsDecode := by
  unfold Obligations.TableWordsDecode
  decide

end Sys2Proof.Machine

/-! SUPPORT. The proofs of the statements on every command and every step: what a command leaves as it is (10_state.md R18,
44_facade.md R152), that defined accesses never stop the block (60_exceptions.md R176), and which registers a command reads
(10_state.md R22, 44_facade.md R152). -/

namespace Sys2Proof.Machine

open Sys2Proof.Claims

/-! The events of a step (44_facade.md R150, 70_reset_and_hazards.md R190). -/

/-- Settles O5: the write of `CMD` runs its word, and the word is the command's. -/
theorem stepRunsDecodedCommand : Obligations.StepRunsDecodedCommand := by
  intro s w i rest hp hw
  simp only [step_write_cmd hp, runCommand, hw]

theorem step_idle {s : State} (hp : s.pending = []) : step s = .next s := by
  simp only [step, hp]

/-- Settles O6, by the case of `step` without an access. -/
theorem idleBlockWaits : Obligations.IdleBlockWaits := fun _ => step_idle

theorem step_reset {s : State} {rest : List HostEvent} (hp : s.pending = .reset :: rest) :
    step s = .next { s with pending := rest }.platformReset := by
  simp only [step, hp, State.request]

/-- Settles O12: a reset replaces the block and nothing else. -/
theorem resetEvent : Obligations.ResetEvent := fun _ _ => step_reset

/-! What every command leaves as it is (10_state.md R18, 44_facade.md R152). -/

/-- From s to t the host side, the unit and the operand registers stay, and no draw's number is given back. -/
structure CommandFrame (s t : State) : Prop where
  pending : t.pending = s.pending
  replies : t.replies = s.replies
  unit : t.unit = s.unit
  draws : s.draws ≤ t.draws
  operands : t.block.SameOperands s.block

theorem Block.sameOperands_refl (b : Block) : b.SameOperands b := ⟨rfl, rfl, rfl, rfl, rfl⟩

theorem commandFrame_endWith (s : State) (c : Status) : CommandFrame s (s.endWith c) :=
  ⟨rfl, rfl, rfl, le_rfl, Block.sameOperands_refl _⟩

/-- Every command answers a next state within the frame. -/
theorem exec_frame (i : Instr) (s : State) : ∃ t, exec i s = .next t ∧ CommandFrame s t := by
  rcases exec_cases i s with ⟨c, hc⟩ | ⟨m, -, -, hm⟩ | ⟨b, hb, hoperands, -, -⟩
  · exact ⟨_, hc, commandFrame_endWith s c⟩
  · exact ⟨_, hm, rfl, rfl, rfl, le_rfl, Block.sameOperands_refl _⟩
  · exact ⟨_, hb, rfl, rfl, rfl, Nat.le_add_right .., hoperands⟩

/-- So does every word written to `CMD`: a rejected one changes the status alone. -/
theorem runCommand_frame (w : Word) (s : State) : ∃ t, runCommand w s = .next t ∧ CommandFrame s t := by
  rcases runCommand_cases w s with ⟨i, -, hi⟩ | ⟨r, -, hr⟩
  · rw [hi]
    exact exec_frame i s
  · exact ⟨_, hr, commandFrame_endWith s _⟩

/-- Settles O16, by the frame of a command. -/
theorem commandsKeepOperands : Obligations.CommandsKeepOperands := by
  intro i s
  obtain ⟨t, ht, hframe⟩ := exec_frame i s
  obtain ⟨hsrc, hfsel, hblki0, hblki1, hpali⟩ := hframe.operands
  exact ⟨t, ht, hframe.pending, hframe.replies, hsrc, hfsel, hblki0, hblki1, hpali⟩

/-! Defined accesses never stop the block (20_memory.md R34, 60_exceptions.md R176). -/

/-- A step of a host that makes only defined accesses answers a next state with the rest of its accesses pending. -/
theorem step_of_hostDefined {s : State} (hs : HostDefined s) : ∃ t, step s = .next t ∧ t.pending = s.pending.tail := by
  cases hp : s.pending with
  | nil => exact ⟨s, step_idle hp, hp⟩
  | cons e rest =>
    have he := hs e (by simp [hp])
    cases e with
    | read off size =>
      obtain rfl : size = 4 := by
        by_contra hsize
        simp [definedAccess_eq_false.mpr (.inl hsize)] at he
      exact ⟨_, step_read hp he, rfl⟩
    | write off size v =>
      obtain rfl : size = 4 := by
        by_contra hsize
        simp [definedAccess_eq_false.mpr (.inl hsize)] at he
      by_cases hcmd : off = 0
      · subst hcmd
        obtain ⟨t, ht, hframe⟩ := runCommand_frame v { s with pending := rest }
        exact ⟨t, (step_write_cmd hp).trans ht, hframe.pending⟩
      · exact ⟨_, step_write hp he hcmd, rfl⟩
    | reset => exact ⟨_, step_reset hp, rfl⟩

/-- Settles O10: the accesses left are among those that were defined before. -/
theorem definedAccessesNeverStop : Obligations.DefinedAccessesNeverStop := by
  intro s hs
  obtain ⟨t, ht, hpending⟩ := step_of_hostDefined hs
  exact ⟨t, ht, fun e he => hs e (List.mem_of_mem_tail (hpending ▸ he))⟩

/-! Every command but INIT is a check of its own, and then results that its operand words fix. -/

/-- The status a command other than INIT ends with before it has any effect: ENCODE needs INIT (60_exceptions.md R172), ASSIGN
a palette of two entries at least (R171). -/
def commandCheck (i : Instr) (initDone : Bool) : Option Status :=
  match i with
  | .encode .. => if initDone then none else some .notInitialized
  | .assign n => if n = 0 then some .badOperand else none
  | _ => none

/-- The results that a command other than INIT writes into a block, for the operand words of a state. -/
def commandResults (i : Instr) (s : State) (b : Block) : Block :=
  match i with
  | .init _ => b
  | .encode a3 fb fe q => b.putEncoded (encodeBlock (s.encodeInput a3 fb fe q))
  | .decode m sa =>
    b.putDecoded (fun i => wordOfTexel (decodeTexel m (c0Of s.blki0Word) (c1Of s.blki0Word) s.blki1Word sa i))
      (isThreeColor (c0Of s.blki0Word) (c1Of s.blki0Word))
  | .quantize m => b.putQ565 (quantize m (texelOfWord (s.srcWord 0)).rgb)
  | .expand =>
    (b.putPalo 0 (opaqueWord (expand565 (c0Of s.blki0Word)))).putPalo 1 (opaqueWord (expand565 (c1Of s.blki0Word)))
  | .palette m c3 =>
    { b with palo := Vector.ofFn fun j => .value (paletteWords m c3 (c0Of s.blki0Word) (c1Of s.blki0Word) j) }
  | .assign n => b.putSelection (packSelectors (s.assignSelectors n)) (s.assignErr n)

/-- Results leave the operand registers and the configuration as they are. -/
theorem commandResults_frame (i : Instr) (s : State) (b : Block) :
    (commandResults i s b).SameOperands b ∧ (commandResults i s b).initDone = b.initDone ∧
      (commandResults i s b).encMode = b.encMode := by
  cases i <;> simp [commandResults, Block.SameOperands]

theorem init_or_op_ne_init (i : Instr) : (∃ m, i = .init m) ∨ i.op ≠ .init := by
  cases i with
  | init m => exact .inl ⟨m, rfl⟩
  | _ => exact .inr nofun

theorem exec_of_check_some {i : Instr} {s : State} {c : Status} (h : commandCheck i s.block.initDone = some c) :
    exec i s = .next (s.endWith c) := by
  cases i with
  | encode a3 fb fe q =>
    cases hdone : s.block.initDone with
    | false =>
      obtain rfl : .notInitialized = c := by simpa [commandCheck, hdone] using h
      exact exec_encode_uninitialized a3 fb fe q hdone
    | true => simp [commandCheck, hdone] at h
  | assign n =>
    obtain ⟨rfl, rfl⟩ : n = 0 ∧ .badOperand = c := by simpa [commandCheck] using h
    exact exec_assign_zero s
  | init | decode | quantize | expand | palette => cases h

theorem exec_of_check_none {i : Instr} {s : State} (hi : i.op ≠ .init) (h : commandCheck i s.block.initDone = none) :
    exec i s = .next (s.complete (commandResults i s s.block)) := by
  cases i with
  | init => exact absurd rfl hi
  | encode a3 fb fe q =>
    have hdone : s.block.initDone = true := by simpa [commandCheck] using h
    exact exec_encode a3 fb fe q hdone
  | palette m c3 => exact exec_palette m c3 s
  | assign n =>
    have hn : n ≠ 0 := by simpa [commandCheck] using h
    exact exec_assign hn s
  | decode | quantize | expand => rfl

/-! Repeating a command (44_facade.md R152): operand registers that are written give the same words again. -/

theorem Reg.use_of_written {r : Reg} (h : r ≠ .unspecified) (d d' : Word) : r.use d = r.use d' := by
  cases r with
  | unspecified => exact absurd rfl h
  | value w => rfl

/-- Both states give a command the same operand words. -/
structure SameWords (s t : State) : Prop where
  src : ∀ i, t.srcWord i = s.srcWord i
  fsel : t.fselWord = s.fselWord
  blki0 : t.blki0Word = s.blki0Word
  blki1 : t.blki1Word = s.blki1Word
  pali : ∀ j, t.paliWord j = s.paliWord j

theorem sameWords_of_written {s t : State} (hs : OperandsWritten s.block) (h : t.block.SameOperands s.block) :
    SameWords s t := by
  obtain ⟨hsrc, hfsel, hblki0, hblki1, hpali⟩ := hs
  obtain ⟨esrc, efsel, eblki0, eblki1, epali⟩ := h
  constructor
  · intro i
    rw [State.srcWord, esrc]
    exact Reg.use_of_written (hsrc i) _ _
  · rw [State.fselWord, efsel]
    exact Reg.use_of_written hfsel _ _
  · rw [State.blki0Word, eblki0]
    exact Reg.use_of_written hblki0 _ _
  · rw [State.blki1Word, eblki1]
    exact Reg.use_of_written hblki1 _ _
  · intro j
    rw [State.paliWord, epali]
    exact Reg.use_of_written (hpali j) _ _

/-- A command's results follow from its operand words, ENCODE's from the mode too. -/
theorem SameWords.results {s t : State} (h : SameWords s t) (hmode : t.block.encMode = s.block.encMode) (i : Instr) :
    commandResults i t = commandResults i s := by
  funext b
  cases i with
  | init => rfl
  | encode a3 fb fe q => simp only [commandResults, encodeInput_congr hmode h.src fun _ => h.fsel]
  | quantize => simp only [commandResults, h.src]
  | decode | expand | palette => simp only [commandResults, h.blki0, h.blki1]
  | assign n =>
    have hsel : t.assignSelectors n = s.assignSelectors n := by
      funext k
      simp only [State.assignSelectors, State.sourceTexels, State.paletteOperand, h.src, h.pali]
    simp only [commandResults, State.assignErr, hsel, State.sourceTexels, State.paletteOperand, h.src, h.pali]

/-- Written again, the results of a command are there already. -/
theorem commandResults_again (i : Instr) (s : State) (b : Block) (c : Status) :
    commandResults i s { commandResults i s b with status := c } = { commandResults i s b with status := c } := by
  cases i with
  | expand =>
    simp only [commandResults, Block.putPalo, Block.mk.injEq, true_and]
    ext1 j hj
    match j with
    | 0 | 1 | 2 | 3 => simp
  | decode => simp only [commandResults, Block.putDecoded]
  | init | encode | quantize | palette | assign => rfl

/-- Settles O38: the second INIT finds the mode it asks for or another, as the first did; any other command is checked alike
and, given the same words, writes the same results over themselves. -/
theorem repeatedCommandSameBlock : Obligations.RepeatedCommandSameBlock := by
  intro i s hs
  rcases init_or_op_ne_init i with ⟨m, rfl⟩ | hi
  · cases hdone : s.block.initDone with
    | false => exact ⟨_, _, exec_init_first m hdone, exec_init_sameMode rfl, rfl⟩
    | true =>
      by_cases hm : m = s.block.encMode
      · subst hm
        exact ⟨_, _, exec_init_sameMode hdone, exec_init_sameMode hdone, rfl⟩
      · exact ⟨_, _, exec_init_otherMode hdone hm, exec_init_otherMode hdone hm, rfl⟩
  · cases hcheck : commandCheck i s.block.initDone with
    | some c => exact ⟨_, _, exec_of_check_some hcheck, exec_of_check_some hcheck, rfl⟩
    | none =>
      have hexec := exec_of_check_none hi hcheck
      obtain ⟨hoperands, hdone, hmode⟩ := commandResults_frame i s s.block
      have hagain := exec_of_check_none (s := s.complete (commandResults i s s.block)) hi (hdone ▸ hcheck)
      refine ⟨_, _, hexec, hagain, ?_⟩
      have hwords : SameWords s (s.complete (commandResults i s s.block)) := sameWords_of_written hs hoperands
      rw [hwords.results hmode i]
      exact congrArg (fun b : Block => { b with status := .ok }) (commandResults_again i s s.block .ok)

/-! No command reads `STATUS` or `INFO`; only ENCODE and INIT read `CONFIG` (10_state.md R22). -/

/-- Changed flags reach the results of no command, but for an `INFO` that it does not write. -/
theorem commandResults_withFlags (i : Instr) (s : State) (st : Status) (info : Reg) :
    commandResults i (withFlags s st info) { s.block with status := st, info := info } =
        { commandResults i s s.block with status := st } ∨
      ((commandResults i s s.block).info = s.block.info ∧
        commandResults i (withFlags s st info) { s.block with status := st, info := info } =
          { commandResults i s s.block with status := st, info := info }) := by
  cases i with
  | encode => exact .inl rfl
  | decode => exact .inl (by simp only [commandResults, Block.putDecoded]; rfl)
  | init | quantize | expand | palette | assign => exact .inr ⟨rfl, rfl⟩

/-- A changed configuration reaches the results of no command but ENCODE. -/
theorem commandResults_withConfig {i : Instr} (hi : i.op ≠ .encode) (s : State) (d : Bool) (m : Mode) :
    commandResults i (withConfig s d m) { s.block with initDone := d, encMode := m } =
      { commandResults i s s.block with initDone := d, encMode := m } := by
  cases i with
  | encode => exact absurd rfl hi
  | decode => simp only [commandResults, Block.putDecoded]; rfl
  | init | quantize | expand | palette | assign => rfl

/-- Changed flags change nothing of what INIT does. -/
theorem exec_init_withFlags (m : Mode) (s : State) (st : Status) (info : Reg) : ∃ t u,
    exec (.init m) s = .next t ∧ exec (.init m) (withFlags s st info) = .next u ∧
      t.block.info = s.block.info ∧ u.block = { t.block with info := info } := by
  cases hdone : s.block.initDone with
  | false => exact ⟨_, _, exec_init_first m hdone, exec_init_first m hdone, rfl, rfl⟩
  | true =>
    by_cases hm : m = s.block.encMode
    · subst hm
      exact ⟨_, _, exec_init_sameMode hdone, exec_init_sameMode (s := withFlags s st info) hdone, rfl, rfl⟩
    · exact ⟨_, _, exec_init_otherMode hdone hm, exec_init_otherMode (s := withFlags s st info) hdone hm, rfl, rfl⟩

/-- Settles O39: INIT by its three endings; any other command by its check, which reads no flag and, but for ENCODE's, no
configuration, and by its results, which the change does not reach. -/
theorem flagsNotRead : Obligations.FlagsNotRead := by
  constructor
  · intro i s st info
    rcases init_or_op_ne_init i with ⟨m, rfl⟩ | hi
    · obtain ⟨t, u, ht, hu, hinfo, hblock⟩ := exec_init_withFlags m s st info
      exact ⟨t, u, ht, hu, .inr ⟨hinfo, hblock⟩⟩
    · cases hcheck : commandCheck i s.block.initDone with
      | some c =>
        exact ⟨_, _, exec_of_check_some hcheck, exec_of_check_some (s := withFlags s st info) hcheck, .inr ⟨rfl, rfl⟩⟩
      | none =>
        refine ⟨_, _, exec_of_check_none hi hcheck, exec_of_check_none (s := withFlags s st info) hi hcheck, ?_⟩
        rcases commandResults_withFlags i s st info with hsame | ⟨hinfo, hsame⟩
        · exact .inl (congrArg (fun b : Block => { b with status := .ok }) hsame)
        · exact .inr ⟨hinfo, congrArg (fun b : Block => { b with status := .ok }) hsame⟩
  · intro i s d m hinit hencode
    have hconfig : commandCheck i d = commandCheck i s.block.initDone := by
      cases i with
      | encode => exact absurd rfl hencode
      | init | decode | quantize | expand | palette | assign => rfl
    cases hcheck : commandCheck i s.block.initDone with
    | some c =>
      exact ⟨_, _, exec_of_check_some hcheck, exec_of_check_some (s := withConfig s d m) (hconfig.trans hcheck), rfl⟩
    | none =>
      refine ⟨_, _, exec_of_check_none hinit hcheck,
        exec_of_check_none (s := withConfig s d m) hinit (hconfig.trans hcheck), ?_⟩
      exact congrArg (fun b : Block => { b with status := .ok }) (commandResults_withConfig hencode s d m)

end Sys2Proof.Machine

/-! SUPPORT. The proofs of 10_state.md's statements on the block's invariant (R15, R19-R21; 41_decoder.md R96): the reset block
has it, every write of a result register keeps it, so every command and every step does. -/

namespace Sys2Proof.Machine

open Sys2Proof.Claims

/-! What a register holds. -/

@[simp] theorem Reg.holds_value (w : Word) (p : Word → Prop) : (Reg.value w).Holds p ↔ p w := Iff.rfl

theorem holds_replicate_unspecified {n : Nat} (p : Word → Prop) (i : Fin n) :
    (Vector.replicate n Reg.unspecified)[i].Holds p := by
  rw [Fin.getElem_fin, Vector.getElem_replicate]
  trivial

/-- Settles O14: before INIT the mode is IDEAL, and a register that holds no value satisfies every condition. -/
theorem invariantAtReset : Obligations.InvariantAtReset where
  uninitialized_mode _ := rfl
  erro_bound := trivial
  info_bit := trivial
  q565_half := trivial
  dst_texels := holds_replicate_unspecified PunchThrough
  palo_texels := holds_replicate_unspecified PunchThrough

/-! The words of texels (30_encoding.md R56, 41_decoder.md R96). -/

/-- The alpha of a texel word is its highest byte. -/
theorem alpha_wordOfTexel (t : Texel) : (wordOfTexel t).extractLsb' 24 8 = t.a := by
  obtain ⟨-, -, -, halpha⟩ := byteOf_append t.a t.rgb.b t.rgb.g t.rgb.r
  exact halpha

theorem punchThrough_opaqueWord (c : Rgb) : PunchThrough (opaqueWord c) := .inl (alpha_wordOfTexel _)

/-- A texel of a 3-color block is opaque, or transparent black (41_decoder.md R93). -/
theorem punchThrough_texel3 (p : List Rgb) (setAlpha : Bool) (k : Selector) :
    PunchThrough (wordOfTexel (texel3 p setAlpha k)) := by
  rw [texel3]
  split_ifs
  · exact punchThrough_opaqueWord _
  · exact .inr rfl
  · exact punchThrough_opaqueWord _

theorem punchThrough_decodeTexel (m : Mode) (c0 c1 : Half) (sels : Word) (setAlpha : Bool) (i : Fin 16) :
    PunchThrough (wordOfTexel (decodeTexel m c0 c1 sels setAlpha i)) := by
  rw [decodeTexel]
  split_ifs
  · exact punchThrough_texel3 _ _ _
  · exact punchThrough_opaqueWord _

theorem punchThrough_paletteWords (m : Mode) (count3 : Bool) (c0 c1 : Half) (j : Fin 4) :
    PunchThrough (paletteWords m count3 c0 c1 j) := by
  rw [paletteWords]
  split_ifs
  · exact punchThrough_opaqueWord _
  · exact .inr rfl
  · exact punchThrough_opaqueWord _

/-! The writes of result registers. -/

theorem infoWord_toNat_le (uses3 : Bool) : (infoWord uses3).toNat ≤ 1 := by
  cases uses3 <;> decide

/-- An error within R21's bound stays within it as a word. -/
theorem ofNat_toNat_le {e : Nat} (h : e ≤ 3121200) : (BitVec.ofNat 32 e).toNat ≤ 3121200 := by
  rw [BitVec.toNat_ofNat]
  exact (Nat.mod_le _ _).trans h

namespace Block.Inv

variable {b : Block}

/-- The status is no part of the invariant. -/
theorem withStatus (h : b.Inv) (c : Status) : Block.Inv { b with status := c } := { h with }

theorem putConfig (h : b.Inv) (m : Mode) : (b.putConfig m).Inv := { h with uninitialized_mode := nofun }

theorem putSelection (h : b.Inv) (sels : Word) {e : Nat} (he : e ≤ 3121200) : (b.putSelection sels e).Inv :=
  { h with erro_bound := ofNat_toNat_le he }

theorem putBlock (h : b.Inv) (c0 c1 : Half) (sels : Word) (uses3 : Bool) : (b.putBlock c0 c1 sels uses3).Inv :=
  { h with info_bit := infoWord_toNat_le uses3 }

theorem putEncoded (h : b.Inv) {o : Encoded} (he : o.err ≤ 3121200) : (b.putEncoded o).Inv :=
  (h.putBlock o.c0 o.c1 o.sels o.three).putSelection o.sels he

theorem putDecoded (h : b.Inv) {texel : Fin 16 → Word} (ht : ∀ i, PunchThrough (texel i)) (uses3 : Bool) :
    (b.putDecoded texel uses3).Inv where
  uninitialized_mode := by
    rw [putDecoded_initDone, putDecoded_encMode]
    exact h.uninitialized_mode
  erro_bound := by rw [putDecoded_erro]; exact h.erro_bound
  info_bit := by rw [putDecoded_info]; exact infoWord_toNat_le uses3
  q565_half := by rw [putDecoded_q565o]; exact h.q565_half
  dst_texels i := by
    rw [putDecoded_dst, Fin.getElem_fin, Vector.getElem_ofFn]
    exact ht i
  palo_texels := by rw [putDecoded_palo]; exact h.palo_texels

theorem putQ565 (h : b.Inv) (w : Half) : (b.putQ565 w).Inv :=
  { h with
    q565_half := by
      rw [putQ565_q565o, Reg.holds_value, BitVec.toNat_setWidth_of_le (by decide)]
      exact w.isLt }

theorem putPalo (h : b.Inv) (j : Fin 4) {w : Word} (hw : PunchThrough w) : (b.putPalo j w).Inv :=
  { h with
    palo_texels := fun k => by
      rw [putPalo_palo, Fin.getElem_fin, Vector.getElem_set]
      split_ifs
      · exact hw
      · exact h.palo_texels k }

/-- A host write leaves configuration and results as they are. -/
theorem writeSlot (h : b.Inv) (v : Word) (k : Slot) : (b.writeSlot v k).Inv := by
  obtain ⟨hdst, -, -, -, herro, hinfo, hq565o, hpalo⟩ := writeSlot_results b v k
  constructor
  · rw [writeSlot_initDone, writeSlot_encMode]
    exact h.uninitialized_mode
  · exact herro ▸ h.erro_bound
  · exact hinfo ▸ h.info_bit
  · exact hq565o ▸ h.q565_half
  · exact hdst ▸ h.dst_texels
  · exact hpalo ▸ h.palo_texels

end Block.Inv

/-! Commands and steps. -/

/-- INIT keeps the invariant: it fixes the mode, or changes the status alone. -/
theorem exec_init_inv {m : Mode} {s t : State} (hs : s.block.Inv) (h : exec (.init m) s = .next t) : t.block.Inv := by
  cases hdone : s.block.initDone with
  | false =>
    obtain rfl := Host.Outcome.next.inj ((exec_init_first m hdone).symm.trans h)
    exact (hs.putConfig m).withStatus .ok
  | true =>
    by_cases hm : m = s.block.encMode
    · obtain rfl := Host.Outcome.next.inj ((hm ▸ exec_init_sameMode hdone).symm.trans h)
      exact hs.withStatus .ok
    · obtain rfl := Host.Outcome.next.inj ((exec_init_otherMode hdone hm).symm.trans h)
      exact hs.withStatus .modeLocked

/-- The results of every other command have the invariant's form. -/
theorem commandResults_inv (i : Instr) (s : State) {b : Block} (h : b.Inv) : (commandResults i s b).Inv := by
  cases i with
  | init => exact h
  | encode a3 fb fe q => exact h.putEncoded (emitsPermittedPair_encodeUnder Config.encoderPolicy _ _).err_le
  | decode m sa => exact h.putDecoded (punchThrough_decodeTexel m _ _ _ sa) _
  | quantize => exact h.putQ565 _
  | expand => exact (h.putPalo 0 (punchThrough_opaqueWord _)).putPalo 1 (punchThrough_opaqueWord _)
  | palette m c3 =>
    have hword := punchThrough_paletteWords m c3 (c0Of s.blki0Word) (c1Of s.blki0Word)
    rw [commandResults, ← putPalo_all]
    exact (((h.putPalo 0 (hword 0)).putPalo 1 (hword 1)).putPalo 2 (hword 2)).putPalo 3 (hword 3)
  | assign n => exact h.putSelection _ (totalErr_le _ _ _ _ le_rfl)

theorem exec_inv {i : Instr} {s t : State} (hs : s.block.Inv) (h : exec i s = .next t) : t.block.Inv := by
  rcases init_or_op_ne_init i with ⟨m, rfl⟩ | hi
  · exact exec_init_inv hs h
  · cases hcheck : commandCheck i s.block.initDone with
    | some c =>
      obtain rfl := Host.Outcome.next.inj ((exec_of_check_some hcheck).symm.trans h)
      exact hs.withStatus c
    | none =>
      obtain rfl := Host.Outcome.next.inj ((exec_of_check_none hi hcheck).symm.trans h)
      exact (commandResults_inv i s hs).withStatus .ok

/-- Settles O13, by the event the step takes. -/
theorem invariantKept : Obligations.InvariantKept := by
  intro s t hs h
  rcases step_cases h with ⟨-, rfl⟩ | ⟨e, rest, -, hevent⟩
  · exact hs
  · rcases hevent with ⟨off, -, rfl⟩ | ⟨off, v, -, -, rfl⟩ | ⟨w, -, hrun⟩ | ⟨-, rfl⟩
    · exact hs
    · exact hs.writeSlot v (slotOf off)
    · rcases runCommand_cases w { s with pending := rest } with ⟨i, -, hi⟩ | ⟨r, -, hr⟩
      · exact exec_inv (s := { s with pending := rest }) hs (hi ▸ hrun)
      · obtain rfl := Host.Outcome.next.inj (hr.symm.trans hrun)
        exact hs.withStatus _
    · exact invariantAtReset

end Sys2Proof.Machine

/-! SUPPORT. The proofs of the statements on draws and on several units (10_state.md R26, 60_exceptions.md R185): no two operand
registers share a draw's number, no step gives a number back, and a unit's draws and steps are its own. -/

namespace Sys2Proof.Machine

open Sys2Proof.Claims

/-! The numbers of a command's draws (log 2). -/

/-- The draws of the operand registers, counted from the state's counter: `SRC`, `PALI`, `FSEL`, `BLKI0`, `BLKI1`. -/
def operandNumbers : List Nat :=
  (List.ofFn fun i : Fin 16 => i.val) ++ (List.ofFn fun j : Fin 4 => 19 + j.val) ++ [16, 17, 18]

theorem operandNumbers_nodup : operandNumbers.Nodup := by decide

theorem operandNumbers_lt : ∀ k ∈ operandNumbers, k < operandCount := by decide

theorem map_operandNumbers (n : Nat) : operandNumbers.map (n + ·) =
    (List.ofFn fun i : Fin 16 => n + i.val) ++ (List.ofFn fun j : Fin 4 => n + (19 + j.val)) ++
      [n + 16, n + 17, n + 18] := by
  simp only [operandNumbers, List.map_append, List.map_ofFn, List.map_cons, List.map_nil]
  rfl

/-- An unspecified register is used as its draw. -/
theorem Reg.use_of_unspecified {r : Reg} (h : r = .unspecified) (draw : Word) : r.use draw = draw := by
  rw [h, Reg.use_unspecified]

/-! What a step does to the draw counter and the unit's number. -/

theorem step_frame {s t : State} (h : step s = .next t) : t.unit = s.unit ∧ s.draws ≤ t.draws := by
  rcases step_cases h with ⟨-, rfl⟩ | ⟨e, rest, -, hevent⟩
  · exact ⟨rfl, le_rfl⟩
  · rcases hevent with ⟨off, -, rfl⟩ | ⟨off, v, -, -, rfl⟩ | ⟨w, -, hrun⟩ | ⟨-, rfl⟩
    · exact ⟨rfl, Nat.le_succ _⟩
    · exact ⟨rfl, le_rfl⟩
    · obtain ⟨u, hu, hframe⟩ := runCommand_frame w { s with pending := rest }
      obtain rfl := Host.Outcome.next.inj (hu.symm.trans hrun)
      exact ⟨hframe.unit, hframe.draws⟩
    · exact ⟨rfl, le_rfl⟩

/-- A read that answers a next state is a defined one: it takes one draw. -/
theorem step_read_eq {s t : State} {off : Nat} {rest : List HostEvent} (hp : s.pending = .read off 4 :: rest)
    (h : step s = .next t) : t = { s with pending := rest }.memRead off := by
  cases hd : definedAccess off 4 with
  | true => exact (Host.Outcome.next.inj ((step_read hp hd).symm.trans h)).symm
  | false => cases (step_read_undefined hp hd).symm.trans h

/-- A read of an unspecified register gives the unit's next draw. -/
theorem step_read_unspecified {s : State} {off : Nat} {rest : List HostEvent} (hp : s.pending = .read off 4 :: rest)
    (h : (off, Reg.unspecified) ∈ windowTable s.block) :
    ∃ t, step s = .next t ∧ t.replies = Config.draw s.unit s.draws :: s.replies := by
  obtain ⟨n, hn⟩ := stepReplies_of_register hp h
  exact ⟨_, hn, rfl⟩

/-- A command other than INIT that ends with `OK` takes the numbers of all its operand registers. -/
theorem exec_draws {i : Instr} {s t : State} (h : exec i s = .next t) (hi : i.op ≠ .init) (hok : t.block.status = .ok) :
    t.draws = s.draws + operandCount := by
  cases hcheck : commandCheck i s.block.initDone with
  | none =>
    obtain rfl := Host.Outcome.next.inj ((exec_of_check_none hi hcheck).symm.trans h)
    rfl
  | some c =>
    obtain rfl := Host.Outcome.next.inj ((exec_of_check_some hcheck).symm.trans h)
    obtain rfl : c = .ok := hok
    cases i <;> simp [commandCheck] at hcheck

/-- Settles O40: the operand registers' numbers by `operandNumbers`, the counter by what a step, a read and a command do. -/
theorem drawsAreFresh : Obligations.DrawsAreFresh := by
  refine ⟨fun s => ?_, fun s t h => (step_frame h).2, fun s t off rest hp h => ?_, fun i s t h hi hok =>
    (exec_draws h hi hok).ge⟩
  · refine ⟨fun i => s.draws + i.val, fun j => s.draws + (19 + j.val), s.draws + 16, s.draws + 17, s.draws + 18, ?_, ?_,
      fun i h => Reg.use_of_unspecified h _, fun j h => Reg.use_of_unspecified h _, fun h => Reg.use_of_unspecified h _,
      fun h => Reg.use_of_unspecified h _, fun h => Reg.use_of_unspecified h _⟩
    · rw [← map_operandNumbers]
      exact operandNumbers_nodup.map (add_right_injective s.draws)
    · rw [← map_operandNumbers]
      simp only [List.forall_mem_map]
      exact fun k hk => ⟨Nat.le_add_right .., Nat.add_lt_add_left (operandNumbers_lt k hk) _⟩
  · refine ⟨?_, fun hreg => ?_⟩
    · rw [step_read_eq hp h]
      exact Nat.lt_succ_self _
    · obtain ⟨u, hu, hreplies⟩ := step_read_unspecified hp hreg
      obtain rfl := Host.Outcome.next.inj (hu.symm.trans h)
      exact hreplies

/-! Several units (60_exceptions.md R185). -/

/-- A unit's step that answers a next state is the platform's: it stands in the unit's place. -/
theorem stepUnit_of_step {p : Platform} {k : Nat} {s t : State} (hs : p.units[k]? = some s) (h : step s = .next t) :
    p.stepUnit k = some (.next { p with units := p.units.set k t }) := by
  simp only [Platform.stepUnit, hs, h]

/-- A platform's step that answers a next platform is one unit's step. -/
theorem stepUnit_eq_next {p p' : Platform} {k : Nat} (h : p.stepUnit k = some (.next p')) :
    ∃ s t, p.units[k]? = some s ∧ step s = .next t ∧ p' = { p with units := p.units.set k t } := by
  cases hs : p.units[k]? with
  | none => simp [Platform.stepUnit, hs] at h
  | some s =>
    cases ht : step s with
    | next t =>
      rw [stepUnit_of_step hs ht] at h
      exact ⟨s, t, rfl, ht, (Host.Outcome.next.inj (Option.some.inj h)).symm⟩
    | fault f => cases f
    | refused r => simp [Platform.stepUnit, hs, ht] at h

/-- The unit that stepped stands in its place, and every other where it stood. -/
theorem getElem?_set_unit {l : List State} {k : Nat} {s : State} (hs : l[k]? = some s) (t : State) :
    (l.set k t)[k]? = some t := by
  rw [List.getElem?_set_self (List.getElem?_eq_some_iff.mp hs).1]

/-- Settles O44: the platform's step sets the unit's place in the list and no other. -/
theorem unitsIndependent : Obligations.UnitsIndependent := by
  intro p k s t hs h
  exact ⟨_, stepUnit_of_step hs h, getElem?_set_unit hs t, fun j hj => List.getElem?_set_ne hj.symm⟩

/-- The platform's units after reset: each is the reset state under its own number. -/
theorem reset_units_getElem? {k : Nat} {s : State} (h : Platform.reset.units[k]? = some s) :
    s = { State.reset with unit := k } := by
  simp only [Platform.reset, List.getElem?_map, Option.map_eq_some_iff] at h
  obtain ⟨n, hn, rfl⟩ := h
  obtain ⟨hlt, rfl⟩ := List.getElem?_eq_some_iff.mp hn
  rw [List.getElem_range]

/-- A step of one unit keeps the numbering: it keeps that unit's number, and the others do not move. -/
theorem stepUnit_numbered {p p' : Platform} {k : Nat} (hp : UnitsNumbered p) (h : p.stepUnit k = some (.next p')) :
    UnitsNumbered p' := by
  obtain ⟨s, t, hs, ht, rfl⟩ := stepUnit_eq_next h
  intro j u hu
  by_cases hj : j = k
  · subst hj
    obtain rfl := Option.some.inj ((getElem?_set_unit hs t).symm.trans hu)
    exact (step_frame ht).1.trans (hp j s hs)
  · exact hp j u ((List.getElem?_set_ne (Ne.symm hj)).symm.trans hu)

/-- Settles O55: the reset platform by its list of units, the numbers by what a step keeps, the draws by those of the unit. -/
theorem unitsDrawApart : Obligations.UnitsDrawApart := by
  refine ⟨by simp [Platform.reset], fun k s h => ?_, fun s t h => (step_frame h).1, fun _ _ => rfl, fun p hp =>
    ⟨fun k p' h => stepUnit_numbered hp h, fun k s hs => ?_⟩⟩
  · obtain rfl := reset_units_getElem? h
    exact ⟨rfl, rfl, rfl, rfl, rfl⟩
  · obtain rfl := hp k s hs
    refine ⟨fun i h => ⟨_, Reg.use_of_unspecified h _⟩, fun j h => ⟨_, Reg.use_of_unspecified h _⟩,
      fun h => ⟨_, Reg.use_of_unspecified h _⟩, fun h => ⟨_, Reg.use_of_unspecified h _⟩,
      fun h => ⟨_, Reg.use_of_unspecified h _⟩, fun off rest hread hreg => ?_⟩
    obtain ⟨t, ht, hreplies⟩ := step_read_unspecified hread hreg
    exact ⟨_, t, stepUnit_of_step hs ht, getElem?_set_unit hs t, hreplies⟩

end Sys2Proof.Machine

/-! SUPPORT. The proofs of the statements on the host assembly (30_encoding.md R63, R64) and on reading a register after a write
(20_memory.md R31, R32). -/

namespace Sys2Proof.Machine

/-! The host assembly. -/

/-- A program's accesses are those of its first statement and then those of the rest. -/
theorem withProgram_cons_pending (s : State) (a : Asm) (rest : List Asm) :
    (s.withProgram (a :: rest)).pending = asmEvents a ++ (s.withProgram rest).pending := List.flatMap_cons

/-- A command statement is a write of `CMD` whose word decodes to the command. -/
theorem step_withProgram_command (s : State) (i : Instr) (rest : List Asm) :
    step (s.withProgram (.command i :: rest)) = exec i (s.withProgram rest) :=
  stepRunsDecodedCommand _ _ _ _ (withProgram_cons_pending s (.command i) rest) (encodeThenDecode i)

/-- Settles O45: command statements by the round trip of their words, the others by their lists of accesses. -/
theorem assemblyRunsCommand : Obligations.AssemblyRunsCommand := by
  intro s rest
  refine ⟨fun i => step_withProgram_command s i rest, fun _ _ => rfl, fun _ => rfl, fun _ _ => rfl, fun t => ?_,
    fun _ _ => rfl, fun _ _ => rfl, rfl⟩
  rw [withProgram_cons_pending, asmEvents, texelIndices_eq_finRange, ← List.ofFn_eq_map]
  rfl

/-! Reading after a write (20_memory.md R31, R32). -/

/-- The offset at which an `RW` register stands; 0 for every other slot. -/
def Slot.rwOffset : Slot → Nat
  | .src i => 0x010 + 4 * i.val
  | .fsel => 0x050
  | .blki0 => 0x054
  | .blki1 => 0x058
  | .pali j => 0x060 + 4 * j.val
  | _ => 0

/-- Over the window's 64 words: an `RW` register is reached at its own offset alone, and the ranges of R11 reach them all. -/
theorem slotOf_word : ∀ n < 64, ((slotOf (4 * n)).rw = true → (slotOf (4 * n)).rwOffset = 4 * n) ∧
    ((0x010 ≤ 4 * n ∧ 4 * n ≤ 0x058 ∨ 0x060 ≤ 4 * n ∧ 4 * n ≤ 0x06C) → (slotOf (4 * n)).rw = true) := by decide

theorem slotOf_aligned {off : Nat} (ha : off % 4 = 0) (hw : off < 0x100) :
    ((slotOf off).rw = true → (slotOf off).rwOffset = off) ∧
      ((0x010 ≤ off ∧ off ≤ 0x058 ∨ 0x060 ≤ off ∧ off ≤ 0x06C) → (slotOf off).rw = true) := by
  obtain ⟨n, rfl⟩ : ∃ n, off = 4 * n := ⟨off / 4, by omega⟩
  exact slotOf_word n (by omega)

/-- An `RW` register reads as written. -/
theorem readSlot_writeSlot_same (b : Block) (v draw : Word) {k : Slot} (h : k.rw = true) :
    (b.writeSlot v k).readSlot draw k = v := by
  cases k with
  | src | fsel | blki0 | blki1 | pali => simp [Block.writeSlot, Block.readSlot]
  | _ => cases h

/-- A write of one slot leaves what every other reads. -/
theorem readSlot_writeSlot_ne (b : Block) (v draw : Word) {k k' : Slot} (h : k ≠ k') :
    (b.writeSlot v k).readSlot draw k' = b.readSlot draw k' := by
  cases k with
  | src i =>
    cases k' with
    | src i' =>
      have hi : i.val ≠ i'.val := fun heq => h (congrArg Slot.src (Fin.ext heq))
      simp only [Block.writeSlot, Block.readSlot, Fin.getElem_fin, Vector.getElem_set_ne _ _ hi]
    | _ => rfl
  | pali j =>
    cases k' with
    | pali j' =>
      have hj : j.val ≠ j'.val := fun heq => h (congrArg Slot.pali (Fin.ext heq))
      simp only [Block.writeSlot, Block.readSlot, Fin.getElem_fin, Vector.getElem_set_ne _ _ hj]
    | _ => rfl
  | fsel =>
    cases k' with
    | fsel => exact absurd rfl h
    | _ => rfl
  | blki0 =>
    cases k' with
    | blki0 => exact absurd rfl h
    | _ => rfl
  | blki1 =>
    cases k' with
    | blki1 => exact absurd rfl h
    | _ => rfl
  | _ => rfl

/-- Settles O46: an `RW` register reads as written, and no other offset reaches its slot; a write of another slot changes
nothing. -/
theorem readAfterWrite : Obligations.ReadAfterWrite := by
  intro b v draw off off' _ ha ha' hw hw'
  obtain ⟨hoffset, hrange⟩ := slotOf_aligned ha hw
  obtain ⟨hoffset', -⟩ := slotOf_aligned ha' hw'
  refine ⟨fun hrw => readSlot_writeSlot_same b v draw (hrange hrw), fun hne => ?_⟩
  cases hrw : (slotOf off).rw with
  | true =>
    refine readSlot_writeSlot_ne b v draw fun heq => hne ?_
    rw [← hoffset hrw, heq, hoffset' (heq ▸ hrw)]
  | false => rw [writeSlot_of_not_rw b v hrw]

end Sys2Proof.Machine

/-! SUPPORT. The proofs of 40_quantizer.md's inferences: the IDEAL palettes (R80), and that IDEAL quantization undoes expansion
(R76). -/

namespace Sys2Proof.Machine

open Sys2Proof.Claims

/-! The IDEAL palettes (40_quantizer.md R80). -/

theorem midpoint_comm (a b : Byte) : midpoint a b = midpoint b a := by
  rw [midpoint, midpoint, Nat.add_comm]

theorem rgbZip_comm {f : Byte → Byte → Byte} (hf : ∀ a b, f a b = f b a) (a b : Rgb) : rgbZip f a b = rgbZip f b a := by
  simp only [rgbZip, hf a.r, hf a.g, hf a.b]

/-- Channel by channel, c lies between a and b. -/
structure Between (a b c : Rgb) : Prop where
  r : min a.r.toNat b.r.toNat ≤ c.r.toNat ∧ c.r.toNat ≤ max a.r.toNat b.r.toNat
  g : min a.g.toNat b.g.toNat ≤ c.g.toNat ∧ c.g.toNat ≤ max a.g.toNat b.g.toNat
  b : min a.b.toNat b.b.toNat ≤ c.b.toNat ∧ c.b.toNat ≤ max a.b.toNat b.b.toNat

theorem between_left (a b : Rgb) : Between a b a := by
  constructor <;> simp

theorem Between.symm {a b c : Rgb} (h : Between a b c) : Between b a c where
  r := by rw [Nat.min_comm, Nat.max_comm]; exact h.r
  g := by rw [Nat.min_comm, Nat.max_comm]; exact h.g
  b := by rw [Nat.min_comm, Nat.max_comm]; exact h.b

/-- A mean of two colors lies between them. -/
theorem between_rgbZip {f : Byte → Byte → Byte}
    (hf : ∀ x y, min x.toNat y.toNat ≤ (f x y).toNat ∧ (f x y).toNat ≤ max x.toNat y.toNat) (a b : Rgb) :
    Between a b (rgbZip f a b) := ⟨hf a.r b.r, hf a.g b.g, hf a.b b.b⟩

theorem between_twoThirds (a b : Rgb) : Between a b (rgbZip twoThirds a b) :=
  between_rgbZip (fun x y => by rw [twoThirds_toNat]; omega) a b

theorem between_midpoint (a b : Rgb) : Between a b (rgbZip midpoint a b) :=
  between_rgbZip (fun x y => by rw [midpoint_toNat]; omega) a b

/-- Every entry of both IDEAL palettes lies between the endpoints' colors: it is one of them or a mean. -/
theorem between_ideal_palettes {c0 c1 : Half} {c : Rgb} (h : c ∈ pal4 .ideal c0 c1 ++ pal3 .ideal c0 c1) :
    Between (expand565 c0) (expand565 c1) c := by
  simp only [pal4, pal3, interp4, interp3, List.cons_append, List.nil_append, List.mem_cons, List.not_mem_nil, or_false] at h
  obtain rfl | rfl | rfl | rfl | rfl | rfl | rfl := h
  · exact between_left _ _
  · exact (between_left _ _).symm
  · exact between_twoThirds _ _
  · exact (between_twoThirds _ _).symm
  · exact between_left _ _
  · exact (between_left _ _).symm
  · exact between_midpoint _ _

/-- Between a color and itself there is only that color. -/
theorem Between.eq_of_self {a c : Rgb} (h : Between a a c) : c = a := by
  cases a with
  | mk ar ag ab =>
    cases c with
    | mk cr cg cb =>
      obtain ⟨hr, hg, hb⟩ := h
      simp only [min_self, max_self, ← le_antisymm_iff, BitVec.toNat_inj] at hr hg hb
      rw [hr, hg, hb]

/-- Settles O42: the symmetry by the formulas, the other facts because each entry lies between the endpoints' colors. -/
theorem idealPaletteFacts : Obligations.IdealPaletteFacts := by
  refine fun c0 c1 => ⟨rfl, rgbZip_comm midpoint_comm _ _, ?_, fun c hc => ?_⟩
  · rintro rfl c hc
    exact (between_ideal_palettes hc).eq_of_self
  · obtain ⟨⟨hr, hr'⟩, ⟨hg, hg'⟩, hb, hb'⟩ := between_ideal_palettes hc
    exact ⟨hr, hr', hg, hg', hb, hb'⟩

/-! Quantization undoes expansion (40_quantizer.md R76). -/

/-- Where codes can be read off their expansions, the code nearest to an expansion is its own. -/
theorem code_eq_of_leastAt {n last : Nat} {e d : Nat → Nat} (hd : ∀ v : BitVec n, d (e v.toNat) = v.toNat)
    {q v : BitVec n} (hv : v.toNat ≤ last) (h : LeastAt (fun u => gap (e u) (e v.toNat)) last q.toNat) : q = v := by
  obtain ⟨-, hmin, -⟩ := h
  have hexpansion : e q.toNat = e v.toNat := by
    have hle := hmin v.toNat hv
    simp only [gap] at hle
    omega
  apply BitVec.eq_of_toNat_eq
  rw [← hd q, hexpansion, hd v]

/-- A 5-bit code is the upper bits of its expansion (40_quantizer.md R70). -/
theorem e5_shiftRight : ∀ v : BitVec 5, e5 v.toNat >>> 3 = v.toNat := by decide

/-- A 6-bit code is the upper bits of its expansion (40_quantizer.md R71). -/
theorem e6_shiftRight : ∀ v : BitVec 6, e6 v.toNat >>> 2 = v.toNat := by decide

theorem quant5_expand5 (v : BitVec 5) : quant5 (expand5 v) = v := by
  have hleast := quant5_leastAt (expand5 v)
  rw [expand5_toNat] at hleast
  exact code_eq_of_leastAt (d := (· >>> 3)) e5_shiftRight (Nat.le_of_lt_succ v.isLt) hleast

theorem quant6_expand6 (v : BitVec 6) : quant6 (expand6 v) = v := by
  have hleast := quant6_leastAt (expand6 v)
  rw [expand6_toNat] at hleast
  exact code_eq_of_leastAt (d := (· >>> 2)) e6_shiftRight (Nat.le_of_lt_succ v.isLt) hleast

/-- A packed 565 word is its three codes (30_encoding.md R57). -/
theorem pack565_fields (w : Half) : pack565 (red5 w) (green6 w) (blue5 w) = w := by
  simp only [pack565, red5, green6, blue5]
  repeat rw [BitVec.extractLsb'_append_extractLsb'_eq_extractLsb' (by rfl)]
  exact BitVec.extractLsb'_eq_self

/-- Settles O43: code by code for the round trip; every color is quantized within the distance of R76. -/
theorem quantizeInvertsExpand : Obligations.QuantizeInvertsExpand := by
  refine ⟨fun w => ?_, fun c => ?_⟩
  · simp only [quantize, expand565, quant5_expand5, quant6_expand6]
    exact pack565_fields w
  · simp only [← absDiff_eq_gap]
    exact near_expand565_quantize c

end Sys2Proof.Machine

/-! SUPPORT. The proofs of the statements on the reference search's visits (43_encoder.md R129, R136), its normalisation (R124)
and its perturbation step (R127). -/

namespace Sys2Proof.Machine

open Sys2Proof.Claims

/-! The visited pairs (43_encoder.md R129). -/

theorem symmetricRange_eq_map (r : Nat) : symmetricRange r = (List.range (2 * r + 1)).map fun n : Nat => (n : Int) - r := by
  simp only [symmetricRange, List.bind_eq_flatMap, List.pure_def, ← List.map_eq_flatMap, List.map_map]
  rfl

theorem mem_symmetricRange {r : Nat} {a : Int} : a ∈ symmetricRange r ↔ a.natAbs ≤ r := by
  simp only [symmetricRange_eq_map, List.mem_map, List.mem_range]
  constructor
  · rintro ⟨n, hn, rfl⟩
    omega
  · exact fun h => ⟨(a + r).toNat, by omega, by omega⟩

theorem symmetricRange_pairwise (r : Nat) : (symmetricRange r).Pairwise (· < ·) := by
  simp only [symmetricRange_eq_map, List.pairwise_map]
  exact List.pairwise_lt_range.imp fun h => by omega

/-- The size of a pair: which ring it is in. -/
def ringOf (p : Int × Int) : Nat := max p.1.natAbs p.2.natAbs

theorem mem_ring {r : Nat} {p : Int × Int} : p ∈ ring r ↔ ringOf p = r := by
  obtain ⟨a, b⟩ := p
  simp only [ring, ringOf, List.mem_flatMap, List.mem_map, List.mem_filter, mem_symmetricRange, beq_iff_eq, Prod.mk.injEq]
  constructor
  · rintro ⟨a, -, b, ⟨-, h⟩, rfl, rfl⟩
    exact h
  · exact fun h => ⟨a, by omega, b, ⟨by omega, h⟩, rfl, rfl⟩

theorem mem_visits {r : Nat} {p : Int × Int} : p ∈ visits r ↔ ringOf p ≤ r := by
  simp only [visits, List.mem_flatMap, List.mem_range, mem_ring, exists_eq_right', Nat.lt_succ_iff]

/-- The order of the visits: ring by ring, in a ring by a, then by b. -/
def VisitedBefore (p p' : Int × Int) : Prop :=
  ringOf p < ringOf p' ∨ ringOf p = ringOf p' ∧ (p.1 < p'.1 ∨ p.1 = p'.1 ∧ p.2 < p'.2)

/-- A ring is visited by a, then by b. -/
theorem ring_pairwise (r : Nat) : (ring r).Pairwise VisitedBefore := by
  have hring : ∀ {p p'}, p ∈ ring r → p' ∈ ring r → ringOf p = ringOf p' := fun hp hp' =>
    (mem_ring.mp hp).trans (mem_ring.mp hp').symm
  have hlex : (ring r).Pairwise fun p p' => p.1 < p'.1 ∨ p.1 = p'.1 ∧ p.2 < p'.2 := by
    simp only [ring, List.pairwise_flatMap, List.pairwise_map, List.mem_map]
    refine ⟨fun a _ => ?_, (symmetricRange_pairwise r).imp ?_⟩
    · exact ((symmetricRange_pairwise r).filter _).imp fun h => .inr ⟨trivial, h⟩
    · rintro a a' h _ ⟨b, -, rfl⟩ _ ⟨b', -, rfl⟩
      exact .inl h
  exact hlex.imp_of_mem fun hp hp' h => .inr ⟨hring hp hp', h⟩

theorem visits_pairwise (r : Nat) : (visits r).Pairwise VisitedBefore := by
  simp only [visits, List.pairwise_flatMap]
  refine ⟨fun k _ => ring_pairwise k, List.pairwise_lt_range.imp fun hlt p hp p' hp' => .inl ?_⟩
  rwa [mem_ring.mp hp, mem_ring.mp hp']

/-- No pair is visited before itself, so none is visited twice. -/
theorem visits_nodup (r : Nat) : (visits r).Nodup :=
  (visits_pairwise r).imp fun h heq => by
    subst heq
    simp [VisitedBefore] at h

theorem visits_prefix {r r' : Nat} (h : r ≤ r') : visits r <+: visits r' := by
  obtain ⟨d, rfl⟩ := Nat.exists_eq_add_of_le h
  rw [visits, visits, Nat.add_right_comm, List.range_add (n := r + 1), List.flatMap_append]
  exact List.prefix_append _ _

/-- The pairs of breadth r fill the square of side 2 r + 1. -/
theorem visits_length (r : Nat) : (visits r).length = (2 * r + 1) ^ 2 := by
  have hsquare : (visits r).toFinset = Finset.Icc (-r : Int) r ×ˢ Finset.Icc (-r : Int) r := by
    ext p
    simp only [List.mem_toFinset, mem_visits, ringOf, Finset.mem_product, Finset.mem_Icc]
    omega
  rw [← List.toFinset_card_of_nodup (visits_nodup r), hsquare, Finset.card_product, Int.card_Icc, sq]
  congr 1 <;> omega

/-- Settles O33: membership and order by rings, no repeats by the order, the count by the square the pairs fill. -/
theorem candidateOrder : Obligations.CandidateOrder := by
  refine ⟨fun r a b => mem_visits.trans max_le_iff, visits_nodup, visits_pairwise, fun r r' => visits_prefix, fun q => ?_⟩
  rw [visits_length, breadth, rMax]

/-! Normalisation (43_encoder.md R124). -/

theorem maxAbs_eq_zero_iff (v : Vec3) : v.maxAbs = 0 ↔ v = Vec3.zero := by
  cases v
  simp only [Vec3.maxAbs, Vec3.zero, Vec3.mk.injEq]
  omega

/-- A function that acts on sizes in their order takes the largest size to the largest. -/
theorem maxAbs_map {f : Int → Int} {g : Nat → Nat} (hg : Monotone g) (hf : ∀ a, (f a).natAbs = g a.natAbs) (v : Vec3) :
    Vec3.maxAbs { x := f v.x, y := f v.y, z := f v.z } = g v.maxAbs := by
  simp only [Vec3.maxAbs, hf, hg.map_max]

/-- A shift brings a number below 1024 iff it is at least `normShift`: the number has `log2` + 1 bits. -/
theorem shift_lt_iff {m : Nat} (hm : m ≠ 0) (k : Nat) : m / 2 ^ k < 1024 ↔ normShift m ≤ k := by
  rw [Nat.div_lt_iff_lt_mul (Nat.two_pow_pos k), show 1024 * 2 ^ k = 2 ^ (10 + k) by rw [pow_add]; rfl, ← Nat.log2_lt hm,
    normShift]
  omega

theorem natAbs_shiftToward0 (k : Nat) (a : Int) : (shiftToward0 k a).natAbs = a.natAbs / 2 ^ k := by
  rw [shiftToward0, Nat.shiftRight_eq_div_pow, Int.natAbs_mul, Int.natAbs_natCast]
  by_cases ha : a = 0
  · simp [ha]
  · rw [Int.natAbs_sign_of_ne_zero ha, Nat.one_mul]

theorem maxAbs_norm (w : Vec3) : w.norm.maxAbs = w.maxAbs / 2 ^ normShift w.maxAbs :=
  maxAbs_map (f := shiftToward0 (normShift w.maxAbs)) (fun _ _ h => Nat.div_le_div_right h) (natAbs_shiftToward0 _) w

theorem norm_of_small {w : Vec3} (h : normShift w.maxAbs = 0) : w.norm = w := by
  simp only [Vec3.norm, h, shiftToward0, Nat.shiftRight_zero, Int.sign_mul_natAbs]

/-- The least shift leaves a largest component of at least 512, unless it is 0. -/
theorem le_shift_normShift {m : Nat} (h : normShift m ≠ 0) : 512 ≤ m / 2 ^ normShift m := by
  have hm : m ≠ 0 := by
    rintro rfl
    exact h rfl
  have hbits : 2 ^ m.log2 ≤ m := Nat.log2_self_le hm
  rw [Nat.le_div_iff_mul_le (Nat.two_pow_pos _)]
  calc 512 * 2 ^ normShift m = 2 ^ (9 + normShift m) := by rw [pow_add]; rfl
    _ = 2 ^ m.log2 := by congr 1; simp only [normShift] at h ⊢; omega
    _ ≤ m := hbits

/-- Settles O34: the shift by the bits of the largest component, which the shift leaves between 512 and 1023. -/
theorem normalisationRule : Obligations.NormalisationRule := by
  intro w hw
  have hpos : w.maxAbs ≠ 0 := mt (maxAbs_eq_zero_iff w).mp hw
  have hlt := (shift_lt_iff hpos _).mpr le_rfl
  have hsize : 512 ≤ w.norm.maxAbs ∨ w.norm = w := by
    by_cases hshift : normShift w.maxAbs = 0
    · exact .inr (norm_of_small hshift)
    · exact .inl (maxAbs_norm w ▸ le_shift_normShift hshift)
  have hcomponent : ∀ a : Int, shiftToward0 (normShift w.maxAbs) a =
      a.sign * ((a.natAbs / 2 ^ normShift w.maxAbs : Nat) : Int) := fun a => by
    rw [shiftToward0, Nat.shiftRight_eq_div_pow]
  refine ⟨hlt, fun k => (shift_lt_iff hpos k).mp, hcomponent _, hcomponent _, hcomponent _, ?_, maxAbs_norm w ▸ hlt, hsize⟩
  rcases hsize with hlarge | hsame
  · exact fun hzero => by simp [(maxAbs_eq_zero_iff _).mpr hzero] at hlarge
  · rwa [hsame]

/-! The perturbation step (43_encoder.md R127). -/

theorem natAbs_tdiv_step (m : Nat) (v : Int) : ((perturbStep * v).tdiv m).natAbs = 8 * v.natAbs / m := by
  rw [perturbStep, Int.natAbs_tdiv, Int.natAbs_mul]
  rfl

/-- A channel of the step has v's sign. -/
theorem tdiv_step_sign (m : Nat) (v : Int) : 0 ≤ (perturbStep * v).tdiv m * v := by
  have hnonneg : ∀ u : Int, 0 ≤ u → 0 ≤ (perturbStep * u).tdiv m * u := fun u hu =>
    mul_nonneg (Int.tdiv_nonneg (mul_nonneg (by decide) hu) (Int.natCast_nonneg m)) hu
  rcases le_total 0 v with hv | hv
  · exact hnonneg v hv
  · have h := hnonneg (-v) (neg_nonneg.mpr hv)
    rwa [mul_neg perturbStep, Int.neg_tdiv, neg_mul_neg] at h

theorem perturbation_eq {v : Vec3} (hv : v ≠ Vec3.zero) : perturbation v =
    { x := (perturbStep * v.x).tdiv v.maxAbs, y := (perturbStep * v.y).tdiv v.maxAbs,
      z := (perturbStep * v.z).tdiv v.maxAbs } := if_neg hv

/-- Settles O35: channel by channel, and the largest component of v has a step of 8 v / v. -/
theorem perturbationRule : Obligations.PerturbationRule := by
  refine ⟨rfl, fun v hv => ?_⟩
  have hpos : 0 < v.maxAbs := Nat.pos_of_ne_zero (mt (maxAbs_eq_zero_iff v).mp hv)
  have hsize := natAbs_tdiv_step v.maxAbs
  have hsign := tdiv_step_sign v.maxAbs
  rw [perturbation_eq hv]
  refine ⟨?_, ⟨(hsize _).symm, hsign _⟩, ⟨(hsize _).symm, hsign _⟩, (hsize _).symm, hsign _⟩
  rw [maxAbs_map (f := fun a => (perturbStep * a).tdiv v.maxAbs) (g := fun n => 8 * n / v.maxAbs)
    (fun _ _ h => Nat.div_le_div_right (Nat.mul_le_mul_left 8 h)) hsize v]
  exact Nat.mul_div_cancel 8 hpos

end Sys2Proof.Machine

/-! SUPPORT. The proofs of the statements on the reference search's statistics (43_encoder.md R123), its dominant axis (R125) and
its extreme texels (R126): the machine's vectors and matrix in the plain numbers of the rules. -/

namespace Sys2Proof.Machine

open Sys2Proof.Claims

/-! Components. -/

theorem vec3_ext {v w : Vec3} (h : ∀ c, component v c = component w c) : v = w := by
  cases v
  cases w
  rw [Vec3.mk.injEq]
  exact ⟨h 0, h 1, h 2⟩

@[simp] theorem component_vec (f : Fin 3 → Int) (c : Fin 3) : component (vec f) c = f c := by
  match c with
  | 0 | 1 | 2 => rfl

@[simp] theorem component_zero (c : Fin 3) : component Vec3.zero c = 0 := by
  match c with
  | 0 | 1 | 2 => rfl

@[simp] theorem component_plus (v w : Vec3) (c : Fin 3) : component (v.plus w) c = component v c + component w c := by
  match c with
  | 0 | 1 | 2 => rfl

@[simp] theorem component_minus (v w : Vec3) (c : Fin 3) : component (v.minus w) c = component v c - component w c := by
  match c with
  | 0 | 1 | 2 => rfl

@[simp] theorem component_scale (k : Int) (v : Vec3) (c : Fin 3) : component (v.scale k) c = k * component v c := by
  match c with
  | 0 | 1 | 2 => rfl

@[simp] theorem component_rgbVec (x : Rgb) (c : Fin 3) : component (rgbVec x) c = channel x c := by
  match c with
  | 0 | 1 | 2 => rfl

theorem dot_eq_sum (v w : Vec3) : v.dot w = ∑ c : Fin 3, component v c * component w c :=
  (Fin.sum_univ_three fun c => component v c * component w c).symm

/-! Sums over the fit set (43_encoder.md R120, R123). -/

/-- A sum over O is the plain sum over the texels that are not transparent. -/
theorem sum_map_fitSet {M : Type} [AddCommMonoid M] (inp : EncodeInput) (f : Fin 16 → M) :
    ((fitSet inp).map f).sum = ∑ i : Fin 16, if inT inp i then 0 else f i := by
  simp only [fitSet, inT_eq_isTransparent, texelIndices_eq_finRange, Fin.sum_univ_def]
  induction List.finRange 16 with
  | nil => rfl
  | cons i is ih => cases h : isTransparent inp i <;> simp [h, ih]

theorem fitSet_length_eq (inp : EncodeInput) : ((fitSet inp).length : Int) = fitCount inp := by
  have hsum : ((fitSet inp).map fun _ => (1 : Int)).sum = fitCount inp := sum_map_fitSet inp _
  simpa using hsum

theorem component_channelSums (x : Vector Texel 16) (o : List (Fin 16)) (c : Fin 3) :
    component (channelSums x o) c = (o.map fun i => (channel x[i].rgb c : Int)).sum := by
  induction o with
  | nil => simp [channelSums]
  | cons i is ih => simp [channelSums, ih]

theorem component_channelSums_fitSet (inp : EncodeInput) (c : Fin 3) :
    component (channelSums inp.texels (fitSet inp)) c = sumOf inp c := by
  rw [component_channelSums, sum_map_fitSet]
  rfl

theorem component_deviation (inp : EncodeInput) (i : Fin 16) (c : Fin 3) :
    component (deviation inp.texels (fitSet inp) i) c = devOf inp i c := by
  rw [deviation, component_minus, component_scale, component_rgbVec, component_channelSums_fitSet, fitSet_length_eq]
  rfl

theorem component_covarianceOf (ds : List Vec3) (k c : Fin 3) :
    component (column (covarianceOf ds) k) c = (ds.map fun d => component d c * component d k).sum := by
  induction ds with
  | nil =>
    match k with
    | 0 | 1 | 2 => exact component_zero c
  | cons d ds ih =>
    have hcolumn : column (covarianceOf (d :: ds)) k = (d.scale (component d k)).plus (column (covarianceOf ds) k) := by
      match k with
      | 0 | 1 | 2 => rfl
    rw [hcolumn, component_plus, component_scale, ih, List.map_cons, List.sum_cons, mul_comm]

theorem component_searchCovariance (inp : EncodeInput) (k c : Fin 3) :
    component (column (searchCovariance inp) k) c = covOf inp c k := by
  rw [searchCovariance, covariance, component_covarianceOf, List.map_map, sum_map_fitSet]
  simp only [Function.comp_apply, component_deviation]
  rfl

/-! The ranges of R123. -/

theorem channel_le (x : Rgb) (c : Fin 3) : channel x c ≤ 255 := by
  match c with
  | 0 => exact Nat.le_of_lt_succ x.r.isLt
  | 1 => exact Nat.le_of_lt_succ x.g.isLt
  | 2 => exact Nat.le_of_lt_succ x.b.isLt

theorem sumOf_range (inp : EncodeInput) (c : Fin 3) : 0 ≤ sumOf inp c ∧ sumOf inp c ≤ 4080 := by
  have hterm : ∀ i, 0 ≤ (if inT inp i then 0 else sourceChannel inp i c) ∧
      (if inT inp i then 0 else sourceChannel inp i c) ≤ 255 := by
    intro i
    have hle := channel_le inp.texels[i].rgb c
    simp only [sourceChannel]
    split <;> omega
  exact ⟨Finset.sum_nonneg fun i _ => (hterm i).1, Finset.sum_le_card_nsmul _ _ 255 fun i _ => (hterm i).2⟩

/-- A deviation is the sum of the texel's differences from the texels of O. -/
theorem devOf_eq_sum (inp : EncodeInput) (i : Fin 16) (c : Fin 3) :
    devOf inp i c = ∑ j : Fin 16, if inT inp j then 0 else sourceChannel inp i c - sourceChannel inp j c := by
  simp only [devOf, fitCount, sumOf, Finset.sum_mul, ← Finset.sum_sub_distrib]
  refine Finset.sum_congr rfl fun j _ => ?_
  split <;> simp

/-- The texel's difference from itself is 0, so at most 15 of the differences, each of at most 255, count. -/
theorem devOf_natAbs_le (inp : EncodeInput) (i : Fin 16) (c : Fin 3) : (devOf inp i c).natAbs ≤ 3825 := by
  have hterm : ∀ j, |if inT inp j then 0 else sourceChannel inp i c - sourceChannel inp j c| ≤ if j = i then 0 else 255 := by
    intro j
    have hi := channel_le inp.texels[i].rgb c
    have hj := channel_le inp.texels[j].rgb c
    by_cases hij : j = i
    · simp [hij]
    · rw [if_neg hij, abs_le]
      simp only [sourceChannel]
      split <;> omega
  have hsum : ∀ i : Fin 16, (∑ j : Fin 16, if j = i then 0 else 255 : Int) = 3825 := by decide
  have habs : |devOf inp i c| ≤ 3825 := by
    rw [devOf_eq_sum, ← hsum i]
    exact (Finset.abs_sum_le_sum_abs _ _).trans (Finset.sum_le_sum fun j _ => hterm j)
  rw [Int.abs_eq_natAbs] at habs
  omega

theorem covOf_natAbs_le (inp : EncodeInput) (c k : Fin 3) : (covOf inp c k).natAbs ≤ 16 * 3825 ^ 2 := by
  have hterm : ∀ i, |if inT inp i then 0 else devOf inp i c * devOf inp i k| ≤ 3825 ^ 2 := by
    intro i
    have hprod : (devOf inp i c * devOf inp i k).natAbs ≤ 3825 * 3825 := by
      rw [Int.natAbs_mul]
      exact Nat.mul_le_mul (devOf_natAbs_le inp i c) (devOf_natAbs_le inp i k)
    split
    · decide
    · rw [Int.abs_eq_natAbs]
      omega
  have habs : |covOf inp c k| ≤ 16 * 3825 ^ 2 :=
    (Finset.abs_sum_le_sum_abs _ _).trans (Finset.sum_le_card_nsmul _ _ _ fun i _ => hterm i)
  rw [Int.abs_eq_natAbs] at habs
  omega

/-- Settles O50: each of the search's sums is the rule's, term by term, and its range by the ranges of its terms. -/
theorem covarianceRule : Obligations.CovarianceRule := fun inp =>
  ⟨fun c => ⟨component_channelSums_fitSet inp c, sumOf_range inp c⟩,
    fun i c => ⟨component_deviation inp i c, devOf_natAbs_le inp i c⟩,
    fun c k => ⟨component_searchCovariance inp k c, covOf_natAbs_le inp c k⟩⟩

/-! The dominant axis (43_encoder.md R125). -/

/-- The matrix is symmetric and its diagonal entries are sums of squares. -/
theorem covOf_comm (inp : EncodeInput) (c k : Fin 3) : covOf inp c k = covOf inp k c := by
  simp only [covOf, mul_comm]

theorem covOf_self_nonneg (inp : EncodeInput) (c : Fin 3) : 0 ≤ covOf inp c c :=
  Finset.sum_nonneg fun i _ => by
    split
    · exact le_rfl
    · exact mul_self_nonneg _

/-- Column k of the search's matrix is the rule's. -/
theorem column_searchCovariance (inp : EncodeInput) (k : Fin 3) :
    column (searchCovariance inp) k = vec fun c => covOf inp c k :=
  vec3_ext fun c => by rw [component_searchCovariance, component_vec]

/-- The search's matrix times a vector. -/
theorem apply_searchCovariance (inp : EncodeInput) (v : Vec3) :
    (searchCovariance inp).apply v = vec fun c => ∑ k : Fin 3, covOf inp c k * component v k := by
  have hrow : ∀ c, component ((searchCovariance inp).apply v) c = (column (searchCovariance inp) c).dot v := fun c =>
    match c with
    | 0 | 1 | 2 => rfl
  refine vec3_ext fun c => ?_
  rw [hrow, dot_eq_sum, component_vec]
  simp only [component_searchCovariance, covOf_comm inp c]

/-- One round of power iteration. -/
def powerStep (c : Mat3) (v : Vec3) : Vec3 := if c.apply v = Vec3.zero then v else (c.apply v).norm

theorem powerIterate_eq_iterate (c : Mat3) (n : Nat) (v : Vec3) : powerIterate c n v = (powerStep c)^[n] v := by
  induction n generalizing v with
  | zero => rfl
  | succ n ih => exact ih _

theorem forall_channel {p : Fin 3 → Prop} : (∀ c, p c) ↔ p 0 ∧ p 1 ∧ p 2 := by
  simp [Fin.forall_fin_succ]

/-- The diagonal of the search's matrix is the rule's. -/
theorem diagonal_searchCovariance (inp : EncodeInput) : (searchCovariance inp).col0.x = covOf inp 0 0 ∧
    (searchCovariance inp).col1.y = covOf inp 1 1 ∧ (searchCovariance inp).col2.z = covOf inp 2 2 :=
  ⟨component_searchCovariance inp 0 0, component_searchCovariance inp 1 1, component_searchCovariance inp 2 2⟩

/-- The search starts from the column of the least index with the greatest diagonal entry. -/
theorem exists_dominantColumn (inp : EncodeInput) : ∃ j : Fin 3,
    (∀ c, covOf inp c c ≤ covOf inp j j) ∧ (∀ c, c < j → covOf inp c c < covOf inp j j) ∧
      (searchCovariance inp).dominantColumn = vec fun c => covOf inp c j := by
  obtain ⟨h0, h1, h2⟩ := diagonal_searchCovariance inp
  simp only [Mat3.dominantColumn, h0, h1, h2]
  split_ifs with hfirst hsecond
  · obtain ⟨h10, h20⟩ := hfirst
    exact ⟨0, forall_channel.mpr ⟨le_rfl, h10, h20⟩, fun c hc => absurd hc (Fin.not_lt_zero c),
      column_searchCovariance inp 0⟩
  · refine ⟨1, forall_channel.mpr ⟨by omega, le_rfl, hsecond⟩, forall_channel.mpr ⟨fun _ => by omega, ?_, ?_⟩,
      column_searchCovariance inp 1⟩
    · exact fun h => absurd h (by decide)
    · exact fun h => absurd h (by decide)
  · refine ⟨2, forall_channel.mpr ⟨by omega, by omega, le_rfl⟩, forall_channel.mpr ⟨fun _ => by omega, fun _ => by omega, ?_⟩,
      column_searchCovariance inp 2⟩
    exact fun h => absurd h (by decide)

/-- The greatest diagonal entry is 0 iff all are, since none is negative. -/
theorem max_diagonal_eq_zero_iff (inp : EncodeInput) :
    max (max (covOf inp 0 0) (covOf inp 1 1)) (covOf inp 2 2) = 0 ↔ ∀ c, covOf inp c c = 0 := by
  have h0 := covOf_self_nonneg inp 0
  have h1 := covOf_self_nonneg inp 1
  have h2 := covOf_self_nonneg inp 2
  rw [forall_channel]
  omega

theorem searchAxis_eq (inp : EncodeInput) : searchAxis inp =
    if ∀ c, covOf inp c c = 0 then Vec3.zero
    else (powerStep (searchCovariance inp))^[4] (searchCovariance inp).dominantColumn.norm := by
  obtain ⟨h0, h1, h2⟩ := diagonal_searchCovariance inp
  simp only [searchAxis, Mat3.axis, h0, h1, h2, max_diagonal_eq_zero_iff, powerIterate_eq_iterate]
  rfl

/-- Settles O51: the start by the greatest diagonal entry, and the four rounds by the iterates of one. -/
theorem axisRule : Obligations.AxisRule := by
  intro inp
  rw [searchAxis_eq]
  split_ifs with hzero
  · rfl
  · obtain ⟨j, hgreatest, hleast, hcolumn⟩ := exists_dominantColumn inp
    refine ⟨j, fun n => (powerStep (searchCovariance inp))^[n] (searchCovariance inp).dominantColumn.norm, hgreatest,
      hleast, congrArg Vec3.norm hcolumn, fun n _ => ?_, rfl⟩
    simp only [Function.iterate_succ_apply', powerStep, ← apply_searchCovariance]

/-! The extreme texels (43_encoder.md R126). -/

/-- O is ascending. -/
theorem fitSet_pairwise (inp : EncodeInput) : (fitSet inp).Pairwise (· < ·) := by
  rw [fitSet, texelIndices_eq_finRange]
  exact (List.pairwise_lt_finRange 16).filter _

theorem mem_fitSet_iff (inp : EncodeInput) (i : Fin 16) : i ∈ fitSet inp ↔ inT inp i = false := by
  rw [mem_fitSet, inT_eq_isTransparent]

/-- f's value at j and then j itself, in lexicographic order. -/
def minKey (f : Fin 16 → Int) (j : Fin 16) : Int ×ₗ Fin 16 := toLex (f j, j)

theorem minKey_le_iff (f : Fin 16 → Int) (j k : Fin 16) : minKey f j ≤ minKey f k ↔ f j < f k ∨ f j = f k ∧ j ≤ k := by
  simp only [minKey, Prod.Lex.toLex_le_toLex]

/-- Of ascending indices `firstMin` answers the least at which f is least. -/
theorem firstMin_minKey_le (f : Fin 16 → Int) {best : Fin 16} {l : List (Fin 16)} (hl : (best :: l).Pairwise (· ≤ ·)) :
    ∀ j ∈ best :: l, minKey f (firstMin f best l) ≤ minKey f j := by
  induction l generalizing best with
  | nil => simp [firstMin]
  | cons i is ih =>
    obtain ⟨hbest, his⟩ := List.pairwise_cons.mp hl
    obtain ⟨hbi, hbis⟩ := List.forall_mem_cons.mp hbest
    obtain ⟨-, hsorted⟩ := List.pairwise_cons.mp his
    simp only [firstMin, List.forall_mem_cons]
    split
    case isTrue hlt =>
      obtain ⟨hi, hrest⟩ := List.forall_mem_cons.mp (ih his)
      exact ⟨hi.trans ((minKey_le_iff ..).mpr (.inl hlt)), hi, hrest⟩
    case isFalse hge =>
      obtain ⟨hb, hrest⟩ := List.forall_mem_cons.mp (ih (List.pairwise_cons.mpr ⟨hbis, hsorted⟩))
      have hle : minKey f best ≤ minKey f i := (minKey_le_iff ..).mpr (by omega)
      exact ⟨hb, hb.trans hle, hrest⟩

/-- The first of ascending indices is the least. -/
theorem headD_le {o : List (Fin 16)} (ho : o.Pairwise (· < ·)) (hne : o ≠ []) : o.headD 0 ∈ o ∧ ∀ j ∈ o, o.headD 0 ≤ j := by
  obtain ⟨first, rest, rfl⟩ := List.exists_cons_of_ne_nil hne
  obtain ⟨hfirst, -⟩ := List.pairwise_cons.mp ho
  exact ⟨List.mem_cons_self, List.forall_mem_cons.mpr ⟨le_rfl, fun j hj => (hfirst j hj).le⟩⟩

/-- So the search's extreme of f over ascending indices is one of them, and the least at which f is least. -/
theorem firstMin_headD (f : Fin 16 → Int) {o : List (Fin 16)} (ho : o.Pairwise (· < ·)) (hne : o ≠ []) :
    firstMin f (o.headD 0) o ∈ o ∧ ∀ j ∈ o, minKey f (firstMin f (o.headD 0) o) ≤ minKey f j := by
  obtain ⟨hhead, hleast⟩ := headD_le ho hne
  constructor
  · rcases List.mem_cons.mp (firstMin_mem f (o.headD 0) o) with h | h
    · rw [h]
      exact hhead
    · exact h
  · have hsorted : (o.headD 0 :: o).Pairwise (· ≤ ·) := List.pairwise_cons.mpr ⟨hleast, ho.imp le_of_lt⟩
    exact fun j hj => firstMin_minKey_le f hsorted j (List.mem_cons_of_mem _ hj)

/-- The projections of R126 are those of the deviations. -/
theorem dot_deviation (inp : EncodeInput) (v : Vec3) (i : Fin 16) :
    (deviation inp.texels (fitSet inp) i).dot v = projectionOf inp v i := by
  rw [dot_eq_sum]
  simp only [component_deviation]
  rfl

/-- Settles O52: the first texel of O for the zero axis, and otherwise the least of the projections and of their negatives. -/
theorem extremesRule : Obligations.ExtremesRule := by
  rintro inp v ⟨i0, hi0⟩ ends
  have hne : fitSet inp ≠ [] := List.ne_nil_of_mem ((mem_fitSet_iff inp i0).mpr hi0)
  have hsorted := fitSet_pairwise inp
  by_cases hv : v = Vec3.zero
  · have hends : ends = ((fitSet inp).headD 0, (fitSet inp).headD 0) := if_pos hv
    obtain ⟨hmem, hleast⟩ := headD_le hsorted hne
    simp only [hends, if_pos hv, true_and, ← mem_fitSet_iff]
    exact ⟨hmem, hmem, hleast⟩
  · have hends : ends = (firstMin (projectionOf inp v) ((fitSet inp).headD 0) (fitSet inp),
        firstMin (fun i => -projectionOf inp v i) ((fitSet inp).headD 0) (fitSet inp)) := by
      simp only [ends, extremes, if_neg hv, dot_deviation]
    obtain ⟨hlo, hlow⟩ := firstMin_headD (projectionOf inp v) hsorted hne
    obtain ⟨hhi, hhigh⟩ := firstMin_headD (fun i => -projectionOf inp v i) hsorted hne
    simp only [minKey_le_iff, neg_lt_neg_iff, neg_inj] at hlow hhigh
    simp only [hends, if_neg hv, ← mem_fitSet_iff]
    refine ⟨hlo, hhi, fun i hi => ⟨hlow i hi, ?_⟩⟩
    simpa only [eq_comm] using hhigh i hi

end Sys2Proof.Machine

/-! SUPPORT. The proofs of the statements on the reference search's candidates (43_encoder.md R128, R129) and on their records
(R122, R131, R132). -/

namespace Sys2Proof.Machine

open Sys2Proof.Claims

/-! The candidates (43_encoder.md R128, R129). -/

theorem clampByte_toNat_eq (x : Int) : ((clampByte x).toNat : Int) = min (max x 0) 255 := by
  rw [clampByte, BitVec.toNat_ofNat]
  omega

/-- A channel of a moved color is clamped to 0..255. -/
theorem channel_nudge (x : Rgb) (k : Int) (u : Vec3) (c : Fin 3) :
    (channel (nudge x k u) c : Int) = min (max (channel x c + k * component u c) 0) 255 := by
  match c with
  | 0 => exact clampByte_toNat_eq _
  | 1 => exact clampByte_toNat_eq _
  | 2 => exact clampByte_toNat_eq _

/-- The quantized words of the extreme colors moved a and b steps. -/
def candidateOf (inp : EncodeInput) (ab : Int × Int) : Half × Half :=
  (quantize inp.mode (nudge inp.texels[(searchEnds inp).1].rgb ab.1 (perturbation (searchAxis inp))),
    quantize inp.mode (nudge inp.texels[(searchEnds inp).2].rgb ab.2 (perturbation (searchAxis inp))))

theorem candidateWords_eq_map (inp : EncodeInput) :
    candidateWords inp = (visits (min inp.quality.toNat 8)).map (candidateOf inp) := rfl

/-- Settles O53: the candidates are the visits, each with its two moved colors, quantized. -/
theorem candidateWordsRule : Obligations.CandidateWordsRule := by
  intro inp u ends
  refine ⟨by rw [candidateWords_eq_map, List.length_map], fun k a b hk => ?_⟩
  refine ⟨nudge inp.texels[ends.1].rgb a u, nudge inp.texels[ends.2].rgb b u, _, _, ?_, channel_nudge _ a u,
    channel_nudge _ b u, quantOf_quantize _ _, quantOf_quantize _ _⟩
  rw [candidateWords_eq_map, List.getElem?_map, hk]
  rfl

/-! An evaluation against a palette whose entries are known (43_encoder.md R131, R132). -/

/-- The least of the places where a function is least is one. -/
theorem leastAt_unique {f : Nat → Nat} {last q q' : Nat} (h : LeastAt f last q) (h' : LeastAt f last q') : q = q' := by
  obtain ⟨hq, hmin, hleast⟩ := h
  obtain ⟨hq', hmin', hleast'⟩ := h'
  rcases Nat.lt_trichotomy q q' with hlt | heq | hgt
  · exact absurd (hleast' q hlt) (Nat.not_lt.mpr (hmin q' hq'))
  · exact heq
  · exact absurd (hleast q' hgt) (Nat.not_lt.mpr (hmin' q hq))

/-- The palette p has the entries e 0 to e last. -/
structure HasEntries (p : List Rgb) (e : Nat → Channels) (last : Nat) : Prop where
  length : p.length = last + 1
  small : last < 4
  entries : ∀ j ≤ last, channelsOf (entry p j) = e j

theorem hasEntries_pal4 (m : Mode) (c0 c1 : Half) : HasEntries (pal4 m c0 c1) (pal4Entry m c0 c1) 3 :=
  ⟨rfl, by decide, fun _ hj => channelsOf_pal4 m c0 c1 (Nat.lt_succ_of_le hj)⟩

theorem hasEntries_pal3 (m : Mode) (c0 c1 : Half) : HasEntries (pal3 m c0 c1) (pal3Entry m c0 c1) 2 :=
  ⟨rfl, by decide, fun _ hj => channelsOf_pal3 m c0 c1 (Nat.lt_succ_of_le hj)⟩

section Evaluation

variable {inp : EncodeInput} {p : List Rgb} {e : Nat → Channels} {last : Nat} (hp : HasEntries p e last)
include hp

/-- The selectors of an evaluation that are not forced are the least nearest entries. -/
theorem assignedBy_evaluate (hfsel : inp.fsel = none) (kind k : Nat) (pair : Half × Half) :
    AssignedBy inp (evaluate inp kind k pair p) e last := by
  intro i hi
  have hleast := leastAt_nearest inp.texels[i].rgb (p := p) (by rw [hp.length]; exact hp.small)
  rw [hp.length, Nat.add_sub_cancel] at hleast
  rw [evaluate, selectorOf_packSelectors, chosenSelector_of_free hfsel hi]
  exact leastAt_congr hleast fun j hj => congrArg _ (hp.entries j hj)

/-- The error of an evaluation is that of its selectors, where those name entries of the palette. -/
theorem scoredBy_evaluate (hsel : ∀ i, inT inp i = false → (chosenSelector inp p i).toNat ≤ last) (kind k : Nat)
    (pair : Half × Half) : ScoredBy inp (evaluate inp kind k pair p) e := by
  refine (totalErr_fitSet inp p _).trans (Finset.sum_congr rfl fun i _ => ?_)
  cases hi : inT inp i with
  | true => rfl
  | false => rw [evaluate, selectorOf_packSelectors, hp.entries _ (hsel i hi)]

end Evaluation

/-- A record with an evaluation's kind, candidate, words and selectors, scored as it is, is that evaluation. -/
theorem record_eq_evaluate {inp : EncodeInput} {p : List Rgb} {e : Nat → Channels} {kind k : Nat} {pair : Half × Half}
    {r : Record} (hkind : r.kind = kind) (hindex : r.index = k) (hpair : (r.c0, r.c1) = pair)
    (hsels : ∀ i, selectorOf r.sels i = (chosenSelector inp p i).toNat) (hr : ScoredBy inp r e)
    (hev : ScoredBy inp (evaluate inp kind k pair p) e) : r = evaluate inp kind k pair p := by
  have hword : r.sels = packSelectors (chosenSelector inp p) := word_eq_of_sel_eq fun i => by
    apply BitVec.eq_of_toNat_eq
    rw [sel_packSelectors, sel_toNat_eq_selectorOf, hsels]
  have herr : r.err = (evaluate inp kind k pair p).err := by
    rw [hr, hev, hword]
    rfl
  subst hpair hkind hindex
  cases r
  simp only [evaluate, Record.mk.injEq, true_and] at herr hword ⊢
  exact ⟨herr, hword⟩

/-! The two kinds of records. -/

theorem fourColorRecord_iff (inp : EncodeInput) (k : Nat) (wa wb : Half) (r : Record) :
    FourColorRecord inp k wa wb r ↔ tries4 inp = true ∧ r = evaluate4 inp k wa wb := by
  have hp := hasEntries_pal4 inp.mode (order4 wa wb).1 (order4 wa wb).2
  have hscored := scoredBy_evaluate hp (inp := inp) (fun i _ => Nat.le_of_lt_succ (BitVec.isLt _)) 0 k (order4 wa wb)
  constructor
  · rintro ⟨hO, hkind, hindex, hpair, hforced, hassigned, hr⟩
    obtain ⟨h0, h1⟩ : r.c0 = (order4 wa wb).1 ∧ r.c1 = (order4 wa wb).2 := Prod.mk.inj hpair
    rw [h0, h1] at hassigned hr
    refine ⟨(tries4_iff inp).mpr hO, record_eq_evaluate hkind hindex hpair (fun i => ?_) hr hscored⟩
    cases hfsel : inp.fsel with
    | some w => rw [chosenSelector_of_forced hfsel, hforced w hfsel, sel_toNat_eq_selectorOf]
    | none =>
      have hev := assignedBy_evaluate hp hfsel 0 k (order4 wa wb) i (hO i)
      rw [evaluate, selectorOf_packSelectors] at hev
      exact leastAt_unique (hassigned hfsel i (hO i)) hev
  · rintro ⟨htry, rfl⟩
    refine ⟨(tries4_iff inp).mp htry, rfl, rfl, rfl, fun w hw => ?_,
      fun hfsel => assignedBy_evaluate hp hfsel _ _ _, hscored⟩
    rw [evaluate4, evaluate, chosenSelector_of_forced hw, packSelectors_sel]

theorem order3_toNat (wa wb : Half) : (order3 wa wb).1.toNat = min wa.toNat wb.toNat ∧
    (order3 wa wb).2.toNat = max wa.toNat wb.toNat := by
  rw [order3]
  split
  case isTrue hle =>
    rw [BitVec.le_def] at hle
    exact ⟨(Nat.min_eq_left hle).symm, (Nat.max_eq_right hle).symm⟩
  case isFalse hlt =>
    rw [BitVec.le_def] at hlt
    exact ⟨(Nat.min_eq_right (Nat.le_of_not_le hlt)).symm, (Nat.max_eq_left (Nat.le_of_not_le hlt)).symm⟩

theorem threeColorRecord_iff (inp : EncodeInput) (k : Nat) (wa wb : Half) (r : Record) :
    ThreeColorRecord inp k wa wb r ↔ tries3 inp = true ∧ r = evaluate3 inp k wa wb := by
  have hp := hasEntries_pal3 inp.mode (order3 wa wb).1 (order3 wa wb).2
  obtain ⟨hmin, hmax⟩ := order3_toNat wa wb
  have hnearest : inp.fsel = none → AssignedBy inp (evaluate3 inp k wa wb) _ _ := fun hfsel =>
    assignedBy_evaluate hp hfsel 1 k (order3 wa wb)
  have hscored : inp.fsel = none → ScoredBy inp (evaluate3 inp k wa wb) _ := fun hfsel =>
    scoredBy_evaluate hp (fun i hi => by
      obtain ⟨hle, -, -⟩ := hnearest hfsel i hi
      rwa [evaluate3, evaluate, selectorOf_packSelectors] at hle) 1 k (order3 wa wb)
  constructor
  · rintro ⟨htry, hkind, hindex, h0, h1, htransparent, hassigned, hr⟩
    have hfsel := htry.1
    obtain h0 : r.c0 = (order3 wa wb).1 := BitVec.eq_of_toNat_eq (h0.trans hmin.symm)
    obtain h1 : r.c1 = (order3 wa wb).2 := BitVec.eq_of_toNat_eq (h1.trans hmax.symm)
    rw [h0, h1] at hassigned hr
    refine ⟨(tries3_iff inp).mpr htry, record_eq_evaluate hkind hindex (Prod.ext h0 h1) (fun i => ?_) hr (hscored hfsel)⟩
    cases hi : inT inp i with
    | true => rw [htransparent i hi, chosenSelector_of_inT hi]; rfl
    | false =>
      have hev := hnearest hfsel i hi
      rw [evaluate3, evaluate, selectorOf_packSelectors] at hev
      exact leastAt_unique (hassigned i hi) hev
  · rintro ⟨htry, rfl⟩
    have hallowed := (tries3_iff inp).mp htry
    have hfsel := hallowed.1
    refine ⟨hallowed, rfl, rfl, hmin, hmax, fun i hi => ?_, hnearest hfsel, hscored hfsel⟩
    rw [evaluate3, evaluate, selectorOf_packSelectors, chosenSelector_of_inT hi]
    rfl

/-- Settles O54: the records are the evaluations of the candidates in the kinds that are tried. -/
theorem recordsRule : Obligations.RecordsRule := by
  intro inp r
  simp only [mem_records, mem_recordsOf, fourColorRecord_iff, threeColorRecord_iff]

end Sys2Proof.Machine

/-! SUPPORT. The proofs of the statements on the encoder's rules (43_encoder.md R112-R118): what conforms, that the reference
search does and does not raise its error with the quality (R135), and that `ANY_CONFORMING` gives exactly the encoders that
conform (log 8). -/

namespace Sys2Proof.Machine

open Sys2Proof.Claims

/-! The clauses of `conforms` (43_encoder.md R113-R118). -/

theorem selectorsNearest_iff (inp : EncodeInput) (o : Encoded) : selectorsNearest inp o = true ↔
    (inp.fsel = none → ∀ i, inT inp i = false →
      sel o.sels i = nearest (emittedPalette inp.mode o.c0 o.c1) inp.texels[i].rgb) := by
  cases hfsel : inp.fsel with
  | none => simp [selectorsNearest, hfsel, mem_fitSet_iff]
  | some w => simp [selectorsNearest, hfsel]

theorem selectorsForced_iff (inp : EncodeInput) (o : Encoded) : selectorsForced inp o = true ↔
    ∀ w, inp.fsel = some w → o.sels = w ∧ isThreeColor o.c0 o.c1 = false := by
  cases hfsel : inp.fsel with
  | none => simp [selectorsForced, hfsel]
  | some w => simp [selectorsForced, hfsel]

theorem transparencyForced_iff (inp : EncodeInput) (o : Encoded) : transparencyForced inp o = true ↔
    ∀ i, inT inp i = true → sel o.sels i = 3 ∧ isThreeColor o.c0 o.c1 = true := by
  simp [transparencyForced, mem_transparentSet, inT_eq_isTransparent]

theorem conforms_iff (inp : EncodeInput) (o : Encoded) : conforms inp o = true ↔
    modePermitted inp o = true ∧ selectorsNearest inp o = true ∧ selectorsForced inp o = true ∧
      transparencyForced inp o = true ∧ o.three = isThreeColor o.c0 o.c1 ∧
      o.err = totalErr inp.texels (emittedPalette inp.mode o.c0 o.c1) (sel o.sels) (fitSet inp) ∧
      solidKept inp o = true := by
  simp only [conforms, orderKept, errorReported, Bool.and_eq_true, beq_iff_eq, and_assoc]

/-! What conforms: the output of a permitted pair that keeps R118's bound. -/

/-- R113-R115 fix a conforming output's selectors. -/
theorem sel_of_conforms {inp : EncodeInput} {o : Encoded} (h : conforms inp o = true) :
    sel o.sels = chosenSelector inp (emittedPalette inp.mode o.c0 o.c1) := by
  obtain ⟨-, hnearest, hforced, htransparent, -, -, -⟩ := (conforms_iff inp o).mp h
  rw [selectorsNearest_iff] at hnearest
  rw [selectorsForced_iff] at hforced
  rw [transparencyForced_iff] at htransparent
  funext i
  cases hfsel : inp.fsel with
  | some w => rw [chosenSelector_of_forced hfsel, (hforced w hfsel).1]
  | none =>
    cases hi : inT inp i with
    | true => rw [chosenSelector_of_inT hi, (htransparent i hi).1]
    | false => rw [chosenSelector_of_free hfsel hi, hnearest hfsel i hi]

/-- A conforming output is that of its pair: its selectors, error and mode follow from it. -/
theorem eq_emitPair_of_conforms {inp : EncodeInput} {o : Encoded} (h : conforms inp o = true) :
    o = emitPair inp o.c0 o.c1 := by
  have hsel := sel_of_conforms h
  obtain ⟨-, -, -, -, horder, herror, -⟩ := (conforms_iff inp o).mp h
  rw [hsel] at herror
  cases o
  simp only [emitPair, ← hsel, packSelectors_sel, Encoded.mk.injEq, true_and]
  exact ⟨herror, horder⟩

/-- The output of a permitted pair satisfies R112-R117. -/
theorem conforms_emitPair {inp : EncodeInput} {c0 c1 : Half} (h : pairPermitted inp c0 c1 = true)
    (hkept : solidKept inp (emitPair inp c0 c1) = true) : conforms inp (emitPair inp c0 c1) = true := by
  have hfour : isThreeColor c0 c1 = false → tries4 inp = true := fun hc => by rwa [pairPermitted, hc] at h
  have hthree : isThreeColor c0 c1 = true → tries3 inp = true := fun hc => by rwa [pairPermitted, hc] at h
  have hsel : sel (emitPair inp c0 c1).sels = chosenSelector inp (emittedPalette inp.mode c0 c1) :=
    funext (sel_packSelectors _)
  refine (conforms_iff ..).mpr ⟨?_, (selectorsNearest_iff ..).mpr fun hfsel i hi => ?_,
    (selectorsForced_iff ..).mpr fun w hw => ⟨?_, ?_⟩, (transparencyForced_iff ..).mpr fun i hi => ⟨?_, ?_⟩, rfl, ?_, hkept⟩
  · cases hc : isThreeColor c0 c1 with
    | true => rw [modePermitted, hthree hc, Bool.or_true]
    | false => simp [modePermitted, emitPair, hc]
  · rw [hsel]
    exact chosenSelector_of_free hfsel hi _
  · rw [emitPair, chosenSelector_of_forced hw, packSelectors_sel]
  · refine Bool.eq_false_of_not_eq_true fun hc => ?_
    simp [((tries3_iff inp).mp (hthree hc)).1] at hw
  · rw [hsel]
    exact chosenSelector_of_inT hi _
  · refine Bool.eq_true_of_not_eq_false fun hc => ?_
    simp [(tries4_iff inp).mp (hfour hc) i] at hi
  · rw [hsel]
    rfl

theorem EmitsPermittedPair.conforms {inp : EncodeInput} {o : Encoded} (h : EmitsPermittedPair inp o)
    (hkept : solidKept inp o = true) : conforms inp o = true := by
  obtain ⟨hpair, hpermitted⟩ := h
  rw [hpair] at hkept ⊢
  exact conforms_emitPair hpermitted hkept

/-! The reference search over the qualities (43_encoder.md R117, R128, R135). -/

/-- A higher quality makes the records of a lower one too: it visits their candidates first. -/
theorem mem_records_atQuality {inp : EncodeInput} {q q' : Nat} (hle : q ≤ q') (hq' : q' ≤ 255) {r : Record}
    (h : r ∈ records (atQuality inp q)) : r ∈ records (atQuality inp q') := by
  have hquality : ∀ n ≤ 255, (atQuality inp n).quality.toNat = n := fun n hn => Nat.mod_eq_of_lt (Nat.lt_succ_of_le hn)
  have hprefix : candidateWords (atQuality inp q) <+: candidateWords (atQuality inp q') := by
    rw [candidateWords_eq_map, candidateWords_eq_map, hquality q (hle.trans hq'), hquality q' hq']
    exact (visits_prefix (by omega)).map _
  obtain ⟨k, wa, wb, hk, hr⟩ := (mem_records ..).mp h
  obtain ⟨further, hfurther⟩ := hprefix
  obtain ⟨hlt, -⟩ := List.getElem?_eq_some_iff.mp hk
  exact (mem_records ..).mpr ⟨k, wa, wb, by rw [← hfurther, List.getElem?_append_left hlt, hk], hr⟩

theorem Record.err_le_of_key_le {a b : Record} (h : a.key ≤ b.key) : a.err ≤ b.err := by
  rcases Prod.Lex.toLex_le_toLex.mp h with hlt | ⟨heq, -⟩
  · exact hlt.le
  · exact heq.le

/-- The search's error does not rise with the quality: it chooses among more records. -/
theorem referenceEncode_err_le (inp : EncodeInput) {q q' : Nat} (hle : q ≤ q') (hq' : q' ≤ 255) :
    (referenceEncode (atQuality inp q')).err ≤ (referenceEncode (atQuality inp q)).err := by
  by_cases hempty : (fitSet inp).isEmpty = true
  · have hnone : ∀ n, referenceEncode (atQuality inp n) = allTransparentBlock := fun n => if_pos hempty
    rw [hnone, hnone]
  · obtain ⟨r, hr, hemit, -⟩ := referenceEncode_least (inp := atQuality inp q) hempty
    obtain ⟨r', -, hemit', hleast⟩ := referenceEncode_least (inp := atQuality inp q') hempty
    rw [hemit, hemit']
    exact Record.err_le_of_key_le (hleast r (mem_records_atQuality hle hq' hr))

/-- A record of a solid block is one of its quality 0 too, but for the candidate's index: all candidates have the same words. -/
theorem mem_records_of_isSolid {inp : EncodeInput} (hsolid : isSolid inp = true) {r : Record} (h : r ∈ records inp) :
    { r with index := 0 } ∈ records (atQuality inp 0) := by
  obtain ⟨k, wa, wb, hk, hr⟩ := (mem_records ..).mp h
  obtain ⟨first, rest, hfirst⟩ := List.exists_cons_of_ne_nil (candidateWords_ne_nil (atQuality inp 0))
  have hmem : first ∈ candidateWords (atQuality inp 0) := hfirst ▸ List.mem_cons_self
  have hsame : first = (wa, wb) := (candidateWords_of_isSolid (inp := atQuality inp 0) hsolid hmem).trans
    (candidateWords_of_isSolid hsolid (List.mem_of_getElem? hk)).symm
  refine (mem_records ..).mpr ⟨0, wa, wb, by rw [hfirst, hsame]; rfl, (mem_recordsOf ..).mpr ?_⟩
  rcases (mem_recordsOf ..).mp hr with ⟨htry, rfl⟩ | ⟨htry, rfl⟩
  · exact .inl ⟨htry, rfl⟩
  · exact .inr ⟨htry, rfl⟩

/-- A solid block is encoded alike at every quality. -/
theorem referenceEncode_of_isSolid {inp : EncodeInput} (hsolid : isSolid inp = true) :
    referenceEncode inp = referenceEncode (atQuality inp 0) := by
  have hfit : ¬ (fitSet inp).isEmpty = true := fun hempty => by
    simpa [inT_of_isSolid hsolid 0] using (fitSet_isEmpty_iff inp).mp hempty 0
  obtain ⟨r, hr, hemit, hleast⟩ := referenceEncode_least hfit
  obtain ⟨r0, hr0, hemit0, hleast0⟩ := referenceEncode_least (inp := atQuality inp 0) hfit
  have hmem : { r with index := 0 } ∈ records (atQuality inp 0) := mem_records_of_isSolid hsolid hr
  have hmem0 : r0 ∈ records inp := by
    rw [← atQuality_self inp]
    exact mem_records_atQuality (Nat.zero_le _) (Nat.le_of_lt_succ inp.quality.isLt) hr0
  have hindex : Record.key { r with index := 0 } ≤ r.key := by
    simp [Record.key, Prod.Lex.toLex_le_toLex]
  have hkey : Record.key { r with index := 0 } = r0.key :=
    le_antisymm (hindex.trans (hleast r0 hmem0)) (hleast0 _ hmem)
  obtain ⟨-, hkind, hindex⟩ : r.err = r0.err ∧ r.kind = r0.kind ∧ 0 = r0.index := by simpa [Record.key] using hkey
  have hsame : { r with index := 0 } = r0 := record_eq_of_kind_index hmem hr0 hkind hindex
  rw [hemit, hemit0, ← hsame]
  rfl

/-- The reference search keeps R118's bound wherever the mode's parameters allow it. -/
theorem solidKept_referenceEncode (inp : EncodeInput) : solidKept inp (referenceEncode inp) = true := by
  cases hsolid : isSolid inp with
  | false => simp [solidKept, hsolid]
  | true =>
    have hbound : boundAllowed inp = true → solidBound inp (referenceEncode inp) = true := by
      intro hallowed
      simp only [boundAllowed, Bool.or_eq_true, beq_iff_eq] at hallowed
      rcases hallowed with hmode | hzero
      · exact solidBound_referenceEncode hsolid hmode
      · rwa [referenceEncode_of_isSolid hsolid]
    rw [solidKept, hsolid]
    cases hallowed : boundAllowed inp with
    | true => rw [hbound hallowed]; rfl
    | false => exact Bool.or_true _

theorem conforms_referenceEncode (inp : EncodeInput) : conforms inp (referenceEncode inp) = true :=
  (emitsPermittedPair_referenceEncode inp).conforms (solidKept_referenceEncode inp)

/-- Settles O30: the search's output is that of a permitted pair within R118's bound, and its error does not rise. -/
theorem referenceSearchConforms : Obligations.ReferenceSearchConforms := fun inp =>
  ⟨conforms_referenceEncode inp, fun _ hq => referenceEncode_err_le inp (Nat.le_succ _) hq⟩

/-! The conforming encoder (log 8). -/

/-- What conforms does not depend on the quality. -/
theorem conforms_atQuality (inp : EncodeInput) (q : Nat) (o : Encoded) : conforms (atQuality inp q) o = conforms inp o := rfl

/-- Whatever is drawn, the conforming encoder's outputs conform. -/
theorem conforms_conformingEncode (draw : EncodeInput → Half × Half) (inp : EncodeInput) (q : Nat) :
    conforms inp (conformingEncode draw inp q) = true := by
  obtain ⟨n, hreference | ⟨hdrawn, hconforms⟩⟩ := conformingEncode_cases draw inp q
  · rw [hreference, ← conforms_atQuality inp n]
    exact conforms_referenceEncode _
  · rw [hdrawn, ← conforms_atQuality inp n]
    exact hconforms

theorem conformingEncode_err_le (draw : EncodeInput → Half × Half) (inp : EncodeInput) (q : Nat) :
    (conformingEncode draw inp (q + 1)).err ≤ (conformingEncode draw inp q).err := by
  simp only [conformingEncode]
  split
  case isTrue h => exact of_decide_eq_true ((Bool.and_eq_true _ _).mp h).2
  case isFalse => exact le_rfl

/-- Draws whose outputs conform with an error that does not rise are taken as they are. -/
theorem conformingEncode_eq_drawnOutput {draw : EncodeInput → Half × Half} {inp : EncodeInput}
    (hconforms : ∀ q ≤ 255, conforms (atQuality inp q) (drawnOutput draw (atQuality inp q)) = true)
    (herr : ∀ q < 255, (drawnOutput draw (atQuality inp (q + 1))).err ≤ (drawnOutput draw (atQuality inp q)).err)
    {q : Nat} (hq : q ≤ 255) : conformingEncode draw inp q = drawnOutput draw (atQuality inp q) := by
  induction q with
  | zero => exact if_pos (hconforms 0 hq)
  | succ q ih =>
    simp only [conformingEncode, hconforms (q + 1) hq, ih (by omega), herr q hq, decide_true, Bool.and_self, if_true]

/-- The pairs of an encoder's outputs, as draws. -/
def pairsOf (encoder : EncodeInput → Encoded) (inp : EncodeInput) : Half × Half := ((encoder inp).c0, (encoder inp).c1)

/-- Where an encoder's output conforms, its pair gives it back. -/
theorem drawnOutput_pairsOf {encoder : EncodeInput → Encoded} {inp : EncodeInput}
    (h : conforms inp (encoder inp) = true) : drawnOutput (pairsOf encoder) inp = encoder inp :=
  (eq_emitPair_of_conforms h).symm

/-- Settles O31: soundness by the two cases of `conformingEncode`, completeness by an encoder's own pairs. -/
theorem anyConformingIsExact : Obligations.AnyConformingIsExact := by
  refine ⟨fun draw inp => ⟨fun q _ => conforms_conformingEncode draw inp q, conformingEncode_err_le draw inp,
    fun hconforms herr q => conformingEncode_eq_drawnOutput hconforms herr⟩, fun _ _ => eq_emitPair_of_conforms,
    fun encoder => ⟨pairsOf encoder, fun inp hconforms herr q hq => ?_⟩⟩
  have hdrawn : ∀ n ≤ 255, drawnOutput (pairsOf encoder) (atQuality inp n) = encoder (atQuality inp n) := fun n hn =>
    drawnOutput_pairsOf (hconforms n hn)
  rw [← hdrawn q hq]
  refine conformingEncode_eq_drawnOutput (fun n hn => ?_) (fun n hn => ?_) hq
  · rw [hdrawn n hn]
    exact hconforms n hn
  · rw [hdrawn n hn.le, hdrawn (n + 1) hn]
    exact herr n hn

end Sys2Proof.Machine

/-! SUPPORT. The proofs of the statements on ENCODE and on decoding what it emits (43_encoder.md R114-R118, R121, R140;
41_decoder.md R92, R93), under either policy. -/

namespace Sys2Proof.Machine

open Sys2Proof.Claims

/-! The input that ENCODE reads and the output it writes (43_encoder.md R140). -/

/-- With its flags left out where selectors are forced, the input of the statements is the machine's. -/
theorem inputOf_unforced (s : State) (a3 fb fe : Bool) (q : BitVec 8) :
    inputOf s (a3 && !fe) (fb && !fe) fe q = s.encodeInput a3 fb fe q := rfl

theorem inputOf_eq_encodeInput (s : State) (a3 fb : Bool) (q : BitVec 8) :
    inputOf s a3 fb false q = s.encodeInput a3 fb false q := by
  rw [← inputOf_unforced, Bool.not_false, Bool.and_true, Bool.and_true]

/-- The machine's output for the input ENCODE reads is that of a permitted pair. -/
theorem emitsPermittedPair_encodeBlock (s : State) (a3 fb fe : Bool) (q : BitVec 8) :
    EmitsPermittedPair (inputOf s a3 fb fe q) (encodeBlock (s.encodeInput a3 fb fe q)) :=
  emitsPermittedPair_inputOf (emitsPermittedPair_encodeUnder Config.encoderPolicy Config.conformingPair _)

/-- The `ERRO` word is the output's error: it is small enough for a word. -/
theorem EmitsPermittedPair.erro_toNat {inp : EncodeInput} {o : Encoded} (h : EmitsPermittedPair inp o) :
    (BitVec.ofNat 32 o.err).toNat = o.err := by
  have hle := h.err_le
  rw [BitVec.toNat_ofNat]
  exact Nat.mod_eq_of_lt (by omega)

/-- Settles O49: the machine's encoder is its policy's by definition. -/
theorem encodeWritesPolicyBlock : Obligations.EncodeWritesPolicyBlock :=
  ⟨fun a3 fb fe q _ h => answers_encode a3 fb fe q h, fun _ inp => ⟨rfl, rfl, atQuality_self inp⟩⟩

/-- Settles O48: with forced selectors the input holds neither flag, and R114 fixes the selectors and the mode. -/
theorem forcedSelectorsIgnoreFlags : Obligations.ForcedSelectorsIgnoreFlags := by
  intro a3 fb a3' fb' q s
  have hinput : s.encodeInput a3 fb true q = s.encodeInput a3' fb' true q := by
    simp only [State.encodeInput, Bool.not_true, Bool.and_false]
  refine ⟨by simp only [exec, execEncode, hinput], fun h => ?_⟩
  have hconforming := (emitsPermittedPair_encodeBlock s a3 fb true q).conforming
  obtain ⟨hsels, hfour⟩ := hconforming.forced s.fselWord rfl
  have hinfo : (encodeBlock (s.encodeInput a3 fb true q)).three = false := by
    rw [← Bool.not_eq_true, hconforming.order, Nat.not_le]
    exact hfour
  refine ⟨_, exec_encode a3 fb true q h, rfl, congrArg Reg.value hsels, congrArg Reg.value hsels, ?_⟩
  exact congrArg (fun u => Reg.value (infoWord u)) hinfo

/-! The error does not rise with the quality (43_encoder.md R117). -/

theorem conformingEncode_atQuality (draw : EncodeInput → Half × Half) (inp : EncodeInput) (q n : Nat) :
    conformingEncode draw (atQuality inp q) n = conformingEncode draw inp n := by
  induction n with
  | zero => rfl
  | succ n ih => simp only [conformingEncode, ih]; rfl

theorem encodeUnder_err_le (policy : EncoderPolicy) (draw : EncodeInput → Half × Half) (inp : EncodeInput) {q : Nat}
    (hq : q < 255) :
    (encodeUnder policy draw (atQuality inp (q + 1))).err ≤ (encodeUnder policy draw (atQuality inp q)).err := by
  cases policy with
  | reference => exact referenceEncode_err_le inp (Nat.le_succ q) hq
  | anyConforming =>
    have hquality : ∀ n < 256, (atQuality inp n).quality.toNat = n := fun n hn => Nat.mod_eq_of_lt hn
    simp only [encodeUnder, conformingEncode_atQuality, hquality q (by omega), hquality (q + 1) (by omega)]
    exact conformingEncode_err_le draw inp q

/-- Settles O26: the two runs read the same input but for its quality. -/
theorem qualityMonotone : Obligations.QualityMonotone := by
  intro a3 fb fe q s h hq
  refine ⟨_, _, _, _, exec_encode a3 fb fe _ h, rfl, exec_encode a3 fb fe _ h, rfl, ?_⟩
  rw [(emitsPermittedPair_encodeBlock ..).erro_toNat, (emitsPermittedPair_encodeBlock ..).erro_toNat]
  exact encodeUnder_err_le _ _ (s.encodeInput a3 fb fe 0) hq

/-! A block whose texels are all forced transparent (43_encoder.md R121). -/

theorem inT_inputOf (s : State) (a3 fb fe : Bool) (q : BitVec 8) (i : Fin 16) :
    inT (inputOf s a3 fb fe q) i = true ↔ fe = false ∧ fb = true ∧ bits (s.srcWord i) 24 8 < 128 := by
  have halpha : (inputOf s a3 fb fe q).texels[i].a.toNat = bits (s.srcWord i) 24 8 := by
    rw [inputOf, Fin.getElem_fin, Vector.getElem_ofFn]
    exact extractLsb'_toNat_eq_bits _ 24 8
  rw [inT, halpha]
  cases fe <;> simp [inputOf]

theorem sel_allOnes : ∀ i : Fin 16, (sel 0xFFFFFFFF i).toNat = 3 := by decide

/-- Settles O37: the search's first case, and R115 with R117 on any output. (`allTransparentBlock` is the model's block.) -/
theorem allTransparentBlockRule : Obligations.AllTransparentBlock := by
  refine ⟨fun inp hT => if_pos ((fitSet_isEmpty_iff inp).mpr hT), fun a3 q s h halpha => ?_⟩
  have hT : ∀ i, inT (inputOf s a3 true false q) i = true := fun i => (inT_inputOf ..).mpr ⟨rfl, rfl, halpha i⟩
  have hconforming := (emitsPermittedPair_encodeBlock s a3 true false q).conforming
  obtain ⟨-, hthree⟩ := hconforming.transparent 0 (hT 0)
  refine ⟨_, _, hthree, ?_⟩
  have hsels : (encodeBlock (s.encodeInput a3 true false q)).sels = 0xFFFFFFFF := word_eq_of_sel_eq fun i => by
    obtain ⟨hsel, -⟩ := hconforming.transparent i (hT i)
    apply BitVec.eq_of_toNat_eq
    rw [sel_toNat_eq_selectorOf, hsel, sel_allOnes]
  have herr : (encodeBlock (s.encodeInput a3 true false q)).err = 0 := by
    rw [hconforming.error]
    exact Finset.sum_eq_zero fun i _ => if_pos (hT i)
  have hanswers := answers_encode a3 true false q h
  dsimp only at hanswers
  rwa [hsels, herr, hconforming.order.mpr hthree] at hanswers

/-! Decoding an encoded block (41_decoder.md R92, R93). -/

/-- The selector of a texel of O names an entry of the block's palette, in any mode. -/
theorem EmitsPermittedPair.sel_lt {inp : EncodeInput} {o : Encoded} (h : EmitsPermittedPair inp o) {i : Fin 16}
    (hi : inT inp i = false) (m : Mode) : (sel o.sels i).toNat < (emittedPalette m o.c0 o.c1).length := by
  obtain ⟨hpair, hpermitted⟩ := h
  have hsel : sel o.sels i = chosenSelector inp (emittedPalette inp.mode o.c0 o.c1) i :=
    (congrArg (fun o : Encoded => sel o.sels i) hpair).trans (sel_packSelectors _ i)
  have hlt := chosenSelector_lt hpermitted hi
  rw [emittedPalette_length] at hlt ⊢
  rwa [hsel]

/-- A transparent texel decodes to transparent black with `SET_ALPHA`. -/
theorem EmitsPermittedPair.decodeTexel_of_inT {inp : EncodeInput} {o : Encoded} (h : EmitsPermittedPair inp o) {i : Fin 16}
    (hi : inT inp i = true) (m : Mode) : wordOfTexel (decodeTexel m o.c0 o.c1 o.sels true i) = 0 := by
  obtain ⟨hsel, hthree⟩ := h.conforming.transparent i hi
  rw [wordOfTexel_decodeTexel, decodedNumber, hsel, if_neg (Nat.not_lt.mpr hthree)]
  rfl

/-- Settles O28: a texel of T decodes to transparent black, any other to an opaque palette entry. -/
theorem punchThroughDecode : Obligations.PunchThroughDecode := by
  intro a3 fb fe q s m h
  have hpair := emitsPermittedPair_encodeBlock s a3 fb fe q
  refine ⟨_, _, _, exec_encode a3 fb fe q h, rfl, rfl, fun u h0 h1 => ?_⟩
  obtain ⟨v, hv, hdst⟩ := exec_decode_of_block h0 h1 m true
  refine ⟨v, hv, fun i => ⟨_, hdst i, ?_⟩⟩
  split
  case isTrue hT => exact hpair.decodeTexel_of_inT ((inT_inputOf ..).mpr hT) m
  case isFalse hO =>
    have hi : inT (inputOf s a3 fb fe q) i = false := Bool.eq_false_of_not_eq_true (mt (inT_inputOf ..).mp hO)
    rw [decodeTexel_of_lt (hpair.sel_lt hi m), ← extractLsb'_toNat_eq_bits, alpha_wordOfTexel]
    rfl

/-- A texel comes back from its word (30_encoding.md R56). -/
theorem texelOfWord_wordOfTexel (t : Texel) : texelOfWord (wordOfTexel t) = t := by
  obtain ⟨hr, hg, hb, ha⟩ := byteOf_append t.a t.rgb.b t.rgb.g t.rgb.r
  have hbytes : texelOfWord (wordOfTexel t) = {
      rgb := { r := byteOf (wordOfTexel t) 0, g := byteOf (wordOfTexel t) 1, b := byteOf (wordOfTexel t) 2 }
      a := byteOf (wordOfTexel t) 3 } := rfl
  rw [hbytes, wordOfTexel, hr, hg, hb, ha]

theorem rgbOfWord_wordOfTexel (t : Texel) : rgbOfWord (wordOfTexel t) = channelsOf t.rgb := by
  rw [← channelsOf_texelOfWord, texelOfWord_wordOfTexel]

/-- A texel of O decodes, in the mode it was encoded in, to the color that its selector was scored for. -/
theorem EmitsPermittedPair.rgb_decodeTexel {inp : EncodeInput} {o : Encoded} (h : EmitsPermittedPair inp o) {i : Fin 16}
    (hi : inT inp i = false) (setAlpha : Bool) :
    rgbOfWord (wordOfTexel (decodeTexel inp.mode o.c0 o.c1 o.sels setAlpha i)) =
      blockEntry inp.mode o.c0 o.c1 (selectorOf o.sels i) := by
  have hlt := h.sel_lt hi inp.mode
  rw [decodeTexel_of_lt hlt, rgbOfWord_wordOfTexel, channelsOf_emittedPalette _ _ _ hlt, sel_toNat_eq_selectorOf]

/-- Settles O29: outside T each texel decodes to the entry of its selector, whose error R117 sums. -/
theorem decodedErrorIsReported : Obligations.DecodedErrorIsReported := by
  intro a3 fb fe setAlpha q s h
  have hpair := emitsPermittedPair_encodeBlock s a3 fb fe q
  refine ⟨_, _, _, _, exec_encode a3 fb fe q h, rfl, rfl, rfl, fun u h0 h1 => ?_⟩
  obtain ⟨v, hv, hdst⟩ := exec_decode_of_block h0 h1 s.block.encMode setAlpha
  refine ⟨v, _, hv, hdst, ?_⟩
  rw [hpair.erro_toNat, hpair.conforming.error]
  refine Finset.sum_congr rfl fun i _ => ?_
  have hsource : channelsOf (inputOf s a3 fb fe q).texels[i].rgb = rgbOfWord (s.srcWord i) := channelsOf_sourceTexels s i
  cases hi : inT (inputOf s a3 fb fe q) i with
  | true => rw [if_pos rfl, if_pos rfl]
  | false =>
    rw [if_neg Bool.false_ne_true, if_neg Bool.false_ne_true]
    exact congrArg₂ errOf hsource (hpair.rgb_decodeTexel hi setAlpha).symm

/-! Solid blocks in every mode (43_encoder.md R118). -/

/-- Either policy's outputs conform. -/
theorem conforms_encodeUnder (policy : EncoderPolicy) (draw : EncodeInput → Half × Half) (inp : EncodeInput) :
    conforms inp (encodeUnder policy draw inp) = true := by
  cases policy with
  | reference => exact conforms_referenceEncode inp
  | anyConforming => exact conforms_conformingEncode draw inp _

/-- A texel whose word is within rounding is within the quantization distance. -/
theorem withinQuantization_of_withinRounding {x : Rgb} {t : Texel} (h : WithinRounding x (wordOfTexel t)) :
    withinQuantization x t = true := by
  have hrgb : (bits (wordOfTexel t) 0 8, bits (wordOfTexel t) 8 8, bits (wordOfTexel t) 16 8) =
      (t.rgb.r.toNat, t.rgb.g.toNat, t.rgb.b.toNat) := rgbOfWord_wordOfTexel t
  obtain ⟨hr, hg, hb⟩ : _ ∧ _ ∧ _ := by simpa only [Prod.mk.injEq] using hrgb
  have ha : bits (wordOfTexel t) 24 8 = t.a.toNat := by rw [← extractLsb'_toNat_eq_bits, alpha_wordOfTexel]
  rw [WithinRounding, hr, hg, hb, ha, ← absDiff_eq_gap, ← absDiff_eq_gap, ← absDiff_eq_gap] at h
  obtain ⟨halpha, hnear⟩ := h
  cases t
  obtain rfl := BitVec.eq_of_toNat_eq (y := (255 : Byte)) halpha
  exact (withinQuantization_opaque _ _).mpr hnear

/-- A solid input's block of quality 0 that decodes within rounding is what allows the bound (log 8). -/
theorem boundAllowed_of_withinRounding {inp : EncodeInput}
    (h : ∀ setAlpha i, WithinRounding inp.texels[0].rgb (wordOfTexel (decodeTexel inp.mode
      (referenceEncode (atQuality inp 0)).c0 (referenceEncode (atQuality inp 0)).c1
      (referenceEncode (atQuality inp 0)).sels setAlpha i))) : boundAllowed inp = true := by
  simp only [boundAllowed, solidBound, Bool.or_eq_true, List.all_eq_true, Bool.and_eq_true]
  exact .inr fun i _ => ⟨withinQuantization_of_withinRounding (h true i), withinQuantization_of_withinRounding (h false i)⟩

theorem solidBound_of_conforms {inp : EncodeInput} {o : Encoded} (h : conforms inp o = true) (hsolid : isSolid inp = true)
    (hallowed : boundAllowed inp = true) : solidBound inp o = true := by
  obtain ⟨-, -, -, -, -, -, hkept⟩ := (conforms_iff inp o).mp h
  simpa [solidKept, hsolid, hallowed] using hkept

/-- Settles O47: the premise allows the bound, which either policy's output then keeps. -/
theorem solidBlockWhereAllowed : Obligations.SolidBlockWhereAllowed := by
  intro a3 fb q s x hinit hx hopaque hpremise
  obtain ⟨htexel, hsolid⟩ := encodeInput_isSolid hx hopaque a3 q
  simp only [inputOf_eq_encodeInput, ← wordOfTexel_decodeTexel] at hpremise
  have hallowed : boundAllowed (s.encodeInput a3 fb false q) = true :=
    boundAllowed_of_withinRounding (by rw [htexel]; exact hpremise)
  have hbound := solidBound_of_conforms (conforms_encodeUnder Config.encoderPolicy Config.conformingPair _) hsolid hallowed
  simp only [solidBound, List.all_eq_true, mem_texelIndices, forall_const, Bool.and_eq_true, htexel] at hbound
  refine ⟨_, _, _, exec_encode a3 fb false q hinit, rfl, rfl, fun setAlpha u h0 h1 => ?_⟩
  obtain ⟨v, hv, hdst⟩ := exec_decode_of_block h0 h1 s.block.encMode setAlpha
  refine ⟨v, hv, fun i => ⟨_, hdst i, withinRounding_wordOfTexel ?_⟩⟩
  obtain ⟨htrue, hfalse⟩ := hbound i
  cases setAlpha with
  | true => exact htrue
  | false => exact hfalse

end Sys2Proof.Machine
